-- ==== Sys2Proof/Word.lean ====
section
/-! DEFINITION. The word types of the block (00_scope.md R8): unsigned bit vectors of 8, 16 and 32 bits.
Cursors, sizes and loop counters are `Nat` (R8: "so that no cursor arithmetic wraps"). -/

namespace Sys2Proof

/-- `u8` (R8). -/
abbrev Byte := BitVec 8

/-- `u16` (R8). -/
abbrev Half := BitVec 16

/-- `u32` (R8). -/
abbrev Word := BitVec 32

end Sys2Proof
end

