-- ==== Sys2Proof/Machine/Constants.lean ====
section
/-! DEFINITION. The constants the spec fixes (00_scope.md R6, and the parameters of R7 at the value the spec takes),
each in one named definition: "the source's numeric literals are unaudited, so a model should hold each in one named
definition". -/

namespace Sys2Proof.Machine

/-- `MT_N` (R6): the words of the PRNG state. It is an `abbrev` because types are built from it. -/
abbrev mtN : Nat := 64

/-- `MT_M` (R6). -/
def mtM : Nat := 39

/-- `MT_MATRIX_A` (R6). -/
def mtMatrixA : Word := 0x9908B0DF

/-- `MT_UPPER` (R6). -/
def mtUpper : Word := 0x80000000

/-- `MT_LOWER` (R6). -/
def mtLower : Word := 0x7FFFFFFF

/-- `MT_INIT_MULT` (R6). -/
def mtInitMult : Word := 1712438297

/-- `MT_INIT_SHIFT` (R6). -/
def mtInitShift : Nat := 30

/-- `MT_DEFAULT_SEED` (R6). -/
def mtDefaultSeed : Word := 5489

/-- The shift of the first line of `MT_TEMPER` (R6), to the right. -/
def mtTemperShift1 : Nat := 11

/-- The shift of the second line of `MT_TEMPER` (R6), to the left. -/
def mtTemperShift2 : Nat := 7

/-- The shift of the third line of `MT_TEMPER` (R6), to the left. -/
def mtTemperShift3 : Nat := 15

/-- The shift of the fourth line of `MT_TEMPER` (R6), to the right. -/
def mtTemperShift4 : Nat := 18

/-- The first mask of `MT_TEMPER` (R6). -/
def mtTemperMask1 : Word := 0x9C4F88E3

/-- The second mask of `MT_TEMPER` (R6). -/
def mtTemperMask2 : Word := 0xE7F70000

/-- `MT_SEED_CURSOR` (R7, decision D18). -/
def mtSeedCursor : Nat := 64

/-- The value of `mti` that means "uninitialized" (10_state.md R28). -/
def mtUninitialized : Nat := 65

/-- `VSP_PLANES` (R6): the planes of a strip. It is an `abbrev` because a type is built from it. -/
abbrev vspPlanes : Nat := 4

/-- `VSP_RAW_MIN` (R6): the smallest byte that is a raw plane byte. -/
def vspRawMin : Nat := 0x08

/-- `VSP_STRIP_W` (R6). -/
def vspStripW : Nat := 8

/-- `VSP_COUNT_BIAS` (R7, decision D4). -/
def vspCountBias : Nat := 1

/-- The value `INV` writes to `mask` (41_vsp.md R148). -/
def maskInverted : Byte := 0xFF

/-- `SGD_SLOT` (R6): bytes per pixel slot. -/
def sgdSlot : Nat := 4

/-- The value the alpha bytes are complemented with (42_sgd_alpha.md R173). -/
def alphaFlip : Byte := 0xFF

/-- The offset in its slot of the alpha byte, where the alpha cursor starts (10_state.md R42). -/
def alphaStart : Nat := 3

/-- The bytes of one 32-bit word of a mix buffer (40_prng.md R126). -/
def mixWordBytes : Nat := 4

/-- What a byte no one has written reads as: `HIST_INIT` and `OUT_INIT` are zero (R7, decisions D6, D14); for `IN` and
`MIX` it is the model's choice (log 4). -/
def unlistedByte : Byte := 0

/-- The difference the frame check asks between `CSIZE` and `INNER_LEN` (44_host_commands.md R211). -/
def frameExtra : Nat := 4

end Sys2Proof.Machine
end

