-- ==== Sys2Proof/Syntax.lean ====
section
/-! DEFINITION. The instructions of the block as syntax: one constructor for each of the 23 instruction forms of
spec/opcode_table.json (its 27 rows give `RAW` five rows), and the decoding contexts of 30_encoding.md R90.
A constructor holds the fields of the decoded unit and the fixed operand bytes that follow it.
The literal runs of `A_LIT` and `C_LIT` and the delta words of `C_DELTA` are no fields: they are fetched while the run
executes (10_state.md R22), and each delta word is an instruction of its own (R90, context `SGD_D`); log 34. -/

namespace Sys2Proof

/-- The decoding contexts (R90), with the position of an SGD section header (R95) as one more: "which context applies
is decided by the engine's position in the job". -/
inductive Context where
  /-- the `CMD` register -/
  | host
  /-- an instruction boundary of a `VSP_DECODE` job -/
  | vsp
  /-- the position of a section length in an `SGD_DECODE` job -/
  | hdr
  /-- inside the alpha section -/
  | sgdA
  /-- inside the colour section, at a run boundary -/
  | sgdC
  /-- inside a `C_DELTA` run -/
  | sgdD
deriving DecidableEq, Repr

/-- The instructions (R92, R95, R96, R97, R99, R100). -/
inductive Instr where
  /-- `COPY`, format `V_CNT` -/
  | copy (cnt : Byte)
  /-- `FILL`, format `V_CNT_B` -/
  | fill (cnt b0 : Byte)
  /-- `FILL2`, format `V_CNT_BB` -/
  | fill2 (cnt b0 b1 : Byte)
  /-- `XOR0`, format `V_CNT` -/
  | xor0 (cnt : Byte)
  /-- `XOR1`, format `V_CNT` -/
  | xor1 (cnt : Byte)
  /-- `XOR2`, format `V_CNT` -/
  | xor2 (cnt : Byte)
  /-- `INV`, format `V_OP` -/
  | inv
  /-- `LIT`, format `V_B` -/
  | lit (b0 : Byte)
  /-- `RAW`, format `V_RAW`: `c` is the byte itself, 0x08 to 0xFF -/
  | raw (c : Byte)
  /-- `S_LEN`: the 32-bit length of the section that follows -/
  | sLen (len : Word)
  /-- `A_RLE`: `f[14:0]` and the literal alpha byte -/
  | aRle (cnt : BitVec 15) (a : Byte)
  /-- `A_LIT`: `f[14:0]`; `cnt` literal bytes follow in the stream -/
  | aLit (cnt : BitVec 15)
  /-- `C_LIT`: `f[5:0]`; `len` triples follow in the stream -/
  | cLit (len : BitVec 6)
  /-- `C_REP`: `f[5:0]` and one triple B, G, R -/
  | cRep (len : BitVec 6) (b g r : Byte)
  /-- `C_DELTA`: `f[5:0]`; `len` delta words follow, each an instruction of context `sgdD` -/
  | cDelta (len : BitVec 6)
  /-- `C_ILLEGAL`: a colour flag with top bits `11b`; `low` is `f[5:0]` -/
  | cIllegal (low : BitVec 6)
  /-- `D_ADD`: fields `d[14:10]`, `d[9:5]`, `d[4:0]` -/
  | dAdd (dR dG dB : BitVec 5)
  /-- `D_SM`: signs `d[14]`, `d[9]`, `d[4]` and magnitudes `d[13:10]`, `d[8:5]`, `d[3:0]` -/
  | dSm (sR : Bool) (mR : BitVec 4) (sG : Bool) (mG : BitVec 4) (sB : Bool) (mB : BitVec 4)
  /-- `PRNG_SEED`, command 0x01 -/
  | prngSeed
  /-- `PRNG_MIX`, command 0x02 -/
  | prngMix
  /-- `PRNG_NEXT`, command 0x03 -/
  | prngNext
  /-- `VSP_DECODE`, command 0x04 -/
  | vspDecode
  /-- `SGD_DECODE`, command 0x05 -/
  | sgdDecode
deriving DecidableEq, Repr

/-- The context whose pattern an instruction belongs to (the field `context` of spec/opcode_table.json). -/
def Instr.context : Instr → Context
  | .copy _ => .vsp
  | .fill _ _ => .vsp
  | .fill2 _ _ _ => .vsp
  | .xor0 _ => .vsp
  | .xor1 _ => .vsp
  | .xor2 _ => .vsp
  | .inv => .vsp
  | .lit _ => .vsp
  | .raw _ => .vsp
  | .sLen _ => .hdr
  | .aRle _ _ => .sgdA
  | .aLit _ => .sgdA
  | .cLit _ => .sgdC
  | .cRep _ _ _ _ => .sgdC
  | .cDelta _ => .sgdC
  | .cIllegal _ => .sgdC
  | .dAdd _ _ _ => .sgdD
  | .dSm _ _ _ _ _ _ => .sgdD
  | .prngSeed => .host
  | .prngMix => .host
  | .prngNext => .host
  | .vspDecode => .host
  | .sgdDecode => .host

end Sys2Proof
end

