-- ==== Sys2Proof/WellFormed.lean ====
section
/-! DEFINITION. Which terms of `Instr` are instructions: the field widths of `Instr` already are the widths of
30_encoding.md, so one check is left, that of `RAW` (R92: "`c[7:0]` is itself the literal, `c >= 0x08`"). -/

namespace Sys2Proof

/-- The encoding conditions on an instruction's operands. -/
def Instr.wellFormed : Instr → Bool
  | .copy _ => true
  | .fill _ _ => true
  | .fill2 _ _ _ => true
  | .xor0 _ => true
  | .xor1 _ => true
  | .xor2 _ => true
  | .inv => true
  | .lit _ => true
  | .raw c => decide (Machine.vspRawMin ≤ c.toNat)
  | .sLen _ => true
  | .aRle _ _ => true
  | .aLit _ => true
  | .cLit _ => true
  | .cRep _ _ _ _ => true
  | .cDelta _ => true
  | .cIllegal _ => true
  | .dAdd _ _ _ => true
  | .dSm _ _ _ _ _ _ => true
  | .prngSeed => true
  | .prngMix => true
  | .prngNext => true
  | .vspDecode => true
  | .sgdDecode => true

end Sys2Proof
end

