-- ==== Sys2Proof/Decode.lean ====
section
/-! DEFINITION. From bytes to instructions and back (30_encoding.md): a decoder for each context of R90, total on any
bytes, which rejects by name; then the encoder, written from the same formats; then the host's two-argument reading of a
row of spec/opcode_table.json. -/

namespace Sys2Proof

/-! ### Byte order (20_memory.md R64: little-endian everywhere) -/

/-- The little-endian 16-bit quantity of the bytes at offsets `a`, `a+1` (R66). -/
def le16 (v0 v1 : Byte) : Half := v1 ++ v0

/-- The little-endian 32-bit quantity of four consecutive bytes (R64). -/
def le32 (v0 v1 v2 v3 : Byte) : Word := v3 ++ v2 ++ v1 ++ v0

/-- Byte `k` of a multi-byte quantity, `v[8k+7:8k]` (00_scope.md R12). -/
def byteAt {w : Nat} (v : BitVec w) (k : Nat) : Byte := v.extractLsb' (8 * k) 8

/-! ### Decoding -/

/-- Why bytes are no instruction. -/
inductive Reject where
  /-- The bytes end inside the instruction: `fetched` of its bytes were fetched before the fetch that fails. -/
  | truncated (fetched : Nat)
  /-- A `CMD` value with no command (R98). -/
  | badCommand (code : Byte)
deriving DecidableEq, Repr

/-- An instruction and the bytes after it, or the reason there is none. -/
abbrev Decoded := Except Reject (Instr × List Byte)

/-- One more single-byte fetch, after `fetched` bytes of the instruction. -/
def nextByte (fetched : Nat) (bs : List Byte) (k : Byte → List Byte → Decoded) : Decoded :=
  match bs with
  | [] => .error (.truncated fetched)
  | v :: rest => k v rest

/-- One 16-bit fetch as the first of an instruction: two bytes, or none consumed (R13). -/
def firstHalf (bs : List Byte) (k : Half → List Byte → Decoded) : Decoded :=
  match bs with
  | v0 :: v1 :: rest => k (le16 v0 v1) rest
  | _ => .error (.truncated 0)

/-- The VSP opcode map (R93) and formats (R92). Every first byte is legal: from `VSP_RAW_MIN`
on it is a raw plane byte, below it one of eight opcodes, 0x07 the last. -/
def decodeVsp (bs : List Byte) : Decoded :=
  nextByte 0 bs fun c t =>
    if Machine.vspRawMin ≤ c.toNat then .ok (.raw c, t)
    else if c = 0x00 then nextByte 1 t fun cnt t => .ok (.copy cnt, t)
    else if c = 0x01 then nextByte 1 t fun cnt t => nextByte 2 t fun b0 t => .ok (.fill cnt b0, t)
    else if c = 0x02 then
      nextByte 1 t fun cnt t => nextByte 2 t fun b0 t => nextByte 3 t fun b1 t => .ok (.fill2 cnt b0 b1, t)
    else if c = 0x03 then nextByte 1 t fun cnt t => .ok (.xor0 cnt, t)
    else if c = 0x04 then nextByte 1 t fun cnt t => .ok (.xor1 cnt, t)
    else if c = 0x05 then nextByte 1 t fun cnt t => .ok (.xor2 cnt, t)
    else if c = 0x06 then .ok (.inv, t)
    else nextByte 1 t fun b0 t => .ok (.lit b0, t)

/-- The section header (R95): one 32-bit fetch. -/
def decodeHdr (bs : List Byte) : Decoded :=
  match bs with
  | v0 :: v1 :: v2 :: v3 :: rest => .ok (.sLen (le32 v0 v1 v2 v3), rest)
  | _ => .error (.truncated 0)

/-- The alpha context (R96): a 16-bit flag, and for `A_RLE` one literal byte. -/
def decodeSgdA (bs : List Byte) : Decoded :=
  firstHalf bs fun f t =>
    if f.getLsbD 15 then nextByte 2 t fun a t => .ok (.aRle (f.extractLsb' 0 15) a, t)
    else .ok (.aLit (f.extractLsb' 0 15), t)

/-- The colour context (R97): a flag byte, and for `C_REP` one triple. -/
def decodeSgdC (bs : List Byte) : Decoded :=
  nextByte 0 bs fun f t =>
    if f.extractLsb' 6 2 = 0#2 then .ok (.cLit (f.extractLsb' 0 6), t)
    else if f.extractLsb' 6 2 = 1#2 then
      nextByte 1 t fun b t => nextByte 2 t fun g t => nextByte 3 t fun r t => .ok (.cRep (f.extractLsb' 0 6) b g r, t)
    else if f.extractLsb' 6 2 = 2#2 then .ok (.cDelta (f.extractLsb' 0 6), t)
    else .ok (.cIllegal (f.extractLsb' 0 6), t)

/-- The delta word context (R99). -/
def decodeSgdD (bs : List Byte) : Decoded :=
  firstHalf bs fun d t =>
    if d.getLsbD 15 then .ok (.dAdd (d.extractLsb' 10 5) (d.extractLsb' 5 5) (d.extractLsb' 0 5), t)
    else
      .ok (.dSm (d.getLsbD 14) (d.extractLsb' 10 4) (d.getLsbD 9) (d.extractLsb' 5 4) (d.getLsbD 4)
        (d.extractLsb' 0 4), t)

/-- The host commands (R100): the value of `CMD`. -/
def decodeHost (bs : List Byte) : Decoded :=
  nextByte 0 bs fun c t =>
    if c = 0x01 then .ok (.prngSeed, t)
    else if c = 0x02 then .ok (.prngMix, t)
    else if c = 0x03 then .ok (.prngNext, t)
    else if c = 0x04 then .ok (.vspDecode, t)
    else if c = 0x05 then .ok (.sgdDecode, t)
    else .error (.badCommand c)

/-- The decoder: the context selects the grammar (R90). -/
def decode (ctx : Context) (bs : List Byte) : Decoded :=
  match ctx with
  | .host => decodeHost bs
  | .vsp => decodeVsp bs
  | .hdr => decodeHdr bs
  | .sgdA => decodeSgdA bs
  | .sgdC => decodeSgdC bs
  | .sgdD => decodeSgdD bs

/-! ### Encoding -/

/-- The two bytes of a 16-bit unit. -/
def bytes16 (v : Half) : List Byte := [byteAt v 0, byteAt v 1]

/-- The four bytes of a 32-bit unit. -/
def bytes32 (v : Word) : List Byte := [byteAt v 0, byteAt v 1, byteAt v 2, byteAt v 3]

/-- A one-bit field. -/
def bit1 (v : Bool) : BitVec 1 := BitVec.ofBool v

/-- The bytes of an instruction: its unit and its fixed operand bytes, in stream order (R65; formats R92, R95 to R97,
R99, R100). The literals of `A_LIT` and `C_LIT` and the words of `C_DELTA` come after these bytes. -/
def encode : Instr → List Byte
  | .copy cnt => [0x00, cnt]
  | .fill cnt b0 => [0x01, cnt, b0]
  | .fill2 cnt b0 b1 => [0x02, cnt, b0, b1]
  | .xor0 cnt => [0x03, cnt]
  | .xor1 cnt => [0x04, cnt]
  | .xor2 cnt => [0x05, cnt]
  | .inv => [0x06]
  | .lit b0 => [0x07, b0]
  | .raw c => [c]
  | .sLen len => bytes32 len
  | .aRle cnt a => bytes16 (1#1 ++ cnt) ++ [a]
  | .aLit cnt => bytes16 (0#1 ++ cnt)
  | .cLit len => [0#2 ++ len]
  | .cRep len b g r => [1#2 ++ len, b, g, r]
  | .cDelta len => [2#2 ++ len]
  | .cIllegal low => [3#2 ++ low]
  | .dAdd dR dG dB => bytes16 (1#1 ++ dR ++ dG ++ dB)
  | .dSm sR mR sG mG sB mB => bytes16 (0#1 ++ bit1 sR ++ mR ++ bit1 sG ++ mG ++ bit1 sB ++ mB)
  | .prngSeed => [0x01]
  | .prngMix => [0x02]
  | .prngNext => [0x03]
  | .vspDecode => [0x04]
  | .sgdDecode => [0x05]

/-- How many bytes of the stream the fetch of an instruction consumes, before its literals or delta words. -/
def Instr.size (i : Instr) : Nat := (encode i).length

/-- The longest instruction of any context, in fixed bytes (R91). -/
def maxSize : Nat := 4

/-! ### The opcode table's numbering -/

/-- The context in which a row of spec/opcode_table.json is read when only its bits are given (DESIGN CHOICE, log 3):
the table's patterns repeat from context to context (R90: "The same byte value means different things in different
contexts"), and a width and a value do not say which is meant. A 32-bit unit is a section header; a 16-bit unit is an
alpha flag; a byte below 0x40 is a VSP opcode, a byte from 0x40 up a colour flag. -/
def tableContext (nbits w : Nat) : Context :=
  if 16 < nbits then .hdr
  else if 8 < nbits then .sgdA
  else if w % 256 < 0x40 then .vsp
  else .sgdC

/-- The table's bits as bytes in stream order, zeros above `nbits`, up to the longest instruction. -/
def tableBytes (nbits w : Nat) : List Byte :=
  (List.range maxSize).map fun k => BitVec.ofNat 8 ((w % 2 ^ nbits) / 256 ^ k)

/-- The instruction the decoder reads from a row of the opcode table. -/
def decodeTableWord (nbits w : Nat) : Option Instr :=
  match decode (tableContext nbits w) (tableBytes nbits w) with
  | .ok (i, _) => some i
  | .error _ => none

end Sys2Proof
end

