-- ==== Sys2Proof/Config.lean ====
section
/-! DEFINITION. What one implementation of the block fixes: the three capacities of 00_scope.md R7 and
44_host_commands.md R210, which the spec leaves OPEN ("model arguments; default unbounded").
The spec gives every other open value a default, so there is no opaque free value here (INVENTORY.md, `## State`).
The fixed constants of R6 stand in Machine/Constants.lean. -/

namespace Sys2Proof

/-- `MAX_ROWS`, `MAX_OUT_BYTES`, `MAX_IN_BYTES` (R7, R210, decision D27): a bound, or `none` for unbounded. -/
structure Capacity where
  maxRows : Option Nat
  maxOutBytes : Option Nat
  maxInBytes : Option Nat
deriving DecidableEq, Repr

/-- "default unbounded" (R7, R210). -/
def Capacity.unbounded : Capacity := { maxRows := none, maxOutBytes := none, maxInBytes := none }

end Sys2Proof
end

