-- ==== Sys2Proof/Machine/State.lean ====
section
/-! DEFINITION. The state of the block as plain data (10_state.md), its reset value (R43), and the reasons a step can
stop. INVENTORY.md, `## State`, lists every field with its rule and its reset value. -/

namespace Sys2Proof.Machine

/-- One byte space (20_memory.md R60): address and byte pairs in one canonical form, addresses strictly rising and no
entry equal to what an unlisted address reads as (`Memory.wf`, Machine/Ops.lean). -/
abbrev Memory := List Host.Cell

/-- `STATUS` (R32). -/
inductive Status where
  | idle
  | busy
  | done
  | fault
deriving DecidableEq, Repr

/-- `phase` (R26): which SGD sub-decoder runs. -/
inductive Phase where
  | alpha
  | color
deriving DecidableEq, Repr

/-- The fault names of 60_exceptions.md R226. The third and fourth are never raised by this block (R229). -/
inductive FaultName where
  | invalidDimensions
  | corruptData
  | unsupportedConfiguration
  | unsupportedBitDepth
  | streamUnderrun
  | outputOverrun
  | deltaNoBase
  | badCommand
deriving DecidableEq, Repr

/-- What the host can do while the block is not busy (44_host_commands.md R205, R214): write a parameter register
(R33), load bytes of `IN` or `MIX` from an offset on, or write `CMD`. -/
inductive HostAction where
  | setWidth (v : Word)
  | setHeight (v : Word)
  | setOutSize (v : Word)
  | setCsize (v : Word)
  | setInnerLen (v : Word)
  | setSeed (v : Word)
  | setInLen (n : Nat)
  | setMixLen (n : Nat)
  | loadIn (start : Nat) (bytes : List Byte)
  | loadMix (start : Nat) (bytes : List Byte)
  | command (code : Byte)
deriving DecidableEq, Repr

/-- Everything the spec gives the block, and the model's own fields (the last five). -/
structure State where
  /-- `CMD` (R31) -/
  cmd : Byte
  /-- `STATUS` (R32) -/
  status : Status
  /-- `FAULT_CODE` (R32, R226) -/
  faultCode : Byte
  /-- `FAULT_IP` (R32, R236) -/
  faultIp : Nat
  /-- `RESULT` (R34) -/
  result : Word
  /-- `OUT_LEN` (R34) -/
  outLen : Nat
  /-- `WIDTH` (R33) -/
  width : Word
  /-- `HEIGHT` (R33) -/
  height : Word
  /-- `OUT_SIZE` (R33) -/
  outSize : Word
  /-- `CSIZE` (R33) -/
  csize : Word
  /-- `INNER_LEN` (R33) -/
  innerLen : Word
  /-- `SEED` (R33) -/
  seed : Word
  /-- `IN_LEN` (R33) -/
  inLen : Nat
  /-- `MIX_LEN` (R33) -/
  mixLen : Nat
  /-- the space `IN` (R35) -/
  inMem : Memory
  /-- the space `MIX` (R39) -/
  mixMem : Memory
  /-- the space `OUT` (R38) -/
  outMem : Memory
  /-- the history buffer `HB[0]` (R36) -/
  hb0 : Memory
  /-- the history buffer `HB[1]` (R36) -/
  hb1 : Memory
  /-- `MT[0 to 63]` (R28) -/
  mt : Vector Word mtN
  /-- `mti` (R28), 0 to 65 -/
  mti : Nat
  /-- `ip` (R22) -/
  ip : Nat
  /-- `lim` (R23) -/
  lim : Nat
  /-- `x` (R24) -/
  x : Nat
  /-- `plane` (R24) -/
  plane : Fin vspPlanes
  /-- `y` (R24) -/
  y : Nat
  /-- `mask` (R24, R27) -/
  mask : Byte
  /-- `sel` (R25): false is 0, true is 1 -/
  sel : Bool
  /-- `n` of `U-VSP` (R24) -/
  nVsp : Nat
  /-- `b0` (R24) -/
  b0 : Byte
  /-- `b1` (R24) -/
  b1 : Byte
  /-- `op` (R26) -/
  op : Nat
  /-- `phase` (R26) -/
  phase : Phase
  /-- `b` (R26) -/
  b : Byte
  /-- `g` (R26) -/
  g : Byte
  /-- `r` (R26) -/
  r : Byte
  /-- `a` (R26) -/
  a : Byte
  /-- `n` of `U-SGD` (R26) -/
  nSgd : Nat
  /-- the capacities (R7, R210), which no step changes (log 9) -/
  cap : Capacity
  /-- the engine's position: the decoding context of its next fetch (30_encoding.md R90; log 35) -/
  ctx : Context
  /-- `OUT` holds the result of a finished decode job that no later decode command has followed (R214; log 15) -/
  outValid : Bool
  /-- the host's coming actions, oldest first (log 2) -/
  host : List HostAction
  /-- the reset input (70_reset_and_hazards.md R255, R256; log 14) -/
  resetIn : Bool
deriving DecidableEq, Repr

/-- Why the machine stops. Both are the model's own, safe (the model stops where the block's rules give no meaning),
and no reachable state raises them (log 11). -/
inductive Fault where
  /-- Raised by `LIT` and `RAW` when `y >= HEIGHT`: row `y` of the history buffer does not exist (10_state.md R36).
  Safe: R153 fetches these instructions only when `y < HEIGHT`. -/
  | noHistoryRow
  /-- Raised by `C_DELTA` when its base slot does not lie inside `OUT[0 to OUT_SIZE-1]` (10_state.md R38). Safe: every
  slot below `op` was written by a colour instruction, so it lies inside (43_sgd_color.md R193, R196). -/
  | noOutputByte
deriving DecidableEq, Repr

/-- Why a step has no meaning in the model. -/
inductive Refusal where
  /-- Raised by an arm of `exec` whose instruction has no meaning yet; safe. No arm does, so no step is refused. -/
  | notModelled (mnemonic : String)
deriving DecidableEq, Repr

/-- What a step and a meaning answer. -/
abbrev Answer := Host.Outcome State Fault Refusal

/-- The state right after reset: R43 for the persistent state, log 5 for what R43 leaves unspecified. -/
def State.reset : State where
  cmd := 0
  status := .idle
  faultCode := 0
  faultIp := 0
  result := 0
  outLen := 0
  width := 0
  height := 0
  outSize := 0
  csize := 0
  innerLen := 0
  seed := 0
  inLen := 0
  mixLen := 0
  inMem := []
  mixMem := []
  outMem := []
  hb0 := []
  hb1 := []
  mt := Vector.replicate mtN 0
  mti := mtUninitialized
  ip := 0
  lim := 0
  x := 0
  plane := 0
  y := 0
  mask := 0
  sel := false
  nVsp := 0
  b0 := 0
  b1 := 0
  op := 0
  phase := .alpha
  b := 0
  g := 0
  r := 0
  a := 0
  nSgd := 0
  cap := Capacity.unbounded
  ctx := .host
  outValid := false
  host := []
  resetIn := false

end Sys2Proof.Machine
end

