-- ==== Sys2Proof/Machine/Ops.lean ====
section
/-! DEFINITION. The shared operations: memory, the history buffers, the PRNG words, raising a fault (the block's only
exception) and starting and ending a command, the stream fetch, and the bounded output writes. -/

namespace Sys2Proof.Machine

/-! ### Byte spaces -/

/-- The canonical form: addresses strictly rising, no entry that an unlisted address would read as. -/
abbrev Memory.wf (m : Memory) : Prop :=
  m.Pairwise (fun c d => c.1 < d.1) ∧ ∀ c ∈ m, c.2 ≠ unlistedByte

/-- The byte at an address. -/
def Memory.read : Memory → Nat → Byte
  | [], _ => unlistedByte
  | (k, v) :: m, a => if a = k then v else Memory.read m a

/-- An entry, or none where an unlisted address reads the same. -/
def Memory.entry (a : Nat) (v : Byte) : Memory := if v = unlistedByte then [] else [(a, v)]

/-- Store one byte, keeping the canonical form. -/
def Memory.write : Memory → Nat → Byte → Memory
  | [], a, v => Memory.entry a v
  | (k, w) :: m, a, v =>
    if a < k then Memory.entry a v ++ (k, w) :: m
    else if a = k then Memory.entry a v ++ m
    else (k, w) :: Memory.write m a v

/-- Store consecutive bytes from an offset on. -/
def Memory.load : Memory → Nat → List Byte → Memory
  | m, _, [] => m
  | m, a, v :: vs => Memory.load (Memory.write m a v) (a + 1) vs

/-- The bytes at consecutive addresses. -/
def Memory.slice (m : Memory) (a n : Nat) : List Byte := (List.range n).map fun k => Memory.read m (a + k)

/-- `MemRead(S, a, 4)` (00_scope.md R12): the little-endian word at `a`. -/
def Memory.readWord (m : Memory) (a : Nat) : Word :=
  le32 (Memory.read m a) (Memory.read m (a + 1)) (Memory.read m (a + 2)) (Memory.read m (a + 3))

/-! ### The PRNG words `MT[0 to 63]` (10_state.md R28) -/

/-- `MT[k mod 64]`. -/
def mtAt (mt : Vector Word mtN) (k : Nat) : Word := mt[k % mtN]'(Nat.mod_lt k (by decide))

/-- `MT[k mod 64] <- v`. -/
def mtPut (mt : Vector Word mtN) (k : Nat) (v : Word) : Vector Word mtN := mt.set (k % mtN) v (Nat.mod_lt k (by decide))

/-! ### The history buffers `HB[s][y][p]` (10_state.md R36; the layout is free, 20_memory.md R61) -/

/-- The key of the cell of row `y` and plane `p` in its buffer. -/
def hbKey (y p : Nat) : Nat := vspPlanes * y + p

/-- `HB[s][y][p]`. -/
def histRead (sel : Bool) (y p : Nat) (s : State) : Byte :=
  Memory.read (if sel then s.hb1 else s.hb0) (hbKey y p)

/-- `cur[y][p]`, the current buffer `HB[sel]` (R25). -/
def curRead (y p : Nat) (s : State) : Byte := histRead s.sel y p s

/-- `prev[y][p]`, the previous buffer `HB[1-sel]` (R25). -/
def prevRead (y p : Nat) (s : State) : Byte := histRead (!s.sel) y p s

/-- `cur[y][p] <- v`. -/
def curWrite (y p : Nat) (v : Byte) (s : State) : State :=
  if s.sel then { s with hb1 := Memory.write s.hb1 (hbKey y p) v }
  else { s with hb0 := Memory.write s.hb0 (hbKey y p) v }

/-! ### Faults: the block's only exception (60_exceptions.md R236) -/

/-- The numeric code of a fault (R226). -/
def FaultName.code : FaultName → Byte
  | .invalidDimensions => 0x01
  | .corruptData => 0x02
  | .unsupportedConfiguration => 0x03
  | .unsupportedBitDepth => 0x04
  | .streamUnderrun => 0x10
  | .outputOverrun => 0x11
  | .deltaNoBase => 0x12
  | .badCommand => 0x13

/-- The two-bit encoding of `STATUS` (10_state.md R32). -/
def Status.code : Status → BitVec 2
  | .idle => 0
  | .busy => 1
  | .done => 2
  | .fault => 3

/-- Fault entry, `raise F(info)` (R236): the command stops, the code and `FAULT_IP` are recorded, `STATUS <- FAULT`;
"Nothing else is saved, no mode changes, control goes nowhere: the block is idle and accepts the next command". -/
def raise (f : FaultName) (info : Nat) (s : State) : State :=
  { s with faultCode := f.code, faultIp := info, status := .fault, ctx := .host }

/-- The start of a command (44_host_commands.md R207), which is also the only way out of a faulted state: there is no
return from a fault (R239), and the next write of `CMD` clears `FAULT_CODE`. `FAULT_IP` keeps its value (log 16). -/
def beginCommand (code : Byte) (s : State) : State :=
  { s with cmd := code, status := .busy, faultCode := 0 }

/-- The end of a command that raised nothing: `STATUS <- DONE` (R215), the engine back at `CMD`. -/
def finish (s : State) : State := { s with status := .done, ctx := .host }

/-- The end of a decode job: `OUT_LEN`, then `STATUS <- DONE` (R209, R211). -/
def finishDecode (n : Nat) (s : State) : State := finish { s with outLen := n, outValid := true }

/-! ### Instructions that can be cut short by a fault -/

/-- The state so far, and whether the command goes on: `stop` holds the state a raise has left. -/
inductive Flow where
  | cont (s : State)
  | stop (s : State)
deriving DecidableEq, Repr

/-- What comes next, unless a raise has ended the command (00_scope.md R14). -/
def Flow.andThen (f : Flow) (k : State → Flow) : Flow :=
  match f with
  | .cont s => k s
  | .stop s => .stop s

/-- The state a flow ends in. -/
def Flow.state : Flow → State
  | .cont s => s
  | .stop s => s

/-- A flow as the answer of a meaning: taking a fault of the block is a next state. -/
def Flow.answer (f : Flow) : Answer := .next f.state

/-! ### The stream (00_scope.md R13) -/

/-- The bytes an instruction fetch can see: those from `ip` on that lie below `lim`, at most the longest instruction. -/
def fetchWindow (s : State) : List Byte := Memory.slice s.inMem s.ip (min maxSize (s.lim - s.ip))

/-- `fetch8()`: the byte at `ip`, or `StreamUnderrun(ip)` with nothing consumed. -/
def fetchByte (s : State) (k : Byte → State → Flow) : Flow :=
  if s.lim < s.ip + 1 then .stop (raise .streamUnderrun s.ip s)
  else k (Memory.read s.inMem s.ip) { s with ip := s.ip + 1 }

/-! ### SGD output writes (42_sgd_alpha.md R176, 43_sgd_color.md R193) -/

/-- `out_write(addr, v)` (R176). -/
def outWrite (addr : Nat) (v : Byte) (s : State) : Flow :=
  if s.outSize.toNat ≤ addr then .stop (raise .outputOverrun s.ip s)
  else .cont { s with outMem := Memory.write s.outMem addr v }

/-- `OUT[op] <- b; OUT[op+1] <- g; OUT[op+2] <- r` (R193). -/
def storeTriple (m : Memory) (op : Nat) (b g r : Byte) : Memory :=
  Memory.write (Memory.write (Memory.write m op b) (op + 1) g) (op + 2) r

/-- `put3(b, g, r)` of the registers `b`, `g`, `r` (R193): a triple is written whole or not at all. -/
def put3 (s : State) : Flow :=
  if s.outSize.toNat ≤ s.op + 2 then .stop (raise .outputOverrun s.ip s)
  else .cont { s with outMem := storeTriple s.outMem s.op s.b s.g s.r, op := s.op + sgdSlot }

end Sys2Proof.Machine
end

