-- ==== Sys2Proof/Machine/Operands.lean ====
section
/-! DEFINITION. The operand forms: run counts, complemented alpha bytes, the fields of a delta word applied to a channel,
the base of a delta run, and what an instruction whose bytes end early has put in its operand registers. -/

namespace Sys2Proof.Machine

/-- The run count of a VSP count byte, `cnt + 1` (30_encoding.md R94, 41_vsp.md R159). -/
def runCount (cnt : Byte) : Nat := cnt.toNat + vspCountBias

/-- The run length of `A_RLE`, `f[14:0] + 1` (R96, R173). -/
def alphaRunCount (cnt : BitVec 15) : Nat := cnt.toNat + 1

/-- The run length of `C_REP`, `f[5:0] + 1` (R97, R191). -/
def repCount (len : BitVec 6) : Nat := len.toNat + 1

/-- The alpha byte written for a stream byte: its complement (R173, R174, R177). -/
def alphaByte (a : Byte) : Byte := a ^^^ alphaFlip

/-- One channel of `d_add`: `v +_8 zext_8(d)` (R189). -/
def addField (v : Byte) (d : BitVec 5) : Byte := v + d.setWidth 8

/-- One channel of `d_sm`: subtract when the sign bit is 1, else add (R190; decision D15). -/
def smField (v : Byte) (sign : Bool) (mag : BitVec 4) : Byte :=
  if sign then v - mag.setWidth 8 else v + mag.setWidth 8

/-- The base of a `C_DELTA` run: B, G, R of the slot before `op` (R188, 20_memory.md R78). -/
def loadBase (s : State) : State :=
  { s with
    b := Memory.read s.outMem (s.op - sgdSlot)
    g := Memory.read s.outMem (s.op - sgdSlot + 1)
    r := Memory.read s.outMem (s.op - sgdSlot + 2) }

/-- What the fetches before a failing one have left in the operand registers: an instruction's pseudocode assigns
`n`, `b0`, `a`, `b`, `g` as it goes, so a `FILL2` without its last byte has set `b0`, an `A_RLE` without its literal has
set `n`, a `C_REP` without its triple has set `n` and the bytes it got (60_exceptions.md R236, R237; log 8).
`bs` are the bytes fetched. -/
def latchOperands (ctx : Context) (bs : List Byte) (s : State) : State :=
  match ctx, bs with
  | .vsp, [c, _, v0] => if c = 0x02 then { s with b0 := v0 } else s
  | .sgdA, [v0, v1] => { s with nSgd := alphaRunCount ((le16 v0 v1).extractLsb' 0 15) }
  | .sgdC, [f] => { s with nSgd := repCount (f.extractLsb' 0 6) }
  | .sgdC, [f, v0] => { s with nSgd := repCount (f.extractLsb' 0 6), b := v0 }
  | .sgdC, [f, v0, v1] => { s with nSgd := repCount (f.extractLsb' 0 6), b := v0, g := v1 }
  | _, _ => s

end Sys2Proof.Machine
end

