-- ==== Sys2Proof/Machine/Flags.lean ====
section
/-! DEFINITION. The block has no condition codes (10_state.md R27): its one flag-like register is `mask`, set by `INV` and
cleared by `XOR0`, `XOR1`, `XOR2`. -/

namespace Sys2Proof.Machine

/-- `mask <- 0xFF` (41_vsp.md R148). -/
def setMask (s : State) : State := { s with mask := maskInverted }

/-- `mask <- 0x00` (R145 to R147). -/
def clearMask (s : State) : State := { s with mask := 0x00 }

end Sys2Proof.Machine
end

