-- ==== Sys2Proof/Machine/HostCommands.lean ====
section
/-! DEFINITION. The two decode commands (44_host_commands.md R209, R211): their checks, in order, and the job-start
state (10_state.md R40 to R42). The job itself is the sequence of stream instructions that follow. -/

namespace Sys2Proof.Machine

/-- A capacity is exceeded (R210): never, when the bound is none. -/
def exceeds (bound : Option Nat) (n : Nat) : Bool :=
  match bound with
  | none => false
  | some m => decide (m < n)

/-- `WIDTH * HEIGHT`, exact (R210). -/
def imageBytes (s : State) : Nat := s.width.toNat * s.height.toNat

/-- The capacity check of `VSP_DECODE` (R210, and for `MAX_IN_BYTES` 93_implementation_defined.md U15; log 10). -/
def vspTooBig (s : State) : Bool :=
  exceeds s.cap.maxRows s.height.toNat || exceeds s.cap.maxOutBytes (imageBytes s) || exceeds s.cap.maxInBytes s.inLen

/-- The capacity check of `SGD_DECODE` (R210, and for `MAX_IN_BYTES` 93_implementation_defined.md U15; log 10). -/
def sgdTooBig (s : State) : Bool := exceeds s.cap.maxOutBytes s.outSize.toNat || exceeds s.cap.maxInBytes s.inLen

/-- The frame check of `SGD_DECODE` (R211), in exact arithmetic: the sum is not reduced modulo 2^32. -/
def frameOk (s : State) : Bool := s.csize.toNat == s.innerLen.toNat + frameExtra

/-- A decode command has begun: `OUT` of an earlier job is valid no longer (R214), and `ip = 0` (10_state.md R22), which
R162 and R227 ask of a job that its checks reject too (log 6). -/
def openJob (s : State) : State := { s with ip := 0, outValid := false }

/-- The job-start state of `VSP_DECODE` (R40, R41). -/
def vspStart (s : State) : State :=
  { s with
    ip := 0, lim := s.inLen, x := 0, plane := 0, y := 0, mask := 0x00, sel := false,
    hb0 := [], hb1 := [], outMem := [], ctx := .vsp }

/-- The job-start state of `SGD_DECODE` (R42). -/
def sgdStart (s : State) : State :=
  { s with ip := 0, lim := s.inLen, phase := .alpha, op := alphaStart, outMem := [], ctx := .hdr }

/-- `VSP_DECODE` (R209) up to the first fetch: the width check, then the capacity check (R235), then the job state. -/
def execVspDecode (s : State) : Answer :=
  if s.width.toNat % vspStripW ≠ 0 then .next (raise .invalidDimensions 0 (openJob s))
  else if vspTooBig s then .next (raise .invalidDimensions 0 (openJob s))
  else .next (vspStart (openJob s))

/-- `SGD_DECODE` (R211) up to the first fetch: the frame check, then the capacity check (R235), then the job state. -/
def execSgdDecode (s : State) : Answer :=
  if frameOk s = false then .next (raise .corruptData 0 (openJob s))
  else if sgdTooBig s then .next (raise .invalidDimensions 0 (openJob s))
  else .next (sgdStart (openJob s))

end Sys2Proof.Machine
end

