-- ==== Sys2Proof/Machine/Prng.lean ====
section
/-! DEFINITION. `U-MT`, the PRNG unit (40_prng.md): seeding, the regeneration, tempering, mixing. -/

namespace Sys2Proof.Machine

/-- One step of the seeding recurrence (R121): `MT[i]` from the new `MT[i-1]`. -/
def seedAt (mt : Vector Word mtN) (i : Nat) : Vector Word mtN :=
  let w := mtAt mt (i - 1)
  mtPut mt i (mtInitMult * (w ^^^ (w >>> mtInitShift)) + BitVec.ofNat 32 i)

/-- The 64 seeded words (R121): `MT[0] <- seed`, then `i` in 1 to 63 in order. -/
def seedWords (seed : Word) (mt : Vector Word mtN) : Vector Word mtN :=
  (List.range' 1 (mtN - 1)).foldl seedAt (mtPut mt 0 seed)

/-- `seed_state(seed)` (R121, R122): the words, and `mti <- 64`. -/
def seedState (seed : Word) (s : State) : State :=
  { s with mt := seedWords seed s.mt, mti := mtSeedCursor }

/-- The word `yy` of the regeneration at index `k` (R124). -/
def twistJoin (mt : Vector Word mtN) (k : Nat) : Word := (mtAt mt k &&& mtUpper) ||| (mtAt mt (k + 1) &&& mtLower)

/-- One step of the regeneration, in place (R124; general knowledge G1). -/
def twistAt (mt : Vector Word mtN) (k : Nat) : Vector Word mtN :=
  let yy := twistJoin mt k
  mtPut mt k (mtAt mt (k + mtM) ^^^ (yy >>> 1) ^^^ (if yy.getLsbD 0 then mtMatrixA else 0))

/-- The regenerated words: `k` in 0 to 63, in this order (R124). -/
def twistWords (mt : Vector Word mtN) : Vector Word mtN := (List.range mtN).foldl twistAt mt

/-- `twist()` (R124). -/
def twist (s : State) : State := { s with mt := twistWords s.mt, mti := 0 }

/-- `temper(y)` (R125): each line uses the `y` the previous line produced. -/
def temper (y : Word) : Word :=
  let y := y ^^^ (y >>> mtTemperShift1)
  let y := y ^^^ ((y <<< mtTemperShift2) &&& mtTemperMask1)
  let y := y ^^^ ((y <<< mtTemperShift3) &&& mtTemperMask2)
  y ^^^ (y >>> mtTemperShift4)

/-- What a draw does before it outputs (R123): nothing below 64; a regeneration from 64 on, after the default seed when
the cursor says uninitialized. -/
def refill (s : State) : State :=
  if s.mti < mtN then s
  else if s.mti = mtUninitialized then twist (seedState mtDefaultSeed s)
  else twist s

/-- The draw itself (R123): the word at the cursor is tempered into `RESULT`, the cursor advances. -/
def draw (s : State) : State := { s with result := temper (mtAt s.mt s.mti), mti := s.mti + 1 }

/-- How many words a mix changes, `min(MIX_LEN div 4, 64)` (R126, R127). -/
def mixCount (s : State) : Nat := min (s.mixLen / mixWordBytes) mtN

/-- One step of a mix (R126). -/
def mixAt (mix : Memory) (mt : Vector Word mtN) (i : Nat) : Vector Word mtN :=
  mtPut mt i (mtAt mt i ^^^ Memory.readWord mix (mixWordBytes * i))

/-- The words after a mix (R126). -/
def mixWords (mix : Memory) (n : Nat) (mt : Vector Word mtN) : Vector Word mtN :=
  (List.range n).foldl (mixAt mix) mt

/-- `PRNG_SEED` (R121). -/
def execPrngSeed (s : State) : Answer := .next (finish (seedState s.seed s))

/-- `PRNG_MIX` (R126): `mti` is not read and not written. -/
def execPrngMix (s : State) : Answer := .next (finish { s with mt := mixWords s.mixMem (mixCount s) s.mt })

/-- `PRNG_NEXT` (R123). -/
def execPrngNext (s : State) : Answer := .next (finish (draw (refill s)))

end Sys2Proof.Machine
end

