-- ==== Sys2Proof/Machine/SgdAlpha.lean ====
section
/-! DEFINITION. The SGD section header and the alpha sub-decoder (42_sgd_alpha.md; the colour section's header is
43_sgd_color.md R186). The section loops are in Machine/Sequence.lean. -/

namespace Sys2Proof.Machine

/-- A section that lies inside the stream: `lim` is its end, `op` its first output byte, and the position becomes its
first instruction (R171, R186). -/
def enterSection (len : Word) (s : State) : State :=
  match s.phase with
  | .alpha => { s with lim := s.ip + len.toNat, op := alphaStart, ctx := .sgdA }
  | .color => { s with lim := s.ip + len.toNat, op := 0, ctx := .sgdC }

/-- `S_LEN L` (30_encoding.md R95): the section must end inside `IN`, else `StreamUnderrun(ip)` (R171, R186, R230).
`ip` stands behind the length. -/
def execSLen (len : Word) (s : State) : Answer :=
  if s.inLen < s.ip + len.toNat then .next (raise .streamUnderrun s.ip s) else .next (enterSection len s)

/-- One alpha slot: `out_write(op, v); op <- op + 4`, with one slot less to go (R173, R174). -/
def alphaSlot (v : Byte) (s : State) : Flow :=
  (outWrite s.op v s).andThen fun t => .cont { t with op := t.op + sgdSlot, nSgd := t.nSgd - 1 }

/-- `repeat n times`: the same alpha byte (R173). -/
def alphaRun (v : Byte) : Nat → State → Flow
  | 0, s => .cont s
  | n + 1, s => (alphaSlot v s).andThen (alphaRun v n)

/-- `repeat n times`: one literal fetched, complemented and written (R174). -/
def alphaLits : Nat → State → Flow
  | 0, s => .cont s
  | n + 1, s =>
    (fetchByte s fun v t => alphaSlot (alphaByte v) { t with a := v }).andThen (alphaLits n)

/-- `A_RLE n, a` (R173). -/
def execARle (cnt : BitVec 15) (v : Byte) (s : State) : Answer :=
  (alphaRun (alphaByte v) (alphaRunCount cnt) { s with nSgd := alphaRunCount cnt, a := v }).answer

/-- `A_LIT a1 ... ak` (R174, R175): `cnt = 0` does nothing. -/
def execALit (cnt : BitVec 15) (s : State) : Answer :=
  (alphaLits cnt.toNat { s with nSgd := cnt.toNat }).answer

end Sys2Proof.Machine
end

