-- ==== Sys2Proof/Machine/SgdColor.lean ====
section
/-! DEFINITION. The colour sub-decoder (43_sgd_color.md): its three run instructions, the illegal flag, and the two
delta words, each an instruction of the context inside a `C_DELTA` run. -/

namespace Sys2Proof.Machine

/-- One colour slot of the registers `b`, `g`, `r`, with one slot less to go. -/
def colorSlot (s : State) : Flow :=
  (put3 s).andThen fun t => .cont { t with nSgd := t.nSgd - 1 }

/-- `repeat n times: put3(b, g, r)` (R191). -/
def colorRun : Nat → State → Flow
  | 0, s => .cont s
  | n + 1, s => (colorSlot s).andThen (colorRun n)

/-- One literal triple: B, G, R are fetched in that order, then written (R194). -/
def literalTriple (s : State) : Flow :=
  fetchByte s fun v s => fetchByte { s with b := v } fun v s => fetchByte { s with g := v } fun v s =>
    colorSlot { s with r := v }

/-- `repeat n times` of a literal triple (R194). -/
def colorLits : Nat → State → Flow
  | 0, s => .cont s
  | n + 1, s => (literalTriple s).andThen (colorLits n)

/-- `C_LIT (b,g,r) ...` (R194): `n = f`, no plus 1; `f = 0x00` does nothing. -/
def execCLit (len : BitVec 6) (s : State) : Answer :=
  (colorLits len.toNat { s with nSgd := len.toNat }).answer

/-- `C_REP n, (b,g,r)` (R191). -/
def execCRep (len : BitVec 6) (vb vg vr : Byte) (s : State) : Answer :=
  (colorRun (repCount len) { s with nSgd := repCount len, b := vb, g := vg, r := vr }).answer

/-- `C_DELTA` (R188) up to its first delta word: without a previous slot `DeltaNoBase` at the flag's offset, else the
base is read once and the position is inside the run. -/
def execCDelta (len : BitVec 6) (s : State) : Answer :=
  if s.op < sgdSlot then .next (raise .deltaNoBase (s.ip - 1) { s with nSgd := len.toNat })
  else if s.outSize.toNat ≤ s.op - sgdSlot + 2 then .fault .noOutputByte
  else .next { loadBase { s with nSgd := len.toNat } with ctx := .sgdD }

/-- The illegal flag (R192): `CorruptData` at the flag's offset. The low bits are not looked at. -/
def execCIllegal (_low : BitVec 6) (s : State) : Answer := .next (raise .corruptData (s.ip - 1) s)

/-- `D_ADD` (R189) as a step of a `C_DELTA` run (R188). -/
def execDAdd (dR dG dB : BitVec 5) (s : State) : Answer :=
  (colorSlot { s with b := addField s.b dB, g := addField s.g dG, r := addField s.r dR }).answer

/-- `D_SM` (R190) as a step of a `C_DELTA` run (R188). -/
def execDSm (sR : Bool) (mR : BitVec 4) (sG : Bool) (mG : BitVec 4) (sB : Bool) (mB : BitVec 4) (s : State) : Answer :=
  (colorSlot { s with b := smField s.b sB mB, g := smField s.g sG mG, r := smField s.r sR mR }).answer

end Sys2Proof.Machine
end

