-- ==== Sys2Proof/Machine/Vsp.lean ====
section
/-! DEFINITION. The nine instructions of `U-VSP` (41_vsp.md section 3). A meaning starts where the instruction's bytes
have been fetched (R141), so `ip` already stands behind them; what follows a plane is in Machine/Sequence.lean. -/

namespace Sys2Proof.Machine

/-- One row of the plane: `cur[y][plane] <- v; y <- y + 1`. -/
def putRow (v : Byte) (s : State) : State :=
  let t := curWrite s.y s.plane.val v s
  { t with y := s.y + 1 }

/-- `repeat n times while y < HEIGHT` (00_scope.md R15, 41_vsp.md R151): `row` gives the byte of the row at `y`. -/
def runRows (row : State → Byte) : Nat → State → State
  | 0, s => s
  | n + 1, s => if s.y < s.height.toNat then runRows row n (putRow (row s) s) else s

/-- The pairs of `FILL2` (R144), which may end between the two rows of a pair. -/
def runPairs (v0 v1 : Byte) : Nat → State → State
  | 0, s => s
  | n + 1, s =>
    if s.y < s.height.toNat then
      let t := putRow v0 s
      if t.y < t.height.toNat then runPairs v0 v1 n (putRow v1 t) else t
    else s

/-- The byte `COPY` writes: the same row and plane of the previous strip (R142). -/
def copyRow (s : State) : Byte := prevRead s.y s.plane.val s

/-- The byte `XORk` writes: the reference plane's byte of the same row, XOR `mask`; read before it is written when
`k = plane` (R145, R262). -/
def xorRow (k : Nat) (s : State) : Byte := curRead s.y k s ^^^ s.mask

/-- The three `XORk` instructions (R145 to R147): the run, then `mask <- 0x00`, always. -/
def xorRun (k : Nat) (cnt : Byte) (s : State) : State :=
  clearMask (runRows (xorRow k) (runCount cnt) { s with nVsp := runCount cnt })

/-- A single row, of an instruction that R153 fetches only when `y < HEIGHT` (log 11). -/
def singleRow (v : Byte) (s : State) : Answer :=
  if s.y < s.height.toNat then .next (putRow v s) else .fault .noHistoryRow

/-- `COPY n` (R142). -/
def execCopy (cnt : Byte) (s : State) : Answer :=
  .next (runRows copyRow (runCount cnt) { s with nVsp := runCount cnt })

/-- `FILL n, b0` (R143). -/
def execFill (cnt v0 : Byte) (s : State) : Answer :=
  .next (runRows (fun _ => v0) (runCount cnt) { s with nVsp := runCount cnt, b0 := v0 })

/-- `FILL2 n, b0, b1` (R144). -/
def execFill2 (cnt v0 v1 : Byte) (s : State) : Answer :=
  .next (runPairs v0 v1 (runCount cnt) { s with nVsp := runCount cnt, b0 := v0, b1 := v1 })

/-- `XOR0 n` (R145). -/
def execXor0 (cnt : Byte) (s : State) : Answer := .next (xorRun 0 cnt s)

/-- `XOR1 n` (R146). -/
def execXor1 (cnt : Byte) (s : State) : Answer := .next (xorRun 1 cnt s)

/-- `XOR2 n` (R147). -/
def execXor2 (cnt : Byte) (s : State) : Answer := .next (xorRun 2 cnt s)

/-- `INV` (R148): it sets, it does not toggle; no row is written. -/
def execInv (s : State) : Answer := .next (setMask s)

/-- `LIT b0` (R149). -/
def execLit (v0 : Byte) (s : State) : Answer := singleRow v0 { s with b0 := v0 }

/-- `RAW c` (R150). -/
def execRaw (c : Byte) (s : State) : Answer := singleRow c s

end Sys2Proof.Machine
end

