-- ==== Sys2Proof/Machine/Dispatch.lean ====
section
/-! DEFINITION. One arm per instruction: its meaning. -/

namespace Sys2Proof.Machine

/-- The meaning of an instruction whose bytes have been fetched. -/
def exec (i : Instr) (s : State) : Host.Outcome State Fault Refusal :=
  match i with
  | .copy cnt => Sys2Proof.Machine.execCopy cnt s
  | .fill cnt b0 => Sys2Proof.Machine.execFill cnt b0 s
  | .fill2 cnt b0 b1 => Sys2Proof.Machine.execFill2 cnt b0 b1 s
  | .xor0 cnt => Sys2Proof.Machine.execXor0 cnt s
  | .xor1 cnt => Sys2Proof.Machine.execXor1 cnt s
  | .xor2 cnt => Sys2Proof.Machine.execXor2 cnt s
  | .inv => Sys2Proof.Machine.execInv s
  | .lit b0 => Sys2Proof.Machine.execLit b0 s
  | .raw c => Sys2Proof.Machine.execRaw c s
  | .sLen len => Sys2Proof.Machine.execSLen len s
  | .aRle cnt a => Sys2Proof.Machine.execARle cnt a s
  | .aLit cnt => Sys2Proof.Machine.execALit cnt s
  | .cLit len => Sys2Proof.Machine.execCLit len s
  | .cRep len b g r => Sys2Proof.Machine.execCRep len b g r s
  | .cDelta len => Sys2Proof.Machine.execCDelta len s
  | .cIllegal low => Sys2Proof.Machine.execCIllegal low s
  | .dAdd dR dG dB => Sys2Proof.Machine.execDAdd dR dG dB s
  | .dSm sR mR sG mG sB mB => Sys2Proof.Machine.execDSm sR mR sG mG sB mB s
  | .prngSeed => Sys2Proof.Machine.execPrngSeed s
  | .prngMix => Sys2Proof.Machine.execPrngMix s
  | .prngNext => Sys2Proof.Machine.execPrngNext s
  | .vspDecode => Sys2Proof.Machine.execVspDecode s
  | .sgdDecode => Sys2Proof.Machine.execSgdDecode s

end Sys2Proof.Machine
end

