-- ==== Sys2Proof/Machine/HostInterface.lean ====
section
/-! DEFINITION. The host's side of the interface (44_host_commands.md R205, R206, R214): what an action other than a write
of `CMD` changes, and what the host can read. -/

namespace Sys2Proof.Machine

/-- The bytes of a load of `IN` from `start` on that lie below `MAX_IN_BYTES`, which "bounds what the host can load"
(decision D27). That the others of the same load are loaded is the model's choice (log 38). -/
def loadable (bound : Option Nat) (start : Nat) (bytes : List Byte) : List Byte :=
  match bound with
  | none => bytes
  | some m => bytes.take (m - start)

/-- A host action that is no command (R33, R205, R214). "All values are legal in every field; a value a job rejects is
rejected by a fault at job start" (R33). -/
def hostWrite (act : HostAction) (s : State) : Answer :=
  match act with
  | .setWidth v => .next { s with width := v }
  | .setHeight v => .next { s with height := v }
  | .setOutSize v => .next { s with outSize := v }
  | .setCsize v => .next { s with csize := v }
  | .setInnerLen v => .next { s with innerLen := v }
  | .setSeed v => .next { s with seed := v }
  | .setInLen n => .next { s with inLen := n }
  | .setMixLen n => .next { s with mixLen := n }
  | .loadIn start bytes =>
    .next { s with inMem := Memory.load s.inMem start (loadable s.cap.maxInBytes start bytes) }
  | .loadMix start bytes => .next { s with mixMem := Memory.load s.mixMem start bytes }
  | .command _ => .next s

/-- What the host can read (R205, R206): no working register, no `HB` cell, no `MT` word. -/
structure HostView where
  status : BitVec 2
  faultCode : Byte
  faultIp : Option Nat
  result : Word
  outLen : Option Nat
  out : Option (List Byte)
deriving DecidableEq, Repr

/-- `FAULT_IP`: "valid only when `STATUS = FAULT`" (10_state.md R32). -/
def readFaultIp (s : State) : Option Nat := if s.status = .fault then some s.faultIp else none

/-- `OUT_LEN`: "the number of valid bytes of `OUT` after a `DONE` decode job" (10_state.md R34). DESIGN CHOICE (log 37):
R214 lists its read only there and R237 calls it invalid after a fault, so the host can read it exactly when it can read
`OUT`, and the model refuses every other read. -/
def readOutLen (s : State) : Option Nat := if s.status = .done ∧ s.outValid = true then some s.outLen else none

/-- `OUT[0 to OUT_LEN-1]`: readable only when `STATUS = DONE`, and valid "only until the next decode command" (R38,
R214, 60_exceptions.md R237; log 15). -/
def readOut (s : State) : Option (List Byte) := (readOutLen s).map (Memory.slice s.outMem 0)

/-- The host's view of a state. When `OUT_LEN` can be read is the model's choice (log 37). -/
def hostView (s : State) : HostView where
  status := s.status.code
  faultCode := s.faultCode
  faultIp := readFaultIp s
  result := s.result
  outLen := readOutLen s
  out := readOut s

end Sys2Proof.Machine
end

