-- ==== Sys2Proof/Machine/Pack.lean ====
section
/-! DEFINITION. The pack step of `U-VSP` (41_vsp.md R154, R155): four plane bytes of a row become eight pixels. It stands
alone, as 93_implementation_defined.md G3 advises, so that its reading can be changed without touching the runs. -/

namespace Sys2Proof.Machine

/-- `rotl8(v, i)` for `i` in 0 to 3 (00_scope.md R10): `v >> 8` is 0, so `rotl8(v, 0) = v`. -/
def rotl8 (v : Byte) (i : Nat) : Byte := (v <<< i) ||| (v >>> (8 - i))

/-- `component[i]` of row `y` (R154): a temporary, `cur` is not modified. -/
def component (y i : Nat) (s : State) : Byte := rotl8 (curRead y i s) i

/-- Bit `i` of a nibble, in place. -/
def nibBit (v : Bool) (i : Nat) : Byte := (if v then (1 : Byte) else 0) <<< i

/-- Bit `i` of the pixel at column `j` of row `y` of the strip: bit `7 - j` of `component[i]` (R155). -/
def pixelBit (y j : Nat) (s : State) (i : Nat) : Byte := nibBit ((component y i s).getLsbD (vspStripW - 1 - j)) i

/-- The pixel at column `j` of row `y` of the strip (R155): one bit for each plane. -/
def pixel (y j : Nat) (s : State) : Byte :=
  (List.range vspPlanes).foldl (fun v i => v ||| pixelBit y j s i) 0

/-- The address of pixel `(X, Y)` in `OUT`, row-major (20_memory.md R62; decision D7). -/
def pixelAddr (xx yy : Nat) (s : State) : Nat := yy * s.width.toNat + xx

/-- One pixel of strip `x` written (R155). -/
def packPixel (y : Nat) (s : State) (j : Nat) : State :=
  { s with outMem := Memory.write s.outMem (pixelAddr (vspStripW * s.x + j) y s) (pixel y j s) }

/-- The eight pixels of a row. -/
def packRow (s : State) (y : Nat) : State := (List.range vspStripW).foldl (packPixel y) s

/-- The pack step of a strip: rows 0 to `HEIGHT - 1` (R154, R155). -/
def vspPack (s : State) : State := (List.range s.height.toNat).foldl packRow s

end Sys2Proof.Machine
end

