-- ==== Sys2Proof/Machine/Sequence.lean ====
section
/-! DEFINITION. What the engine does between two instructions: plane, strip and swap sequencing and the end of a VSP job
(41_vsp.md R152, R153, R157, R158), the section loops and the end of an SGD job (42_sgd_alpha.md R171, 43_sgd_color.md
R186, 44_host_commands.md R211). None of it fetches. -/

namespace Sys2Proof.Machine

/-- `WIDTH / 8`, the number of strips (R140). -/
def strips (s : State) : Nat := s.width.toNat / vspStripW

/-- After the four planes of a strip: pack, swap the buffers' roles (R157), the next strip. -/
def endStrip (s : State) : State :=
  let t := vspPack s
  { t with sel := !t.sel, x := t.x + 1, plane := 0, y := 0 }

/-- A plane is complete: the next plane, or the end of the strip (R152). -/
def endPlane (s : State) : State :=
  if s.plane.val + 1 = vspPlanes then endStrip s else { s with plane := s.plane + 1, y := 0 }

/-- The end of the job (R158, R209). -/
def endVsp (s : State) : State := finishDecode (imageBytes s) s

/-- The strips of an image without rows: every plane is complete at once, nothing is packed, each strip swaps (R152,
R153; log 12). -/
def emptyStrips (s : State) : State :=
  { s with x := strips s, sel := s.sel ^^ decide ((strips s - s.x) % 2 = 1) }

/-- VSP sequencing between instructions: stay while the plane has a row to fill, else end the plane; the job ends when
no strip is left. -/
def vspSequence (s : State) : State :=
  if s.x < strips s then
    if s.height.toNat = 0 then endVsp (emptyStrips s)
    else if s.y < s.height.toNat then s
    else if (endPlane s).x < strips s then endPlane s
    else endVsp (endPlane s)
  else endVsp s

/-- The end of an SGD job (R211). -/
def endSgd (s : State) : State := finishDecode s.outSize.toNat s

/-- `while ip < lim` of a section; at its end `lim <- IN_LEN`, and the alpha section is followed by the colour section's
header, with `phase <- COLOR` (R171, R186). -/
def sectionSequence (s : State) : State :=
  if s.ip < s.lim then s
  else
    match s.phase with
    | .alpha => { s with lim := s.inLen, phase := .color, ctx := .hdr }
    | .color => endSgd { s with lim := s.inLen }

/-- What happens between two instructions, by position. -/
def settle (s : State) : State :=
  match s.ctx with
  | .host => s
  | .vsp => vspSequence s
  | .hdr => s
  | .sgdA => sectionSequence s
  | .sgdC => sectionSequence s
  | .sgdD => if s.nSgd = 0 then sectionSequence { s with ctx := .sgdC } else s

end Sys2Proof.Machine
end

