-- ==== Sys2Proof/Machine/Cycle.lean ====
section
/-! DEFINITION. What one step does around a meaning: the reset event, the host's next action, the fetch and decoding of a
stream instruction, the sequencing after it; and where a word of the opcode table is placed for the next step. -/

namespace Sys2Proof.Machine

/-- The reset event (70_reset_and_hazards.md R255, R256): the reset state, whatever was going on. The capacities are
fixed and the host keeps what it is about to do (log 14). -/
def resetEvent (s : State) : State := { State.reset with cap := s.cap, host := s.host }

/-- The sequencing after a meaning. -/
def settleAnswer (o : Answer) : Answer :=
  match o with
  | .next s => .next (settle s)
  | .fault r => .fault r
  | .refused r => .refused r

/-- Command dispatch (44_host_commands.md R207): `STATUS <- BUSY`, `FAULT_CODE <- 0`, then the command, or
`BadCommand(0)`. -/
def dispatchCommand (code : Byte) (s : State) : Answer :=
  match decode .host [code] with
  | .ok (i, _) => settleAnswer (exec i (beginCommand code s))
  | .error _ => .next (raise .badCommand 0 (beginCommand code s))

/-- A step while the engine is at `CMD`: the host's next action; nothing when it has none. -/
def hostStep (s : State) : Answer :=
  match s.host with
  | [] => .next s
  | .command code :: rest => dispatchCommand code { s with host := rest }
  | act :: rest => hostWrite act { s with host := rest }

/-- `ip` behind an instruction's fixed bytes. -/
def advance (n : Nat) (s : State) : State := { s with ip := s.ip + n }

/-- A step inside a decode job: fetch and decode at `ip` in the context of the position (30_encoding.md R90), run the
meaning, then the sequencing. Bytes that end inside the instruction raise `StreamUnderrun` at the fetch that fails
(00_scope.md R13, 60_exceptions.md R230). -/
def streamStep (s : State) : Answer :=
  match decode s.ctx (fetchWindow s) with
  | .ok (i, _) => settleAnswer (exec i (advance i.size s))
  | .error (.truncated n) =>
    .next (raise .streamUnderrun (s.ip + n) (latchOperands s.ctx ((fetchWindow s).take n) (advance n s)))
  | .error (.badCommand _) => .next (raise .badCommand 0 s)

/-- One step by position. -/
def cycle (s : State) : Answer :=
  match s.ctx with
  | .host => hostStep s
  | .vsp => streamStep s
  | .hdr => streamStep s
  | .sgdA => streamStep s
  | .sgdC => streamStep s
  | .sgdD => streamStep s

/-- How many bytes a placed stream gets from `ip` on: enough for the longest literal run (30_encoding.md R96). -/
def placedBytes : Nat := 65536

/-- A running job whose next fetch is at `ip` in context `ctx`, over a stream that holds `bytes` there (log 2). -/
def placeStream (ctx : Context) (bytes : List Byte) (s : State) : State :=
  { s with
    inMem := Memory.load s.inMem s.ip bytes
    inLen := s.ip + placedBytes
    lim := s.ip + placedBytes
    status := .busy
    faultCode := 0
    ctx := ctx
    resetIn := false }

/-- An image with a row left at `x = 0`, `y = 0`, so that a VSP instruction is fetched (41_vsp.md R153). -/
def placeVsp (s : State) : State := { s with cmd := 0x04, width := 8, height := 1, x := 0, y := 0 }

/-- The SGD phase of a position. -/
def placePhase (ph : Phase) (s : State) : State := { s with cmd := 0x05, phase := ph }

/-- The bits of a row of the opcode table placed where the next step fetches. -/
def placeWord (nbits w : Nat) (s : State) : State :=
  let bs := tableBytes nbits w
  match tableContext nbits w with
  | .host => { s with host := (bs.take 1).map HostAction.command, ctx := .host, resetIn := false }
  | .vsp => placeVsp (placeStream .vsp bs s)
  | .hdr => placePhase s.phase (placeStream .hdr bs s)
  | .sgdA => placePhase .alpha (placeStream .sgdA bs s)
  | .sgdC => placePhase .color (placeStream .sgdC bs s)
  | .sgdD => placePhase .color (placeStream .sgdD bs s)

end Sys2Proof.Machine
end

