-- ==== Sys2Proof/Machine/Step.lean ====
section
/-! DEFINITION. One step of the block: a reset event, a host action, or one stream instruction (log 1, log 2, log 14). -/

namespace Sys2Proof.Machine

/-- One step. -/
def step (s : State) : Host.Outcome State Fault Refusal :=
  if s.resetIn then .next (resetEvent s) else cycle s

/-- `s` with a row of spec/opcode_table.json stored where `step` fetches its next instruction (log 2, log 3). -/
def State.withFetchWord (s : State) (nbits w : Nat) : State := placeWord nbits w s

end Sys2Proof.Machine
end

