-- ==== Sys2Proof/Safety.lean ====
section
/-! DEFINITION. The terms claims use: the invariants of the block's state, what a run of rows or slots has written, what
a decode job leaves alone, and when two states agree on what a job reads. -/

namespace Sys2Proof.Machine

/-! ### Invariants -/

/-- Every byte space has its canonical form. -/
structure State.MemOk (s : State) : Prop where
  inOk : Memory.wf s.inMem
  mixOk : Memory.wf s.mixMem
  outOk : Memory.wf s.outMem
  hb0Ok : Memory.wf s.hb0
  hb1Ok : Memory.wf s.hb1

/-- Between commands `mti` is 1 to 65: 0 "is never visible between commands" (40_prng.md R131). -/
def State.CursorOk (s : State) : Prop := 1 ≤ s.mti ∧ s.mti ≤ 65

/-- "only 0x00 or 0xFF occur" in `mask` (10_state.md R24). -/
def State.MaskOk (s : State) : Prop := s.mask = 0x00 ∨ s.mask = 0xFF

/-- `STATUS` is BUSY exactly inside a job; `FAULT_CODE` is 0x00 exactly when `STATUS` is not FAULT (R32), and is else one
of the codes this block raises (60_exceptions.md R226, R229); inside a job `OUT` holds no result (R214). -/
structure State.StatusOk (s : State) : Prop where
  busy : s.status = .busy ↔ s.ctx ≠ .host
  noCode : s.status ≠ .fault → s.faultCode = 0x00
  code : s.status = .fault →
    s.faultCode = 0x01 ∨ s.faultCode = 0x02 ∨ s.faultCode = 0x10 ∨ s.faultCode = 0x11 ∨ s.faultCode = 0x12 ∨
      s.faultCode = 0x13
  hidden : s.ctx ≠ .host → s.outValid = false

/-- What holds of the cursors at each position of a job: inside a strip and a plane (41_vsp.md R152, R153), or inside
the section of the phase (42_sgd_alpha.md R171, 43_sgd_color.md R186), `op` on its lane (20_memory.md R68), and every slot
below a colour `op` inside `OUT` (43_sgd_color.md R196). -/
def State.JobOk (s : State) : Prop :=
  match s.ctx with
  | .host => True
  | .vsp =>
    s.width.toNat % 8 = 0 ∧ s.x < strips s ∧ s.y < s.height.toNat ∧ s.ip ≤ s.lim ∧ s.lim = s.inLen
  | .hdr => s.ip ≤ s.lim ∧ s.lim = s.inLen
  | .sgdA => s.phase = .alpha ∧ s.ip < s.lim ∧ s.lim ≤ s.inLen ∧ s.op % 4 = 3
  | .sgdC =>
    s.phase = .color ∧ s.ip < s.lim ∧ s.lim ≤ s.inLen ∧ s.op % 4 = 0 ∧ (s.op ≠ 0 → s.op - 2 < s.outSize.toNat)
  | .sgdD =>
    s.phase = .color ∧ s.ip ≤ s.lim ∧ s.lim ≤ s.inLen ∧ s.op % 4 = 0 ∧ 4 ≤ s.op ∧ s.op - 2 < s.outSize.toNat ∧
      0 < s.nSgd

/-- The invariant of the block: every step keeps it, and it holds right after reset. -/
structure State.Inv (s : State) : Prop where
  mem : s.MemOk
  cursor : s.CursorOk
  maskOk : s.MaskOk
  statusOk : s.StatusOk
  job : s.JobOk

/-- Every byte written to `OUT` lies inside the buffer (41_vsp.md R156, 42_sgd_alpha.md R176), and a VSP job writes
nibbles ("high nibble always zero", 41_vsp.md R140). -/
def State.OutOk (s : State) : Prop :=
  match s.ctx with
  | .host => s.outValid = true → ∀ c ∈ s.outMem, c.1 < s.outLen
  | .vsp => ∀ c ∈ s.outMem, c.1 < imageBytes s ∧ c.2.toNat < 16
  | .hdr => ∀ c ∈ s.outMem, c.1 < s.outSize.toNat
  | .sgdA => ∀ c ∈ s.outMem, c.1 < s.outSize.toNat
  | .sgdC => ∀ c ∈ s.outMem, c.1 < s.outSize.toNat
  | .sgdD => ∀ c ∈ s.outMem, c.1 < s.outSize.toNat

/-! ### What a run has written -/

/-- `n` rows at most, from `y` to the end of the column at most, of the current plane have got the bytes `f row`
(41_vsp.md R151); no other cell of either buffer, and no other register than `y`, has changed. -/
structure RowsWritten (s t : State) (n : Nat) (f : Nat → Byte) : Prop where
  cursor : t.y = max s.y (min s.height.toNat (s.y + n))
  frame : t = { s with y := t.y, hb0 := t.hb0, hb1 := t.hb1 }
  cells : ∀ row p, p < 4 →
    curRead row p t = if p = s.plane.val ∧ s.y ≤ row ∧ row < t.y then f row else curRead row p s
  previous : ∀ row p, prevRead row p t = prevRead row p s

/-- Slots `0` to `k - 1` from `op` on have got, in their first `lanes` bytes, the bytes `f slot lane`; `op` stands behind
them, and no other byte of `OUT` has changed (20_memory.md R63). -/
structure SlotsWritten (lanes : Nat) (s t : State) (k : Nat) (f : Nat → Nat → Byte) : Prop where
  cursor : t.op = s.op + 4 * k
  bytes : ∀ a, Memory.read t.outMem a =
    if s.op ≤ a ∧ (a - s.op) % 4 < lanes ∧ (a - s.op) / 4 < k then f ((a - s.op) / 4) ((a - s.op) % 4)
    else Memory.read s.outMem a

/-- How many alpha slots from `op` on lie inside `OUT` (42_sgd_alpha.md R176). -/
def alphaFit (s : State) : Nat := (s.outSize.toNat - s.op + 3) / 4

/-- How many colour slots from `op` on have their triple inside `OUT` (43_sgd_color.md R193). -/
def colorFit (s : State) : Nat := (s.outSize.toNat - (s.op + 2) + 3) / 4

/-- The bytes of the section that are left (00_scope.md R13). -/
def bytesLeft (s : State) : Nat := s.lim - s.ip

/-- A triple's lanes in the order of `OUT`: B, G, R (20_memory.md R63). -/
def laneOf (vb vg vr : Byte) (lane : Nat) : Byte := if lane = 0 then vb else if lane = 1 then vg else vr

/-! ### What a decode job leaves alone -/

/-- The state of `U-MT`, `RESULT`, the parameter registers and the input buffers are the same (10_state.md R44,
20_memory.md R76, 40_prng.md R130). -/
structure SameOutsideJob (s t : State) : Prop where
  mt : t.mt = s.mt
  mti : t.mti = s.mti
  result : t.result = s.result
  width : t.width = s.width
  height : t.height = s.height
  outSize : t.outSize = s.outSize
  csize : t.csize = s.csize
  innerLen : t.innerLen = s.innerLen
  seed : t.seed = s.seed
  inLen : t.inLen = s.inLen
  mixLen : t.mixLen = s.mixLen
  inMem : t.inMem = s.inMem
  mixMem : t.mixMem = s.mixMem
  cap : t.cap = s.cap
  cmd : t.cmd = s.cmd
  host : t.host = s.host
  resetIn : t.resetIn = s.resetIn

/-- Two states agree on what a decode job may read: its parameters, its stream and the capacities (10_state.md R33,
70_reset_and_hazards.md R257). -/
structure SameJobInput (s t : State) : Prop where
  width : t.width = s.width
  height : t.height = s.height
  outSize : t.outSize = s.outSize
  csize : t.csize = s.csize
  innerLen : t.innerLen = s.innerLen
  inLen : t.inLen = s.inLen
  inMem : t.inMem = s.inMem
  cap : t.cap = s.cap

/-- Two states agree on what the host learns of a decode job: `STATUS`, `FAULT_CODE`, `FAULT_IP` after a fault, and
`OUT` with `OUT_LEN` after `DONE` (44_host_commands.md R206). -/
structure SameJobResult (s t : State) : Prop where
  status : t.status = s.status
  faultCode : t.faultCode = s.faultCode
  faultIp : readFaultIp t = readFaultIp s
  outLen : s.status = .done → t.outLen = s.outLen
  out : readOut t = readOut s

/-! ### Running a command -/

/-- Steps until the engine is back at `CMD`, at most `k`: what the host sees of a command is the state this ends in
(44_host_commands.md R208: "The host observes only the state before the command and the state after it"). -/
def runJob : Nat → State → Answer
  | 0, s => .next s
  | k + 1, s =>
    match step s with
    | .next t => if t.ctx = .host then .next t else runJob k t
    | .fault r => .fault r
    | .refused r => .refused r

/-! ### A stream that ends too early -/

/-- `s` after `StreamUnderrun` at offset `n` of the stream (60_exceptions.md R230, R236): `ip` and `FAULT_IP` stand there,
the engine is back at `CMD`, and nothing else has changed. -/
def underrunAt (n : Nat) (s : State) : State :=
  { s with ip := n, status := .fault, faultCode := 0x10, faultIp := n, ctx := .host }

/-! ### Lengths of VSP instructions -/

/-- The number of bytes of a VSP instruction, which "depends only on `c`" (41_vsp.md R141; formats 30_encoding.md R92). -/
def vspLength (c : Byte) : Nat :=
  if c = 0x00 then 2
  else if c = 0x01 then 3
  else if c = 0x02 then 4
  else if c = 0x03 then 2
  else if c = 0x04 then 2
  else if c = 0x05 then 2
  else if c = 0x06 then 1
  else if c = 0x07 then 2
  else 1

end Sys2Proof.Machine
end

