-- ==== Sys2Proof/Certificates/Slice0/Obligations.lean ====
section
/-! DEFINITION. The statements for the provers. Where a statement rests on a choice (of the spec, 92_eei_decisions.md, or
of the model, notes/assumptions/), its docstring names it. -/

open Sys2Proof Sys2Proof.Machine

/-! ### Encoding -/

/-- 30_encoding.md sections 2 to 7: no bit of an encoding is dropped. -/
def Obligations.DecodeOfEncodeIsTheInstruction : Prop :=
  ∀ (i : Instr) (rest : List Byte), i.wellFormed = true → decode i.context (encode i ++ rest) = .ok (i, rest)

/-- 30_encoding.md sections 2 to 7: an instruction's bytes have one reading, and it is well formed. -/
def Obligations.DecodedBytesAreTheEncoding : Prop :=
  ∀ (ctx : Context) (bs : List Byte) (i : Instr) (rest : List Byte), decode ctx bs = .ok (i, rest) →
    i.wellFormed = true ∧ i.context = ctx ∧ bs = encode i ++ rest

/-- R98: the colour flags 0xC0 to 0xFF are the only illegal encoding of a stream, and raise `CorruptData`; a `CMD` value
other than 0x01 to 0x05 raises `BadCommand`. -/
def Obligations.IllegalEncodingsAreExactlyThese : Prop :=
  (∀ (f : Byte) (rest : List Byte), 0xC0 ≤ f.toNat → ∃ low, decode .sgdC (f :: rest) = .ok (.cIllegal low, rest) ∧
    ∀ s : State, ∃ t, exec (.cIllegal low) s = .next t ∧ t.status = .fault ∧ t.faultCode = 0x02) ∧
  (∀ (ctx : Context) (v0 v1 v2 v3 : Byte) (rest : List Byte), ctx ≠ .host →
    ∃ i bs, decode ctx (v0 :: v1 :: v2 :: v3 :: rest) = .ok (i, bs) ∧
      ((∃ low, i = .cIllegal low) ↔ ctx = .sgdC ∧ 0xC0 ≤ v0.toNat)) ∧
  (∀ c : Byte, 1 ≤ c.toNat ∧ c.toNat ≤ 5 → ∃ i, decode .host [c] = .ok (i, [])) ∧
  ∀ (c : Byte) (s : State) (q : List HostAction), ¬(1 ≤ c.toNat ∧ c.toNat ≤ 5) → s.resetIn = false → s.ctx = .host →
    s.host = .command c :: q → ∃ t, step s = .next t ∧ t.status = .fault ∧ t.faultCode = 0x13 ∧ t.faultIp = 0

/-- Words written out from 30_encoding.md, one or more of every context, with every field of each at a value of its own. -/
def Obligations.SampleWordsDecode : Prop :=
  decode .vsp [0x02, 0x07, 0xF0, 0x0F] = .ok (.fill2 0x07 0xF0 0x0F, []) ∧
  decode .vsp [0x07, 0x05] = .ok (.lit 0x05, []) ∧
  decode .vsp [0xA5] = .ok (.raw 0xA5, []) ∧
  decode .hdr [0x0A, 0x01, 0x00, 0x80] = .ok (.sLen 0x8000010A, []) ∧
  decode .sgdA [0x02, 0x81, 0x55] = .ok (.aRle 0x102 0x55, []) ∧
  decode .sgdA [0x03, 0x01] = .ok (.aLit 0x103, []) ∧
  decode .sgdC [0x41, 0x10, 0x80, 0xF8] = .ok (.cRep 1 0x10 0x80 0xF8, []) ∧
  decode .sgdC [0x82] = .ok (.cDelta 2, []) ∧
  decode .sgdD [0x41, 0xFC] = .ok (.dAdd 31 2 1, []) ∧
  decode .sgdD [0x7F, 0x40] = .ok (.dSm true 0 false 3 true 15, []) ∧
  decode .host [0x05] = .ok (.sgdDecode, [])

/-- R64: every multi-byte quantity the engine reads is little-endian: section lengths, alpha flags, delta words, mix
words. VSP streams contain only single-byte quantities: their bytes are taken as they are. -/
def Obligations.MultiByteQuantitiesAreLittleEndian : Prop :=
  (∀ (v0 v1 v2 v3 : Byte) (rest : List Byte), ∃ len, decode .hdr (v0 :: v1 :: v2 :: v3 :: rest) = .ok (.sLen len, rest) ∧
    len.toNat = v0.toNat + 256 * v1.toNat + 65536 * v2.toNat + 16777216 * v3.toNat) ∧
  (∀ (v0 v1 a : Byte) (rest : List Byte), 128 ≤ v1.toNat → ∃ cnt,
    decode .sgdA (v0 :: v1 :: a :: rest) = .ok (.aRle cnt a, rest) ∧ 32768 + cnt.toNat = v0.toNat + 256 * v1.toNat) ∧
  (∀ (v0 v1 : Byte) (rest : List Byte), v1.toNat < 128 → ∃ cnt,
    decode .sgdA (v0 :: v1 :: rest) = .ok (.aLit cnt, rest) ∧ cnt.toNat = v0.toNat + 256 * v1.toNat) ∧
  (∀ (v0 v1 : Byte) (rest : List Byte), 128 ≤ v1.toNat → ∃ dR dG dB,
    decode .sgdD (v0 :: v1 :: rest) = .ok (.dAdd dR dG dB, rest) ∧
    32768 + 1024 * dR.toNat + 32 * dG.toNat + dB.toNat = v0.toNat + 256 * v1.toNat) ∧
  (∀ (v0 v1 : Byte) (rest : List Byte), v1.toNat < 128 → ∃ sR mR sG mG sB mB,
    decode .sgdD (v0 :: v1 :: rest) = .ok (.dSm sR mR sG mG sB mB, rest) ∧
    16384 * sR.toNat + 1024 * mR.toNat + 512 * sG.toNat + 32 * mG.toNat + 16 * sB.toNat + mB.toNat
      = v0.toNat + 256 * v1.toNat) ∧
  ∀ (m : Memory) (a : Nat), (Memory.readWord m a).toNat = (Memory.read m a).toNat + 256 * (Memory.read m (a + 1)).toNat +
    65536 * (Memory.read m (a + 2)).toNat + 16777216 * (Memory.read m (a + 3)).toNat

/-! ### The step -/

/-- A step runs the decoded instruction: inside a job with `ip` behind its fixed bytes, at `CMD` after the dispatch of
R207, each followed by the sequencing `settle` (log 1). -/
def Obligations.StepRunsTheDecodedInstruction : Prop :=
  (∀ (s : State) (i : Instr) (rest : List Byte), s.resetIn = false → s.ctx ≠ .host →
    decode s.ctx (fetchWindow s) = .ok (i, rest) → step s = settleAnswer (exec i { s with ip := s.ip + i.size })) ∧
  ∀ (s : State) (c : Byte) (q : List HostAction) (i : Instr), s.resetIn = false → s.ctx = .host →
    s.host = .command c :: q → decode .host [c] = .ok (i, []) →
    step s = settleAnswer (exec i { s with host := q, cmd := c, status := .busy, faultCode := 0x00 })

/-- R141: a VSP instruction fetches all its bytes, as many as its first byte says and in stream order, before it writes
anything; when they are not all there, nothing is written. -/
def Obligations.VspInstructionsFetchBeforeTheyWrite : Prop :=
  ∀ s : State, s.resetIn = false → s.ctx = .vsp →
    (s.ip + vspLength (Memory.read s.inMem s.ip) ≤ s.lim → ∃ i : Instr, i.wellFormed = true ∧ i.context = .vsp ∧
      encode i = Memory.slice s.inMem s.ip (vspLength (Memory.read s.inMem s.ip)) ∧
      step s = settleAnswer (exec i { s with ip := s.ip + vspLength (Memory.read s.inMem s.ip) })) ∧
    (s.lim < s.ip + vspLength (Memory.read s.inMem s.ip) → ∃ t, step s = .next t ∧ t.status = .fault ∧
      t.faultCode = 0x10 ∧ t.faultIp = max s.ip s.lim ∧ t.ip = t.faultIp ∧ t.hb0 = s.hb0 ∧ t.hb1 = s.hb1 ∧
      t.outMem = s.outMem ∧ t.y = s.y ∧ t.mask = s.mask)

/-- 60_exceptions.md section 1 (decision D9, the spec's own): a fetch past `lim` raises `StreamUnderrun` and consumes
nothing, so `FAULT_IP` is `ip` for a short section length, alpha flag or delta word, the place of the missing literal for
`A_RLE`, and the first missing byte for a VSP instruction, a colour flag and `C_REP`. Nothing else changes but the operand
registers of the bytes that were there: that `FILL2` has set `b0`, `A_RLE` and `C_REP` `n`, `C_REP` `b` and `g`, is the
model's reading (log 8). -/
def Obligations.ShortStreamsRaiseUnderrun : Prop :=
  ∀ s : State, s.resetIn = false →
    (s.ctx = .vsp → s.lim < s.ip + vspLength (Memory.read s.inMem s.ip) →
      step s = .next (underrunAt (max s.ip s.lim) { s with
        b0 := if Memory.read s.inMem s.ip = 0x02 ∧ s.lim = s.ip + 3 then Memory.read s.inMem (s.ip + 2) else s.b0 })) ∧
    (s.ctx = .hdr → s.lim < s.ip + 4 → step s = .next (underrunAt s.ip s)) ∧
    (s.ctx = .sgdA → s.lim < s.ip + 2 → step s = .next (underrunAt s.ip s)) ∧
    (s.ctx = .sgdA → s.lim = s.ip + 2 → 128 ≤ (Memory.read s.inMem (s.ip + 1)).toNat →
      step s = .next (underrunAt (s.ip + 2) { s with
        nSgd := (Memory.read s.inMem s.ip).toNat + 256 * ((Memory.read s.inMem (s.ip + 1)).toNat - 128) + 1 })) ∧
    (s.ctx = .sgdC → s.lim ≤ s.ip → step s = .next (underrunAt s.ip s)) ∧
    (s.ctx = .sgdC → s.ip < s.lim → s.lim < s.ip + 4 → 0x40 ≤ (Memory.read s.inMem s.ip).toNat →
      (Memory.read s.inMem s.ip).toNat < 0x80 → step s = .next (underrunAt s.lim { s with
        nSgd := (Memory.read s.inMem s.ip).toNat - 0x40 + 1
        b := if s.ip + 2 ≤ s.lim then Memory.read s.inMem (s.ip + 1) else s.b
        g := if s.ip + 3 ≤ s.lim then Memory.read s.inMem (s.ip + 2) else s.g })) ∧
    (s.ctx = .sgdD → s.lim < s.ip + 2 → step s = .next (underrunAt s.ip s))

/-! ### Reset and invariants -/

/-- 70_reset_and_hazards.md section 1 and 10_state.md section 8 (decision D21, the spec's own): a reset event at any time
gives the persistent state its reset values and abandons what was running. That it is one step, and that the host's
coming actions survive it, is the model's (log 14). -/
def Obligations.ResetAbandonsEverything : Prop :=
  ∀ s : State, s.resetIn = true → ∃ t, step s = .next t ∧ t.mti = 65 ∧ (∀ i, i < 64 → mtAt t.mt i = 0) ∧
    t.status = .idle ∧ t.faultCode = 0 ∧ t.faultIp = 0 ∧ t.result = 0 ∧ t.cmd = 0 ∧ t.width = 0 ∧ t.height = 0 ∧
    t.outSize = 0 ∧ t.csize = 0 ∧ t.innerLen = 0 ∧ t.seed = 0 ∧ t.inLen = 0 ∧ t.mixLen = 0 ∧ t.ctx = .host ∧
    t.resetIn = false ∧ readOut t = none ∧ t.cap = s.cap ∧ t.host = s.host

/-- The invariant holds right after reset. -/
def Obligations.ResetStateMeetsTheInvariant : Prop := State.reset.Inv ∧ State.reset.OutOk

/-- Every step keeps the invariant: canonical memories, a legal cursor and mask, a status that fits the position and the
fault code (10_state.md R24, R28, R32), cursors inside the strip, plane or section (41_vsp.md section 4, 42_sgd_alpha.md
section 2, 43_sgd_color.md section 2). -/
def Obligations.StepKeepsTheInvariant : Prop := ∀ s t : State, s.Inv → step s = .next t → t.Inv

/-- Every step keeps `OUT` inside its bounds, and inside a VSP job all its bytes nibbles (41_vsp.md sections 1 and 4,
42_sgd_alpha.md section 1). -/
def Obligations.StepKeepsOutInside : Prop := ∀ s t : State, s.Inv → s.OutOk → step s = .next t → t.OutOk

/-- 41_vsp.md section 4 ("No bounds fault exists in `U-VSP`", the spec's derivation) and 43_sgd_color.md section 4: the
model's own faults (log 11) are out of reach, and nothing is refused. -/
def Obligations.NoStopFromTheInvariant : Prop := ∀ s : State, s.Inv → ∃ t, step s = .next t

/-- 70_reset_and_hazards.md section 4 (the spec's derivation): every command terminates, after at most one step for each
byte of the stream that is left, and one more. The bound counts the model's steps, and what a step is is the model's
choice (log 1). -/
def Obligations.EveryCommandTerminates : Prop :=
  (∀ s : State, s.Inv → s.resetIn = false → s.ctx ≠ .host →
    ∃ t, runJob (s.inLen - s.ip + 1) s = .next t ∧ t.ctx = .host ∧ (t.status = .done ∨ t.status = .fault)) ∧
  ∀ (s : State) (c : Byte) (q : List HostAction), s.Inv → s.resetIn = false → s.ctx = .host → s.host = .command c :: q →
    ∃ t, runJob (s.inLen + 2) s = .next t ∧ t.ctx = .host ∧ (t.status = .done ∨ t.status = .fault)

/-- 70_reset_and_hazards.md section 1 (the spec's derivation): the result of a decode job is a function of its parameters
and its stream alone; nothing of an earlier job, of the PRNG or of another register reaches it. -/
def Obligations.DecodeResultDependsOnlyOnItsInput : Prop :=
  ∀ (s s' : State) (c : Byte) (q q' : List HostAction), s.Inv → s'.Inv → s.resetIn = false → s'.resetIn = false →
    s.ctx = .host → s'.ctx = .host → s.host = .command c :: q → s'.host = .command c :: q' → (c = 0x04 ∨ c = 0x05) →
    SameJobInput s s' → ∀ k, 0 < k →
      ∃ t t', runJob k s = .next t ∧ runJob k s' = .next t' ∧ SameJobResult t t'

/-- 40_prng.md section 5, 60_exceptions.md section 1, 20_memory.md section 5: a step of a decode job changes neither the
PRNG state nor `RESULT` nor a parameter nor an input buffer, whether it ends in a fault or not; nor does its start. -/
def Obligations.DecodeJobsLeaveTheRestAlone : Prop :=
  (∀ s t : State, s.resetIn = false → s.ctx ≠ .host → step s = .next t → SameOutsideJob s t) ∧
  (∀ s t : State, exec .vspDecode s = .next t → SameOutsideJob s t) ∧
  ∀ s t : State, exec .sgdDecode s = .next t → SameOutsideJob s t

/-! ### Faults -/

/-- R229: `UnsupportedConfiguration` and `UnsupportedBitDepth` are never raised: a step that ends with one of their codes
in `FAULT_CODE` found it there. -/
def Obligations.ReservedFaultCodesAreNeverRaised : Prop :=
  FaultName.unsupportedConfiguration.code = 0x03 ∧ FaultName.unsupportedBitDepth.code = 0x04 ∧
  ∀ s t : State, step s = .next t → t.faultCode = 0x03 ∨ t.faultCode = 0x04 → s.faultCode = t.faultCode

/-- R228: `CorruptData` is raised by a colour flag with top bits `11b` and by the frame check of `SGD_DECODE`, and by
nothing else; so no VSP or alpha instruction raises it. -/
def Obligations.CorruptDataHasTwoCauses : Prop :=
  (∀ s : State, s.resetIn = false → s.ctx = .sgdC → s.ip < s.lim → 0xC0 ≤ (Memory.read s.inMem s.ip).toNat →
    ∃ t, step s = .next t ∧ t.status = .fault ∧ t.faultCode = 0x02 ∧ t.faultIp = s.ip) ∧
  (∀ (s : State) (q : List HostAction), s.resetIn = false → s.ctx = .host → s.host = .command 0x05 :: q →
    s.csize.toNat ≠ s.innerLen.toNat + 4 →
    ∃ t, step s = .next t ∧ t.status = .fault ∧ t.faultCode = 0x02 ∧ t.faultIp = 0) ∧
  ∀ s t : State, step s = .next t → t.faultCode = 0x02 → s.faultCode ≠ 0x02 → s.resetIn = false ∧
    ((s.ctx = .sgdC ∧ s.ip < s.lim ∧ 0xC0 ≤ (Memory.read s.inMem s.ip).toNat) ∨
      (s.ctx = .host ∧ (∃ q, s.host = .command 0x05 :: q) ∧ s.csize.toNat ≠ s.innerLen.toNat + 4))

/-- R162: a width that is no multiple of 8, 9 for one, fails with `InvalidDimensions` before any byte of the stream is
consumed: `ip = 0` at the fault. -/
def Obligations.BadWidthFailsBeforeAnyFetch : Prop :=
  ∀ (s : State) (q : List HostAction), s.resetIn = false → s.ctx = .host → s.host = .command 0x04 :: q →
    s.width.toNat % 8 ≠ 0 → ∃ t, step s = .next t ∧ t.status = .fault ∧ t.faultCode = 0x01 ∧ t.faultIp = 0 ∧ t.ip = 0 ∧
      t.outMem = s.outMem ∧ t.hb0 = s.hb0 ∧ t.hb1 = s.hb1

/-- 60_exceptions.md section 1 (decision D2, the spec's own): `BadCommand` changes `STATUS`, `FAULT_CODE`, `FAULT_IP`,
and `CMD` by the host's write; the model's queue `host` moves on. -/
def Obligations.BadCommandChangesOnlyTheStatus : Prop :=
  ∀ (s : State) (c : Byte) (q : List HostAction), s.resetIn = false → s.ctx = .host → s.host = .command c :: q →
    c.toNat = 0 ∨ 6 ≤ c.toNat →
    step s = .next { s with host := q, cmd := c, status := .fault, faultCode := 0x13, faultIp := 0 }

/-! ### U-VSP -/

/-- 41_vsp.md section 3, `COPY` (run count: decision D4): rows get the byte of the same row and plane of the previous
buffer, up to the end of the column; nothing else changes but `n`. That `n` keeps the run count is the model's choice
(log 7). -/
def Obligations.CopyRepeatsThePreviousStrip : Prop :=
  ∀ (cnt : Byte) (s : State), s.MemOk → ∃ t, exec (.copy cnt) s = .next t ∧
    RowsWritten { s with nVsp := cnt.toNat + 1 } t (cnt.toNat + 1) fun row => prevRead row s.plane.val s

/-- 41_vsp.md section 3, `FILL` (run count: decision D4). That `n` keeps the run count is the model's choice (log 7). -/
def Obligations.FillRepeatsItsLiteral : Prop :=
  ∀ (cnt v : Byte) (s : State), s.MemOk → ∃ t, exec (.fill cnt v) s = .next t ∧
    RowsWritten { s with nVsp := cnt.toNat + 1, b0 := v } t (cnt.toNat + 1) fun _ => v

/-- 41_vsp.md section 3, `FILL2` (pair count: decision D4): the pattern starts with `b0` whatever the parity of `y`, and
may end between the two rows of a pair. That `n` keeps the pair count is the model's choice (log 7). -/
def Obligations.Fill2AlternatesFromItsFirstLiteral : Prop :=
  ∀ (cnt v0 v1 : Byte) (s : State), s.MemOk → ∃ t, exec (.fill2 cnt v0 v1) s = .next t ∧
    RowsWritten { s with nVsp := cnt.toNat + 1, b0 := v0, b1 := v1 } t (2 * (cnt.toNat + 1)) fun row =>
      if (row - s.y) % 2 = 0 then v0 else v1

/-- 41_vsp.md section 3, `XOR0`, `XOR1`, `XOR2` (run count: decision D4): rows get the reference plane's byte as it was
before the instruction, XOR `mask`, also when the reference plane is the plane written or is still to come (the stale
read: 93_implementation_defined.md U2, the spec's own default, log 31); then `mask` is cleared, always. That `n` keeps the
run count is the model's choice (log 7). -/
def Obligations.XorCopiesTheReferencePlaneAndClearsMask : Prop :=
  ∀ (cnt : Byte) (s : State), s.MemOk → ∀ p ∈ [(0, Instr.xor0 cnt), (1, Instr.xor1 cnt), (2, Instr.xor2 cnt)],
    ∃ t, exec p.2 s = .next { t with mask := 0x00 } ∧
      RowsWritten { s with nVsp := cnt.toNat + 1 } t (cnt.toNat + 1) fun row => curRead row p.1 s ^^^ s.mask

/-- 41_vsp.md section 3, `INV` (scope of `mask`: decision D5): it sets, it does not toggle, and changes nothing else. -/
def Obligations.InvSetsMask : Prop := ∀ s : State, exec .inv s = .next { s with mask := 0xFF }

/-- 41_vsp.md section 3, `LIT`: one row of any value is written; without its literal it raises `StreamUnderrun`. Where
`y >= HEIGHT`, a state the plane loop never fetches it in, the model stops, which is its own choice (log 11). -/
def Obligations.LitWritesOneRow : Prop :=
  (∀ (v : Byte) (s : State), s.MemOk → s.y < s.height.toNat → ∃ t, exec (.lit v) s = .next t ∧ t.y = s.y + 1 ∧
    t.mask = s.mask ∧ RowsWritten { s with b0 := v } t 1 fun _ => v) ∧
  (∀ s : State, s.resetIn = false → s.ctx = .vsp → Memory.read s.inMem s.ip = 0x07 → s.ip < s.lim →
    (s.ip + 2 ≤ s.lim →
      step s = settleAnswer (exec (.lit (Memory.read s.inMem (s.ip + 1))) { s with ip := s.ip + 2 })) ∧
    (s.lim < s.ip + 2 → ∃ t, step s = .next t ∧ t.faultCode = 0x10 ∧ t.status = .fault)) ∧
  ∀ (v : Byte) (s : State), s.height.toNat ≤ s.y → exec (.lit v) s = .fault .noHistoryRow

/-- 41_vsp.md section 3, `RAW`: a first byte of 0x08 to 0xFF is itself the plane byte of one row; only its own fetch can
raise `StreamUnderrun`. Where `y >= HEIGHT`, a state the plane loop never fetches it in, the model stops, which is its own
choice (log 11). -/
def Obligations.RawWritesItselfAsOneRow : Prop :=
  (∀ (c : Byte) (s : State), s.MemOk → s.y < s.height.toNat → ∃ t, exec (.raw c) s = .next t ∧ t.y = s.y + 1 ∧
    t.mask = s.mask ∧ RowsWritten s t 1 fun _ => c) ∧
  (∀ s : State, s.resetIn = false → s.ctx = .vsp → 0x08 ≤ (Memory.read s.inMem s.ip).toNat →
    (s.ip < s.lim → step s = settleAnswer (exec (.raw (Memory.read s.inMem s.ip)) { s with ip := s.ip + 1 })) ∧
    (s.lim ≤ s.ip → ∃ t, step s = .next t ∧ t.faultCode = 0x10 ∧ t.status = .fault)) ∧
  ∀ (c : Byte) (s : State), s.height.toNat ≤ s.y → exec (.raw c) s = .fault .noHistoryRow

/-- 10_state.md section 4 (job-start value: decision D5): `mask` is set to 0xFF by `INV`, cleared by `XOR0`, `XOR1`, `XOR2`,
untouched by every other instruction and by the sequencing between instructions; 0x00 at reset and at the start of a VSP
job. -/
def Obligations.MaskChangesOnlyByInvAndXor : Prop :=
  (∀ s t : State, exec .inv s = .next t → t.mask = 0xFF) ∧
  (∀ (cnt : Byte) (s t : State), exec (.xor0 cnt) s = .next t ∨ exec (.xor1 cnt) s = .next t ∨
    exec (.xor2 cnt) s = .next t → t.mask = 0x00) ∧
  (∀ (i : Instr) (s t : State), i ≠ .inv → (∀ cnt, i ≠ .xor0 cnt ∧ i ≠ .xor1 cnt ∧ i ≠ .xor2 cnt) → i ≠ .vspDecode →
    exec i s = .next t → t.mask = s.mask) ∧
  (∀ s : State, (settle s).mask = s.mask) ∧ State.reset.mask = 0x00 ∧
  ∀ s t : State, exec .vspDecode s = .next t → t.status ≠ .fault → t.mask = 0x00

/-- R10: `rotl8(v, 0) = v`, and bit `k` of `rotl8(v, i)` is bit `(k - i) mod 8` of `v`. -/
def Obligations.RotateMovesBitsWithinTheByte : Prop :=
  ∀ (v : Byte) (i k : Nat), i ≤ 3 → k < 8 →
    rotl8 v 0 = v ∧ (rotl8 v i).getLsbD k = v.getLsbD ((k + 8 - i) % 8)

/-- 41_vsp.md section 4, pack (the literal reading: decision D31; row-major: D7): bit `i` of pixel `(8x + j, y)` is bit
`(7 - j - i) mod 8` of `cur[y][i]`, the high nibble is 0, no other byte of `OUT` and nothing else changes. -/
def Obligations.PackTransposesPlanesToPixels : Prop :=
  ∀ s : State, s.MemOk → s.x < strips s →
    vspPack s = { s with outMem := (vspPack s).outMem } ∧
    (∀ y j, y < s.height.toNat → j < 8 →
      (∀ i, i < 4 → (Memory.read (vspPack s).outMem (y * s.width.toNat + 8 * s.x + j)).getLsbD i
        = (curRead y i s).getLsbD ((15 - j - i) % 8)) ∧
      (Memory.read (vspPack s).outMem (y * s.width.toNat + 8 * s.x + j)).toNat < 16) ∧
    ∀ a, (∀ y j, y < s.height.toNat → j < 8 → a ≠ y * s.width.toNat + 8 * s.x + j) →
      Memory.read (vspPack s).outMem a = Memory.read s.outMem a

/-- 41_vsp.md section 4, swap: it flips `sel` and copies no cell: the strip just decoded becomes the previous buffer, and the current
buffer is the one that was previous, with what it held; it follows every strip, the last one too. -/
def Obligations.SwapRelabelsTheBuffers : Prop :=
  ∀ s : State, s.plane = 3 → ∃ t, endPlane s = t ∧ t.x = s.x + 1 ∧ t.sel = !s.sel ∧ t.hb0 = s.hb0 ∧ t.hb1 = s.hb1 ∧
    ∀ row p, prevRead row p t = curRead row p s ∧ curRead row p t = prevRead row p s

/-- 41_vsp.md section 4 (loop form: decision D8): a plane that is not full stays; a full plane is followed by the next; a
full plane 3 ends the strip; the last strip ends the job with `OUT_LEN = WIDTH * HEIGHT`. (Values of `x`, `plane`, `y`
after a job: log 13.) -/
def Obligations.PlanesAndStripsFollowInOrder : Prop :=
  ∀ s : State, s.ctx = .vsp → s.x < strips s → 0 < s.height.toNat →
    (s.y < s.height.toNat → settle s = s) ∧
    (s.height.toNat ≤ s.y → s.plane ≠ 3 → settle s = { s with plane := s.plane + 1, y := 0 }) ∧
    (s.height.toNat ≤ s.y → s.plane = 3 → s.x + 1 < strips s →
      settle s = { vspPack s with sel := !s.sel, x := s.x + 1, plane := 0, y := 0 }) ∧
    (s.height.toNat ≤ s.y → s.plane = 3 → s.x + 1 = strips s →
      settle s = { vspPack s with
        sel := !s.sel, x := s.x + 1, plane := 0, y := 0, outLen := s.width.toNat * s.height.toNat, outValid := true,
        status := .done, ctx := .host })

/-- 41_vsp.md section 1: a VSP job that ends `DONE` gives the host exactly `WIDTH * HEIGHT` bytes, each a 4-bit index. -/
def Obligations.FinishedVspJobGivesNibbles : Prop :=
  ∀ s t : State, s.Inv → s.OutOk → s.resetIn = false → s.ctx = .vsp → step s = .next t → t.status = .done →
    ∃ l, readOut t = some l ∧ l.length = s.width.toNat * s.height.toNat ∧ ∀ v ∈ l, v.toNat < 16

/-! ### U-SGD -/

/-- 42_sgd_alpha.md section 2 and 43_sgd_color.md section 2 (32-bit length: decision D11; the check: D12). -/
def Obligations.SectionMustEndInsideTheStream : Prop :=
  ∀ (len : Word) (s : State),
    (s.inLen < s.ip + len.toNat → exec (.sLen len) s =
      .next { s with faultCode := 0x10, faultIp := s.ip, status := .fault, ctx := .host }) ∧
    (s.ip + len.toNat ≤ s.inLen → s.phase = .alpha → exec (.sLen len) s =
      .next { s with lim := s.ip + len.toNat, op := 3, ctx := .sgdA }) ∧
    (s.ip + len.toNat ≤ s.inLen → s.phase = .color → exec (.sLen len) s =
      .next { s with lim := s.ip + len.toNat, op := 0, ctx := .sgdC })

/-- 42_sgd_alpha.md section 3, `A_RLE` (bounds check: decision D13): `n` slots get the complement of the literal; when
they do not all fit, those that do are written and `OutputOverrun` is raised. That `n` counts down is the model's choice
(log 7). -/
def Obligations.ARleWritesComplementedRun : Prop :=
  ∀ (cnt : BitVec 15) (v : Byte) (s : State), s.MemOk → ∃ t : State,
    SlotsWritten 1 s t (min (cnt.toNat + 1) (alphaFit s)) (fun _ _ => ~~~v) ∧
    t = { s with outMem := t.outMem, op := t.op, a := v, nSgd := cnt.toNat + 1 - min (cnt.toNat + 1) (alphaFit s) } ∧
    (cnt.toNat + 1 ≤ alphaFit s → exec (.aRle cnt v) s = .next t) ∧
    (alphaFit s < cnt.toNat + 1 → exec (.aRle cnt v) s =
      .next { t with faultCode := 0x11, faultIp := s.ip, status := .fault, ctx := .host })

/-- 42_sgd_alpha.md section 3, `A_LIT` (short runs: decision D35; bounds check: D13): literals are fetched and written in
turn, each complemented; the first that is missing raises `StreamUnderrun`, the first without a place `OutputOverrun`
after its fetch; the slots before it are written. `cnt = 0` does nothing. That `n` counts down is the model's
choice (log 7). -/
def Obligations.ALitWritesComplementedLiterals : Prop :=
  ∀ (cnt : BitVec 15) (s : State) (m : Nat), s.MemOk → m = min cnt.toNat (min (bytesLeft s) (alphaFit s)) → ∃ t : State,
    SlotsWritten 1 s t m (fun k _ => ~~~(Memory.read s.inMem (s.ip + k))) ∧
    t = { s with outMem := t.outMem, op := t.op, ip := s.ip + m, a := t.a, nSgd := cnt.toNat - m } ∧
    (t.a = if m = 0 then s.a else Memory.read s.inMem (s.ip + m - 1)) ∧
    (m = cnt.toNat → exec (.aLit cnt) s = .next t) ∧
    (m < cnt.toNat → bytesLeft s ≤ alphaFit s → exec (.aLit cnt) s =
      .next { t with faultCode := 0x10, faultIp := s.ip + m, status := .fault, ctx := .host }) ∧
    (m < cnt.toNat → alphaFit s < bytesLeft s → exec (.aLit cnt) s =
      .next { t with
        ip := s.ip + m + 1, a := Memory.read s.inMem (s.ip + m), faultCode := 0x11, faultIp := s.ip + m + 1,
        status := .fault, ctx := .host })

/-- 43_sgd_color.md section 3, `C_LIT` (bounds check: decision D13; missing bytes: D9): triples are copied in the order
B, G, R, each fetched whole before it is written, alpha bytes untouched; the first that is not all there raises
`StreamUnderrun` at the section's end, the first without a place `OutputOverrun` after its fetch. `b`, `g`, `r` hold the
last triple fetched, and of one that is not all there the bytes that were (log 8). That `n` counts down is the model's
choice (log 7). -/
def Obligations.CLitCopiesTriples : Prop :=
  ∀ (len : BitVec 6) (s : State) (m : Nat), s.MemOk → m = min len.toNat (min (bytesLeft s / 3) (colorFit s)) →
    ∃ t : State,
    SlotsWritten 3 s t m (fun k lane => Memory.read s.inMem (s.ip + 3 * k + lane)) ∧
    t = { s with
      outMem := t.outMem, op := t.op, ip := s.ip + 3 * m, nSgd := len.toNat - m,
      b := if m = 0 then s.b else Memory.read s.inMem (s.ip + 3 * m - 3),
      g := if m = 0 then s.g else Memory.read s.inMem (s.ip + 3 * m - 2),
      r := if m = 0 then s.r else Memory.read s.inMem (s.ip + 3 * m - 1) } ∧
    (m = len.toNat → exec (.cLit len) s = .next t) ∧
    (m < len.toNat → bytesLeft s / 3 ≤ colorFit s → exec (.cLit len) s = .next { t with
      ip := s.ip + bytesLeft s,
      b := if bytesLeft s % 3 = 0 then t.b else Memory.read s.inMem (s.ip + 3 * m),
      g := if bytesLeft s % 3 = 2 then Memory.read s.inMem (s.ip + 3 * m + 1) else t.g,
      faultCode := 0x10, faultIp := s.ip + bytesLeft s, status := .fault, ctx := .host }) ∧
    (m < len.toNat → colorFit s < bytesLeft s / 3 → exec (.cLit len) s = .next { t with
      ip := s.ip + 3 * m + 3, b := Memory.read s.inMem (s.ip + 3 * m), g := Memory.read s.inMem (s.ip + 3 * m + 1),
      r := Memory.read s.inMem (s.ip + 3 * m + 2), faultCode := 0x11, faultIp := s.ip + 3 * m + 3,
      status := .fault, ctx := .host })

/-- 43_sgd_color.md section 3, `C_REP` (bounds check: decision D13). That `n` counts down is the model's choice
(log 7). -/
def Obligations.CRepRepeatsItsTriple : Prop :=
  ∀ (len : BitVec 6) (vb vg vr : Byte) (s : State), s.MemOk → ∃ t : State,
    SlotsWritten 3 s t (min (len.toNat + 1) (colorFit s)) (fun _ lane => laneOf vb vg vr lane) ∧
    t = { s with
      outMem := t.outMem, op := t.op, b := vb, g := vg, r := vr,
      nSgd := len.toNat + 1 - min (len.toNat + 1) (colorFit s) } ∧
    (len.toNat + 1 ≤ colorFit s → exec (.cRep len vb vg vr) s = .next t) ∧
    (colorFit s < len.toNat + 1 → exec (.cRep len vb vg vr) s =
      .next { t with faultCode := 0x11, faultIp := s.ip, status := .fault, ctx := .host })

/-- 43_sgd_color.md section 3, `C_DELTA` up to its first delta word (no previous slot: decision D16, the spec's own): the
base is the colour of the slot before `op`; nothing is written. A base outside `OUT`, which no run reaches, stops the
model (log 11). -/
def Obligations.CDeltaStartsFromThePreviousSlot : Prop :=
  ∀ (len : BitVec 6) (s : State),
    (s.op < 4 → exec (.cDelta len) s = .next { s with
      nSgd := len.toNat, faultCode := 0x12, faultIp := s.ip - 1, status := .fault, ctx := .host }) ∧
    (4 ≤ s.op → s.op - 2 < s.outSize.toNat → exec (.cDelta len) s = .next { s with
      nSgd := len.toNat, b := Memory.read s.outMem (s.op - 4), g := Memory.read s.outMem (s.op - 3),
      r := Memory.read s.outMem (s.op - 2), ctx := .sgdD }) ∧
    (4 ≤ s.op → s.outSize.toNat ≤ s.op - 2 → exec (.cDelta len) s = .fault .noOutputByte)

/-- 43_sgd_color.md section 3, `D_ADD` (bounds check: decision D13, the spec's own; log 30): the three 5-bit fields are
added to the channels modulo 256, with no sign; the step writes the new triple at `op`, and raises `OutputOverrun` when it
does not fit. That `n` counts down is the model's choice (log 7). -/
def Obligations.DAddAddsModulo256 : Prop :=
  ∀ (dR dG dB : BitVec 5) (s : State), s.MemOk → ∃ vb vg vr : Byte,
    vb.toNat = (s.b.toNat + dB.toNat) % 256 ∧ vg.toNat = (s.g.toNat + dG.toNat) % 256 ∧
    vr.toNat = (s.r.toNat + dR.toNat) % 256 ∧
    (s.op + 2 < s.outSize.toNat → ∃ t, exec (.dAdd dR dG dB) s = .next t ∧
      t = { s with b := vb, g := vg, r := vr, op := s.op + 4, nSgd := s.nSgd - 1, outMem := t.outMem } ∧
      SlotsWritten 3 s t 1 fun _ lane => laneOf vb vg vr lane) ∧
    (s.outSize.toNat ≤ s.op + 2 → exec (.dAdd dR dG dB) s = .next { s with
      b := vb, g := vg, r := vr, faultCode := 0x11, faultIp := s.ip, status := .fault, ctx := .host })

/-- 43_sgd_color.md section 3, `D_SM` (sign 1 subtracts: decision D15; bounds check: D13, the spec's own, log 25 and log 30):
magnitudes are added or subtracted modulo 256. That `n` counts down is the model's choice (log 7). -/
def Obligations.DSmMovesBySignAndMagnitude : Prop :=
  ∀ (sR : Bool) (mR : BitVec 4) (sG : Bool) (mG : BitVec 4) (sB : Bool) (mB : BitVec 4) (s : State), s.MemOk →
    ∃ vb vg vr : Byte,
    vb.toNat = (if sB then s.b.toNat + 256 - mB.toNat else s.b.toNat + mB.toNat) % 256 ∧
    vg.toNat = (if sG then s.g.toNat + 256 - mG.toNat else s.g.toNat + mG.toNat) % 256 ∧
    vr.toNat = (if sR then s.r.toNat + 256 - mR.toNat else s.r.toNat + mR.toNat) % 256 ∧
    (s.op + 2 < s.outSize.toNat → ∃ t, exec (.dSm sR mR sG mG sB mB) s = .next t ∧
      t = { s with b := vb, g := vg, r := vr, op := s.op + 4, nSgd := s.nSgd - 1, outMem := t.outMem } ∧
      SlotsWritten 3 s t 1 fun _ lane => laneOf vb vg vr lane) ∧
    (s.outSize.toNat ≤ s.op + 2 → exec (.dSm sR mR sG mG sB mB) s = .next { s with
      b := vb, g := vg, r := vr, faultCode := 0x11, faultIp := s.ip, status := .fault, ctx := .host })

/-- R192: a colour flag 0xC0 to 0xFF raises `CorruptData` at its offset; the flag byte has been consumed, nothing else is
fetched and nothing is written. -/
def Obligations.IllegalFlagAbortsWithNothingWritten : Prop :=
  (∀ s : State, s.resetIn = false → s.ctx = .sgdC → s.ip < s.lim → 0xC0 ≤ (Memory.read s.inMem s.ip).toNat →
    step s = .next { s with
      ip := s.ip + 1, faultCode := 0x02, faultIp := s.ip, status := .fault, ctx := .host }) ∧
  ∀ (low : BitVec 6) (s : State), exec (.cIllegal low) s =
    .next { s with faultCode := 0x02, faultIp := s.ip - 1, status := .fault, ctx := .host }

/-- 42_sgd_alpha.md section 3 and 43_sgd_color.md section 4 (the spec's derivation): a step of the alpha section writes
only offsets 3 modulo 4, a step of the colour section only the others. -/
def Obligations.SubDecodersWriteDisjointLanes : Prop :=
  ∀ s t : State, s.Inv → s.resetIn = false → step s = .next t →
    (s.ctx = .sgdA → ∀ a, a % 4 ≠ 3 → Memory.read t.outMem a = Memory.read s.outMem a) ∧
    (s.ctx = .sgdC ∨ s.ctx = .sgdD → ∀ a, a % 4 = 3 → Memory.read t.outMem a = Memory.read s.outMem a)

/-- 42_sgd_alpha.md section 2, 43_sgd_color.md sections 2 and 3: a section goes on while bytes are left, the alpha section
is followed by the colour header, the colour section ends the job with `OUT_LEN = OUT_SIZE`; a delta run goes on while
words are left and falls back to its section. -/
def Obligations.SectionsFollowInOrder : Prop :=
  (∀ s : State, s.ctx = .sgdA ∨ s.ctx = .sgdC → s.ip < s.lim → settle s = s) ∧
  (∀ s : State, s.ctx = .sgdA → s.phase = .alpha → s.lim ≤ s.ip →
    settle s = { s with lim := s.inLen, phase := .color, ctx := .hdr }) ∧
  (∀ s : State, s.ctx = .sgdC → s.phase = .color → s.lim ≤ s.ip →
    settle s = { s with
      lim := s.inLen, outLen := s.outSize.toNat, outValid := true, status := .done, ctx := .host }) ∧
  (∀ s : State, s.ctx = .sgdD → 0 < s.nSgd → settle s = s) ∧
  ∀ s : State, s.ctx = .sgdD → s.nSgd = 0 → settle s = settle { s with ctx := .sgdC }

/-! ### U-MT -/

/-- 40_prng.md section 2 (`mti = 64`: decision D18, the spec's own): the seeding recurrence, each word from the new word
before it; everything the words held before is gone. -/
def Obligations.SeedFollowsItsRecurrence : Prop :=
  ∀ s : State, ∃ t, exec .prngSeed s = .next t ∧ t = { s with mt := t.mt, mti := 64, status := .done, ctx := .host } ∧
    mtAt t.mt 0 = s.seed ∧
    ∀ i, 1 ≤ i → i < 64 → (mtAt t.mt i).toNat
      = (1712438297 * (mtAt t.mt (i - 1) ^^^ (mtAt t.mt (i - 1) >>> 30)).toNat + i) % 2 ^ 32

/-- 40_prng.md section 3, `PRNG_NEXT`: below 64 the word at the cursor is tempered and the words stay; at 64 the words are
regenerated first, and at 65 seeded with 5489 before that; the draw then takes word 0. -/
def Obligations.NextTempersTheWordAtTheCursor : Prop :=
  ∀ s : State,
    (s.mti < 64 → exec .prngNext s = .next { s with
      result := temper (mtAt s.mt s.mti), mti := s.mti + 1, status := .done, ctx := .host }) ∧
    (s.mti = 64 → exec .prngNext s = .next { s with
      mt := twistWords s.mt, result := temper (mtAt (twistWords s.mt) 0), mti := 1, status := .done, ctx := .host }) ∧
    (s.mti = 65 → exec .prngNext s = .next { s with
      mt := twistWords (seedWords 5489 s.mt), result := temper (mtAt (twistWords (seedWords 5489 s.mt)) 0), mti := 1,
      status := .done, ctx := .host })

/-- 40_prng.md section 3, `twist` (the recurrence: decision D19, general knowledge G1, not in the source): the new word
`k` comes from old words, but for those the pass has already replaced. -/
def Obligations.TwistFollowsItsRecurrence : Prop :=
  ∀ (mt : Vector Word 64) (k : Nat), k < 64 → ∀ yy : Word,
    yy = (mtAt mt k &&& 0x80000000) ||| (mtAt (if k < 63 then mt else twistWords mt) (k + 1) &&& 0x7FFFFFFF) →
    mtAt (twistWords mt) k = mtAt (if k + 39 < 64 then mt else twistWords mt) (k + 39) ^^^ (yy >>> 1) ^^^
      (if yy.getLsbD 0 then 0x9908B0DF else 0)

/-- R125: tempering, line by line, and the rule's five examples. -/
def Obligations.TemperAppliesFourLines : Prop :=
  (∀ y y1 y2 y3 : Word, y1 = y ^^^ (y >>> 11) → y2 = y1 ^^^ ((y1 <<< 7) &&& 0x9C4F88E3) →
    y3 = y2 ^^^ ((y2 <<< 15) &&& 0xE7F70000) → temper y = y3 ^^^ (y3 >>> 18)) ∧
  temper 0x00000000 = 0x00000000 ∧ temper 0x00000001 = 0x00400091 ∧ temper 0x80000000 = 0x88102204 ∧
  temper 0xFFFFFFFF = 0x6FE01BF8 ∧ temper 0x85C0AC99 = 0x0F9C176B

/-- R126: the first `min(MIX_LEN div 4, 64)` words are XORed with the little-endian words of `MIX`, the others and `mti`
are unchanged. (What becomes of a trailing part of a word is decision D20.) -/
def Obligations.MixXorsWholeWords : Prop :=
  ∀ s : State, ∃ t, exec .prngMix s = .next t ∧ t = { s with mt := t.mt, status := .done, ctx := .host } ∧
    ∀ i, i < 64 → mtAt t.mt i = if i < min (s.mixLen / 4) 64 then
      mtAt s.mt i ^^^ (Memory.read s.mixMem (4 * i + 3) ++ Memory.read s.mixMem (4 * i + 2) ++
        Memory.read s.mixMem (4 * i + 1) ++ Memory.read s.mixMem (4 * i)) else mtAt s.mt i

/-- 40_prng.md section 4 (the spec's derivation): mixing the same buffer twice restores the words. -/
def Obligations.MixingTwiceRestores : Prop :=
  ∀ s t : State, exec .prngMix s = .next t → ∃ u, exec .prngMix t = .next u ∧ u.mt = s.mt ∧ u.mti = s.mti

/-- 40_prng.md section 5 (the spec's derivation): while `mti = 65` the words, and so any mix, have no effect on a draw,
which is that of `PRNG_SEED 5489` followed by `PRNG_NEXT`. -/
def Obligations.UnseededWordsAreInvisible : Prop :=
  ∀ s s' v : State, s.mti = 65 → s'.mti = 65 → exec .prngSeed { s with seed := 5489 } = .next v →
    ∃ t t' u, exec .prngNext s = .next t ∧ exec .prngNext s' = .next t' ∧ exec .prngNext v = .next u ∧
      t.mt = t'.mt ∧ t.mti = t'.mti ∧ t.result = t'.result ∧ t.mt = u.mt ∧ t.mti = u.mti ∧ t.result = u.result

/-- 40_prng.md section 5 (the spec's derivation): the complete list of the cursor's transitions. -/
def Obligations.CursorTransitionsAreComplete : Prop :=
  State.reset.mti = 65 ∧
  (∀ s t : State, exec .prngSeed s = .next t → t.mti = 64) ∧
  (∀ s t : State, exec .prngNext s = .next t → s.mti ≤ 65 → t.mti = if s.mti < 64 then s.mti + 1 else 1) ∧
  (∀ (i : Instr) (s t : State), i ≠ .prngSeed → i ≠ .prngNext → exec i s = .next t → t.mti = s.mti) ∧
  ∀ s : State, (settle s).mti = s.mti

/-! ### The decode commands and the host -/

/-- 44_host_commands.md section 2 and 10_state.md section 8 (job-start values: decisions D5, D6, D14; capacities: D27, and
that a stream past `MAX_IN_BYTES` raises like the two others: log 10; `ip = 0` before the checks: log 6): the checks in
order, the job-start state, and an image without pixels, which ends at once. A capacity that is none bounds nothing. -/
def Obligations.VspDecodeStartsAFreshJob : Prop :=
  ∀ s : State, s.width.toNat % 8 = 0 →
    ((∃ m, s.cap.maxRows = some m ∧ m < s.height.toNat) ∨
      (∃ m, s.cap.maxOutBytes = some m ∧ m < s.width.toNat * s.height.toNat) ∨
      (∃ m, s.cap.maxInBytes = some m ∧ m < s.inLen) → exec .vspDecode s = .next { s with
        ip := 0, outValid := false, faultCode := 0x01, faultIp := 0, status := .fault, ctx := .host }) ∧
    ((∀ m, s.cap.maxRows = some m → s.height.toNat ≤ m) →
      (∀ m, s.cap.maxOutBytes = some m → s.width.toNat * s.height.toNat ≤ m) →
      (∀ m, s.cap.maxInBytes = some m → s.inLen ≤ m) →
      ∃ t, exec .vspDecode s = .next t ∧ t = { s with
        ip := 0, outValid := false, lim := s.inLen, x := 0, plane := 0, y := 0, mask := 0x00, sel := false, hb0 := [],
        hb1 := [], outMem := [], ctx := .vsp } ∧
      (s.width = 0 ∨ s.height = 0 → ∃ u, settle t = u ∧ u.status = .done ∧ u.ip = 0 ∧ u.outLen = 0 ∧
        readOut u = some []))

/-- 44_host_commands.md section 3 and 10_state.md section 8 (the check and its exact sum: decision D17; job-start values:
D14; capacity: D27, and that a stream past `MAX_IN_BYTES` raises too: log 10; `ip = 0` before the checks: log 6). A
capacity that is none bounds nothing. -/
def Obligations.SgdDecodeChecksItsFrame : Prop :=
  ∀ s : State,
    (s.csize.toNat ≠ s.innerLen.toNat + 4 → exec .sgdDecode s = .next { s with
      ip := 0, outValid := false, faultCode := 0x02, faultIp := 0, status := .fault, ctx := .host }) ∧
    (s.csize.toNat = s.innerLen.toNat + 4 →
      (∃ m, s.cap.maxOutBytes = some m ∧ m < s.outSize.toNat) ∨ (∃ m, s.cap.maxInBytes = some m ∧ m < s.inLen) →
      exec .sgdDecode s = .next { s with
        ip := 0, outValid := false, faultCode := 0x01, faultIp := 0, status := .fault, ctx := .host }) ∧
    (s.csize.toNat = s.innerLen.toNat + 4 → (∀ m, s.cap.maxOutBytes = some m → s.outSize.toNat ≤ m) →
      (∀ m, s.cap.maxInBytes = some m → s.inLen ≤ m) → exec .sgdDecode s = .next { s with
        ip := 0, outValid := false, lim := s.inLen, phase := .alpha, op := 3, outMem := [], ctx := .hdr })

/-- 44_host_commands.md section 4 (decision D28) and 60_exceptions.md section 1 (D22): the host can read `OUT` when
`STATUS` is DONE and the job's result is still valid, and in no other state, and `FAULT_IP` when `STATUS` is FAULT and in
no other; so it reads neither inside a job, and after a fault only `FAULT_IP`. That `OUT_LEN` is readable exactly when
`OUT` is, is the model's choice (log 37). -/
def Obligations.OutIsHiddenUntilDone : Prop :=
  (∀ s : State, s.status ≠ .done ∨ s.outValid = false → (hostView s).out = none ∧ (hostView s).outLen = none) ∧
  (∀ s : State, s.status = .done → s.outValid = true →
    (hostView s).out = some (Memory.slice s.outMem 0 s.outLen) ∧ (hostView s).outLen = some s.outLen) ∧
  (∀ s : State, s.status ≠ .fault → (hostView s).faultIp = none) ∧
  (∀ s : State, s.Inv → s.ctx ≠ .host → (hostView s).status = 1 ∧ (hostView s).out = none ∧
    (hostView s).outLen = none ∧ (hostView s).faultIp = none) ∧
  ∀ s t : State, step s = .next t → t.status = .fault → (hostView t).out = none ∧ (hostView t).outLen = none ∧
    (hostView t).faultIp = some t.faultIp

/-- 10_state.md section 6 and 44_host_commands.md section 4: a host write changes its own register or buffer and starts
nothing, whatever its value; of a load of `IN` the bytes at and past `MAX_IN_BYTES`, where it is a bound, are not loaded
(decision D27; that the others are, is the model's choice, log 38); with nothing to do the block stays as it is. -/
def Obligations.HostWritesOneRegister : Prop :=
  ∀ (s : State) (q : List HostAction), s.resetIn = false → s.ctx = .host →
    (s.host = [] → step s = .next s) ∧
    (∀ v, s.host = .setWidth v :: q → step s = .next { s with host := q, width := v }) ∧
    (∀ v, s.host = .setHeight v :: q → step s = .next { s with host := q, height := v }) ∧
    (∀ v, s.host = .setOutSize v :: q → step s = .next { s with host := q, outSize := v }) ∧
    (∀ v, s.host = .setCsize v :: q → step s = .next { s with host := q, csize := v }) ∧
    (∀ v, s.host = .setInnerLen v :: q → step s = .next { s with host := q, innerLen := v }) ∧
    (∀ v, s.host = .setSeed v :: q → step s = .next { s with host := q, seed := v }) ∧
    (∀ n, s.host = .setMixLen n :: q → step s = .next { s with host := q, mixLen := n }) ∧
    (∀ n, s.host = .setInLen n :: q → step s = .next { s with host := q, inLen := n }) ∧
    (∀ a bs, s.host = .loadIn a bs :: q → s.MemOk → ∃ t,
      step s = .next t ∧ t = { s with host := q, inMem := t.inMem } ∧ ∀ k,
        (a ≤ k → k < a + bs.length → (∀ m, s.cap.maxInBytes = some m → k < m) →
          Memory.read t.inMem k = bs.getD (k - a) 0) ∧
        (k < a ∨ a + bs.length ≤ k ∨ (∃ m, s.cap.maxInBytes = some m ∧ m ≤ k) →
          Memory.read t.inMem k = Memory.read s.inMem k)) ∧
    (∀ a bs, s.host = .loadMix a bs :: q → s.MemOk → ∃ t,
      step s = .next t ∧ t = { s with host := q, mixMem := t.mixMem } ∧ ∀ k, Memory.read t.mixMem k =
        if a ≤ k ∧ k < a + bs.length then bs.getD (k - a) 0 else Memory.read s.mixMem k)
end

