-- ==== Sys2Proof/Laws/Decode.lean ====
section
/-! SUPPORT. Byte order and bit fields: bytes and quantities are inverse to each other, and a unit is the concatenation of
its fields. The decoder reads with the one side, the encoder writes with the other. -/

namespace Sys2Proof

/-! ### Bytes and quantities -/

theorem getLsbD_le16 (v0 v1 : Byte) (k : Nat) :
    (le16 v0 v1).getLsbD k = bif decide (k < 8) then v0.getLsbD k else v1.getLsbD (k - 8) := by
  rw [le16, BitVec.getLsbD_append, Bool.cond_decide]

theorem bytes16_le16 (v0 v1 : Byte) : bytes16 (le16 v0 v1) = [v0, v1] := by
  simp only [bytes16, byteAt, List.cons.injEq, and_true]
  constructor <;> refine BitVec.eq_of_getLsbD_eq fun k hk => ?_ <;>
    simp only [BitVec.getLsbD_extractLsb', getLsbD_le16] <;> interval_cases k <;> simp

theorem getLsbD_le32 (v0 v1 v2 v3 : Byte) (k : Nat) :
    (le32 v0 v1 v2 v3).getLsbD k =
      bif decide (k < 8) then v0.getLsbD k
      else bif decide (k < 16) then v1.getLsbD (k - 8)
      else bif decide (k < 24) then v2.getLsbD (k - 16) else v3.getLsbD (k - 24) := by
  simp only [le32, BitVec.getLsbD_append, Bool.cond_decide]
  repeat' split
  all_goals first | rfl | (exfalso; omega)

theorem bytes32_le32 (v0 v1 v2 v3 : Byte) : bytes32 (le32 v0 v1 v2 v3) = [v0, v1, v2, v3] := by
  simp only [bytes32, byteAt, List.cons.injEq, and_true]
  refine ⟨?_, ?_, ?_, ?_⟩ <;> refine BitVec.eq_of_getLsbD_eq fun k hk => ?_ <;>
    simp only [BitVec.getLsbD_extractLsb', getLsbD_le32] <;> interval_cases k <;> simp

theorem le16_byteAt (f : Half) : le16 (byteAt f 0) (byteAt f 1) = f := by
  refine BitVec.eq_of_getLsbD_eq fun k hk => ?_
  simp only [getLsbD_le16, byteAt, BitVec.getLsbD_extractLsb']
  interval_cases k <;> simp

theorem le32_byteAt (f : Word) : le32 (byteAt f 0) (byteAt f 1) (byteAt f 2) (byteAt f 3) = f := by
  refine BitVec.eq_of_getLsbD_eq fun k hk => ?_
  simp only [getLsbD_le32, byteAt, BitVec.getLsbD_extractLsb']
  interval_cases k <;> simp

theorem le16_toNat (v0 v1 : Byte) : (le16 v0 v1).toNat = v0.toNat + 256 * v1.toNat := by
  rw [le16, BitVec.toNat_append, Nat.shiftLeft_eq, ← Nat.shiftLeft_eq, ← Nat.shiftLeft_add_eq_or_of_lt v0.isLt,
    Nat.shiftLeft_eq]
  omega

theorem le32_toNat (v0 v1 v2 v3 : Byte) :
    (le32 v0 v1 v2 v3).toNat = v0.toNat + 256 * v1.toNat + 65536 * v2.toNat + 16777216 * v3.toNat := by
  rw [le32, BitVec.toNat_append, BitVec.toNat_append, BitVec.toNat_append, ← Nat.shiftLeft_add_eq_or_of_lt v2.isLt,
    ← Nat.shiftLeft_add_eq_or_of_lt v1.isLt, ← Nat.shiftLeft_add_eq_or_of_lt v0.isLt, Nat.shiftLeft_eq, Nat.shiftLeft_eq,
    Nat.shiftLeft_eq]
  omega

/-! ### Units and fields -/

theorem alphaFlag_fields (f : Half) : BitVec.ofBool (f.getLsbD 15) ++ f.extractLsb' 0 15 = f := by
  refine BitVec.eq_of_getLsbD_eq fun k hk => ?_
  rw [BitVec.getLsbD_append]
  interval_cases k <;> simp

theorem colorFlag_fields (f : Byte) : f.extractLsb' 6 2 ++ f.extractLsb' 0 6 = f := by
  refine BitVec.eq_of_getLsbD_eq fun k hk => ?_
  rw [BitVec.getLsbD_append]
  interval_cases k <;> simp

theorem addWord_fields (d : Half) :
    BitVec.ofBool (d.getLsbD 15) ++ d.extractLsb' 10 5 ++ d.extractLsb' 5 5 ++ d.extractLsb' 0 5 = d := by
  refine BitVec.eq_of_getLsbD_eq fun k hk => ?_
  simp only [BitVec.getLsbD_append]
  interval_cases k <;> simp

theorem smWord_fields (d : Half) :
    BitVec.ofBool (d.getLsbD 15) ++ BitVec.ofBool (d.getLsbD 14) ++ d.extractLsb' 10 4 ++ BitVec.ofBool (d.getLsbD 9) ++
      d.extractLsb' 5 4 ++ BitVec.ofBool (d.getLsbD 4) ++ d.extractLsb' 0 4 = d := by
  refine BitVec.eq_of_getLsbD_eq fun k hk => ?_
  simp only [BitVec.getLsbD_append]
  interval_cases k <;> simp

theorem colorFlag_top (f : Byte) :
    f.extractLsb' 6 2 = 0#2 ∨ f.extractLsb' 6 2 = 1#2 ∨ f.extractLsb' 6 2 = 2#2 ∨ f.extractLsb' 6 2 = 3#2 := by
  generalize f.extractLsb' 6 2 = z
  revert z
  decide

/-! ### What the decoder consumes -/

/-- A decoded instruction belongs to the context, takes at least one byte, and its bytes were there. -/
theorem decode_size {ctx : Context} {bs : List Byte} {i : Instr} {rest : List Byte}
    (h : decode ctx bs = .ok (i, rest)) : i.context = ctx ∧ 1 ≤ i.size ∧ i.size + rest.length = bs.length := by
  cases ctx
  · simp only [decode, decodeHost, nextByte] at h
    split at h
    · cases h
    · split_ifs at h <;> cases h <;> exact ⟨rfl, by decide, Nat.add_comm _ _⟩
  · simp only [decode, decodeVsp, nextByte] at h
    split at h
    · cases h
    · split_ifs at h <;> (repeat' split at h) <;> cases h <;>
        simp [Instr.context, Instr.size, encode] <;> omega
  · simp only [decode, decodeHdr] at h
    split at h
    · cases h
      simp [Instr.context, Instr.size, encode, bytes32]
      omega
    · cases h
  · simp only [decode, decodeSgdA, firstHalf, nextByte] at h
    split at h
    · split_ifs at h <;> (repeat' split at h) <;> cases h <;>
        simp [Instr.context, Instr.size, encode, bytes16] <;> omega
    · cases h
  · simp only [decode, decodeSgdC, nextByte] at h
    split at h
    · cases h
    · split_ifs at h <;> (repeat' split at h) <;> cases h <;>
        simp [Instr.context, Instr.size, encode] <;> omega
  · simp only [decode, decodeSgdD, firstHalf] at h
    split at h
    · split_ifs at h <;> cases h <;> simp [Instr.context, Instr.size, encode, bytes16] <;> omega
    · cases h

/-- A stream context rejects for one reason: the bytes end inside the instruction, after at most all of them. -/
theorem decode_truncated {ctx : Context} {bs : List Byte} {e : Reject} (hc : ctx ≠ .host)
    (h : decode ctx bs = .error e) : ∃ n, e = .truncated n ∧ n ≤ bs.length ∧ n < maxSize := by
  cases ctx
  · exact absurd rfl hc
  · simp only [decode, decodeVsp, nextByte] at h
    split at h
    · cases h; exact ⟨0, rfl, Nat.zero_le _, by decide⟩
    · split_ifs at h <;> (repeat' split at h) <;> cases h <;> exact ⟨_, rfl, by simp, by decide⟩
  · simp only [decode, decodeHdr] at h
    split at h
    · cases h
    · cases h; exact ⟨0, rfl, Nat.zero_le _, by decide⟩
  · simp only [decode, decodeSgdA, firstHalf, nextByte] at h
    split at h
    · (repeat' split at h) <;> cases h <;> exact ⟨_, rfl, by simp, by decide⟩
    · cases h; exact ⟨0, rfl, Nat.zero_le _, by decide⟩
  · simp only [decode, decodeSgdC, nextByte] at h
    split at h
    · cases h; exact ⟨0, rfl, Nat.zero_le _, by decide⟩
    · split_ifs at h <;> (repeat' split at h) <;> cases h <;> exact ⟨_, rfl, by simp, by decide⟩
  · simp only [decode, decodeSgdD, firstHalf] at h
    split at h
    · split at h <;> cases h
    · cases h; exact ⟨0, rfl, Nat.zero_le _, by decide⟩

end Sys2Proof
end

