-- ==== Sys2Proof/Laws/State.lean ====
section
/-! SUPPORT. The small lemmas of the state updates: one per field per update, so that no proof unfolds an update. -/

namespace Sys2Proof.Machine

/-! ### Constants as numerals -/

@[simp] theorem vspRawMin_eq : vspRawMin = 8 := rfl
@[simp] theorem mixWordBytes_eq : mixWordBytes = 4 := rfl
@[simp] theorem mtUninitialized_eq : mtUninitialized = 65 := rfl

/-! ### `raise` -/

@[simp] theorem raise_cmd (f : FaultName) (n : Nat) (s : State) : (raise f n s).cmd = s.cmd := rfl
@[simp] theorem raise_status (f : FaultName) (n : Nat) (s : State) : (raise f n s).status = .fault := rfl
@[simp] theorem raise_faultCode (f : FaultName) (n : Nat) (s : State) : (raise f n s).faultCode = f.code := rfl
@[simp] theorem raise_faultIp (f : FaultName) (n : Nat) (s : State) : (raise f n s).faultIp = n := rfl
@[simp] theorem raise_result (f : FaultName) (n : Nat) (s : State) : (raise f n s).result = s.result := rfl
@[simp] theorem raise_outLen (f : FaultName) (n : Nat) (s : State) : (raise f n s).outLen = s.outLen := rfl
@[simp] theorem raise_width (f : FaultName) (n : Nat) (s : State) : (raise f n s).width = s.width := rfl
@[simp] theorem raise_height (f : FaultName) (n : Nat) (s : State) : (raise f n s).height = s.height := rfl
@[simp] theorem raise_outSize (f : FaultName) (n : Nat) (s : State) : (raise f n s).outSize = s.outSize := rfl
@[simp] theorem raise_csize (f : FaultName) (n : Nat) (s : State) : (raise f n s).csize = s.csize := rfl
@[simp] theorem raise_innerLen (f : FaultName) (n : Nat) (s : State) : (raise f n s).innerLen = s.innerLen := rfl
@[simp] theorem raise_seed (f : FaultName) (n : Nat) (s : State) : (raise f n s).seed = s.seed := rfl
@[simp] theorem raise_inLen (f : FaultName) (n : Nat) (s : State) : (raise f n s).inLen = s.inLen := rfl
@[simp] theorem raise_mixLen (f : FaultName) (n : Nat) (s : State) : (raise f n s).mixLen = s.mixLen := rfl
@[simp] theorem raise_inMem (f : FaultName) (n : Nat) (s : State) : (raise f n s).inMem = s.inMem := rfl
@[simp] theorem raise_mixMem (f : FaultName) (n : Nat) (s : State) : (raise f n s).mixMem = s.mixMem := rfl
@[simp] theorem raise_outMem (f : FaultName) (n : Nat) (s : State) : (raise f n s).outMem = s.outMem := rfl
@[simp] theorem raise_hb0 (f : FaultName) (n : Nat) (s : State) : (raise f n s).hb0 = s.hb0 := rfl
@[simp] theorem raise_hb1 (f : FaultName) (n : Nat) (s : State) : (raise f n s).hb1 = s.hb1 := rfl
@[simp] theorem raise_mt (f : FaultName) (n : Nat) (s : State) : (raise f n s).mt = s.mt := rfl
@[simp] theorem raise_mti (f : FaultName) (n : Nat) (s : State) : (raise f n s).mti = s.mti := rfl
@[simp] theorem raise_ip (f : FaultName) (n : Nat) (s : State) : (raise f n s).ip = s.ip := rfl
@[simp] theorem raise_lim (f : FaultName) (n : Nat) (s : State) : (raise f n s).lim = s.lim := rfl
@[simp] theorem raise_x (f : FaultName) (n : Nat) (s : State) : (raise f n s).x = s.x := rfl
@[simp] theorem raise_plane (f : FaultName) (n : Nat) (s : State) : (raise f n s).plane = s.plane := rfl
@[simp] theorem raise_y (f : FaultName) (n : Nat) (s : State) : (raise f n s).y = s.y := rfl
@[simp] theorem raise_mask (f : FaultName) (n : Nat) (s : State) : (raise f n s).mask = s.mask := rfl
@[simp] theorem raise_sel (f : FaultName) (n : Nat) (s : State) : (raise f n s).sel = s.sel := rfl
@[simp] theorem raise_nVsp (f : FaultName) (n : Nat) (s : State) : (raise f n s).nVsp = s.nVsp := rfl
@[simp] theorem raise_b0 (f : FaultName) (n : Nat) (s : State) : (raise f n s).b0 = s.b0 := rfl
@[simp] theorem raise_b1 (f : FaultName) (n : Nat) (s : State) : (raise f n s).b1 = s.b1 := rfl
@[simp] theorem raise_op (f : FaultName) (n : Nat) (s : State) : (raise f n s).op = s.op := rfl
@[simp] theorem raise_phase (f : FaultName) (n : Nat) (s : State) : (raise f n s).phase = s.phase := rfl
@[simp] theorem raise_b (f : FaultName) (n : Nat) (s : State) : (raise f n s).b = s.b := rfl
@[simp] theorem raise_g (f : FaultName) (n : Nat) (s : State) : (raise f n s).g = s.g := rfl
@[simp] theorem raise_r (f : FaultName) (n : Nat) (s : State) : (raise f n s).r = s.r := rfl
@[simp] theorem raise_a (f : FaultName) (n : Nat) (s : State) : (raise f n s).a = s.a := rfl
@[simp] theorem raise_nSgd (f : FaultName) (n : Nat) (s : State) : (raise f n s).nSgd = s.nSgd := rfl
@[simp] theorem raise_cap (f : FaultName) (n : Nat) (s : State) : (raise f n s).cap = s.cap := rfl
@[simp] theorem raise_ctx (f : FaultName) (n : Nat) (s : State) : (raise f n s).ctx = .host := rfl
@[simp] theorem raise_outValid (f : FaultName) (n : Nat) (s : State) : (raise f n s).outValid = s.outValid := rfl
@[simp] theorem raise_host (f : FaultName) (n : Nat) (s : State) : (raise f n s).host = s.host := rfl
@[simp] theorem raise_resetIn (f : FaultName) (n : Nat) (s : State) : (raise f n s).resetIn = s.resetIn := rfl

/-! ### `beginCommand` -/

@[simp] theorem beginCommand_cmd (c : Byte) (s : State) : (beginCommand c s).cmd = c := rfl
@[simp] theorem beginCommand_status (c : Byte) (s : State) : (beginCommand c s).status = .busy := rfl
@[simp] theorem beginCommand_faultCode (c : Byte) (s : State) : (beginCommand c s).faultCode = 0 := rfl
@[simp] theorem beginCommand_faultIp (c : Byte) (s : State) : (beginCommand c s).faultIp = s.faultIp := rfl
@[simp] theorem beginCommand_result (c : Byte) (s : State) : (beginCommand c s).result = s.result := rfl
@[simp] theorem beginCommand_outLen (c : Byte) (s : State) : (beginCommand c s).outLen = s.outLen := rfl
@[simp] theorem beginCommand_width (c : Byte) (s : State) : (beginCommand c s).width = s.width := rfl
@[simp] theorem beginCommand_height (c : Byte) (s : State) : (beginCommand c s).height = s.height := rfl
@[simp] theorem beginCommand_outSize (c : Byte) (s : State) : (beginCommand c s).outSize = s.outSize := rfl
@[simp] theorem beginCommand_csize (c : Byte) (s : State) : (beginCommand c s).csize = s.csize := rfl
@[simp] theorem beginCommand_innerLen (c : Byte) (s : State) : (beginCommand c s).innerLen = s.innerLen := rfl
@[simp] theorem beginCommand_seed (c : Byte) (s : State) : (beginCommand c s).seed = s.seed := rfl
@[simp] theorem beginCommand_inLen (c : Byte) (s : State) : (beginCommand c s).inLen = s.inLen := rfl
@[simp] theorem beginCommand_mixLen (c : Byte) (s : State) : (beginCommand c s).mixLen = s.mixLen := rfl
@[simp] theorem beginCommand_inMem (c : Byte) (s : State) : (beginCommand c s).inMem = s.inMem := rfl
@[simp] theorem beginCommand_mixMem (c : Byte) (s : State) : (beginCommand c s).mixMem = s.mixMem := rfl
@[simp] theorem beginCommand_outMem (c : Byte) (s : State) : (beginCommand c s).outMem = s.outMem := rfl
@[simp] theorem beginCommand_hb0 (c : Byte) (s : State) : (beginCommand c s).hb0 = s.hb0 := rfl
@[simp] theorem beginCommand_hb1 (c : Byte) (s : State) : (beginCommand c s).hb1 = s.hb1 := rfl
@[simp] theorem beginCommand_mt (c : Byte) (s : State) : (beginCommand c s).mt = s.mt := rfl
@[simp] theorem beginCommand_mti (c : Byte) (s : State) : (beginCommand c s).mti = s.mti := rfl
@[simp] theorem beginCommand_ip (c : Byte) (s : State) : (beginCommand c s).ip = s.ip := rfl
@[simp] theorem beginCommand_lim (c : Byte) (s : State) : (beginCommand c s).lim = s.lim := rfl
@[simp] theorem beginCommand_x (c : Byte) (s : State) : (beginCommand c s).x = s.x := rfl
@[simp] theorem beginCommand_plane (c : Byte) (s : State) : (beginCommand c s).plane = s.plane := rfl
@[simp] theorem beginCommand_y (c : Byte) (s : State) : (beginCommand c s).y = s.y := rfl
@[simp] theorem beginCommand_mask (c : Byte) (s : State) : (beginCommand c s).mask = s.mask := rfl
@[simp] theorem beginCommand_sel (c : Byte) (s : State) : (beginCommand c s).sel = s.sel := rfl
@[simp] theorem beginCommand_nVsp (c : Byte) (s : State) : (beginCommand c s).nVsp = s.nVsp := rfl
@[simp] theorem beginCommand_b0 (c : Byte) (s : State) : (beginCommand c s).b0 = s.b0 := rfl
@[simp] theorem beginCommand_b1 (c : Byte) (s : State) : (beginCommand c s).b1 = s.b1 := rfl
@[simp] theorem beginCommand_op (c : Byte) (s : State) : (beginCommand c s).op = s.op := rfl
@[simp] theorem beginCommand_phase (c : Byte) (s : State) : (beginCommand c s).phase = s.phase := rfl
@[simp] theorem beginCommand_b (c : Byte) (s : State) : (beginCommand c s).b = s.b := rfl
@[simp] theorem beginCommand_g (c : Byte) (s : State) : (beginCommand c s).g = s.g := rfl
@[simp] theorem beginCommand_r (c : Byte) (s : State) : (beginCommand c s).r = s.r := rfl
@[simp] theorem beginCommand_a (c : Byte) (s : State) : (beginCommand c s).a = s.a := rfl
@[simp] theorem beginCommand_nSgd (c : Byte) (s : State) : (beginCommand c s).nSgd = s.nSgd := rfl
@[simp] theorem beginCommand_cap (c : Byte) (s : State) : (beginCommand c s).cap = s.cap := rfl
@[simp] theorem beginCommand_ctx (c : Byte) (s : State) : (beginCommand c s).ctx = s.ctx := rfl
@[simp] theorem beginCommand_outValid (c : Byte) (s : State) : (beginCommand c s).outValid = s.outValid := rfl
@[simp] theorem beginCommand_host (c : Byte) (s : State) : (beginCommand c s).host = s.host := rfl
@[simp] theorem beginCommand_resetIn (c : Byte) (s : State) : (beginCommand c s).resetIn = s.resetIn := rfl

/-! ### `finish` -/

@[simp] theorem finish_cmd (s : State) : (finish s).cmd = s.cmd := rfl
@[simp] theorem finish_status (s : State) : (finish s).status = .done := rfl
@[simp] theorem finish_faultCode (s : State) : (finish s).faultCode = s.faultCode := rfl
@[simp] theorem finish_faultIp (s : State) : (finish s).faultIp = s.faultIp := rfl
@[simp] theorem finish_result (s : State) : (finish s).result = s.result := rfl
@[simp] theorem finish_outLen (s : State) : (finish s).outLen = s.outLen := rfl
@[simp] theorem finish_width (s : State) : (finish s).width = s.width := rfl
@[simp] theorem finish_height (s : State) : (finish s).height = s.height := rfl
@[simp] theorem finish_outSize (s : State) : (finish s).outSize = s.outSize := rfl
@[simp] theorem finish_csize (s : State) : (finish s).csize = s.csize := rfl
@[simp] theorem finish_innerLen (s : State) : (finish s).innerLen = s.innerLen := rfl
@[simp] theorem finish_seed (s : State) : (finish s).seed = s.seed := rfl
@[simp] theorem finish_inLen (s : State) : (finish s).inLen = s.inLen := rfl
@[simp] theorem finish_mixLen (s : State) : (finish s).mixLen = s.mixLen := rfl
@[simp] theorem finish_inMem (s : State) : (finish s).inMem = s.inMem := rfl
@[simp] theorem finish_mixMem (s : State) : (finish s).mixMem = s.mixMem := rfl
@[simp] theorem finish_outMem (s : State) : (finish s).outMem = s.outMem := rfl
@[simp] theorem finish_hb0 (s : State) : (finish s).hb0 = s.hb0 := rfl
@[simp] theorem finish_hb1 (s : State) : (finish s).hb1 = s.hb1 := rfl
@[simp] theorem finish_mt (s : State) : (finish s).mt = s.mt := rfl
@[simp] theorem finish_mti (s : State) : (finish s).mti = s.mti := rfl
@[simp] theorem finish_ip (s : State) : (finish s).ip = s.ip := rfl
@[simp] theorem finish_lim (s : State) : (finish s).lim = s.lim := rfl
@[simp] theorem finish_x (s : State) : (finish s).x = s.x := rfl
@[simp] theorem finish_plane (s : State) : (finish s).plane = s.plane := rfl
@[simp] theorem finish_y (s : State) : (finish s).y = s.y := rfl
@[simp] theorem finish_mask (s : State) : (finish s).mask = s.mask := rfl
@[simp] theorem finish_sel (s : State) : (finish s).sel = s.sel := rfl
@[simp] theorem finish_nVsp (s : State) : (finish s).nVsp = s.nVsp := rfl
@[simp] theorem finish_b0 (s : State) : (finish s).b0 = s.b0 := rfl
@[simp] theorem finish_b1 (s : State) : (finish s).b1 = s.b1 := rfl
@[simp] theorem finish_op (s : State) : (finish s).op = s.op := rfl
@[simp] theorem finish_phase (s : State) : (finish s).phase = s.phase := rfl
@[simp] theorem finish_b (s : State) : (finish s).b = s.b := rfl
@[simp] theorem finish_g (s : State) : (finish s).g = s.g := rfl
@[simp] theorem finish_r (s : State) : (finish s).r = s.r := rfl
@[simp] theorem finish_a (s : State) : (finish s).a = s.a := rfl
@[simp] theorem finish_nSgd (s : State) : (finish s).nSgd = s.nSgd := rfl
@[simp] theorem finish_cap (s : State) : (finish s).cap = s.cap := rfl
@[simp] theorem finish_ctx (s : State) : (finish s).ctx = .host := rfl
@[simp] theorem finish_outValid (s : State) : (finish s).outValid = s.outValid := rfl
@[simp] theorem finish_host (s : State) : (finish s).host = s.host := rfl
@[simp] theorem finish_resetIn (s : State) : (finish s).resetIn = s.resetIn := rfl

/-! ### `finishDecode` -/

@[simp] theorem finishDecode_cmd (n : Nat) (s : State) : (finishDecode n s).cmd = s.cmd := rfl
@[simp] theorem finishDecode_status (n : Nat) (s : State) : (finishDecode n s).status = .done := rfl
@[simp] theorem finishDecode_faultCode (n : Nat) (s : State) : (finishDecode n s).faultCode = s.faultCode := rfl
@[simp] theorem finishDecode_faultIp (n : Nat) (s : State) : (finishDecode n s).faultIp = s.faultIp := rfl
@[simp] theorem finishDecode_result (n : Nat) (s : State) : (finishDecode n s).result = s.result := rfl
@[simp] theorem finishDecode_outLen (n : Nat) (s : State) : (finishDecode n s).outLen = n := rfl
@[simp] theorem finishDecode_width (n : Nat) (s : State) : (finishDecode n s).width = s.width := rfl
@[simp] theorem finishDecode_height (n : Nat) (s : State) : (finishDecode n s).height = s.height := rfl
@[simp] theorem finishDecode_outSize (n : Nat) (s : State) : (finishDecode n s).outSize = s.outSize := rfl
@[simp] theorem finishDecode_csize (n : Nat) (s : State) : (finishDecode n s).csize = s.csize := rfl
@[simp] theorem finishDecode_innerLen (n : Nat) (s : State) : (finishDecode n s).innerLen = s.innerLen := rfl
@[simp] theorem finishDecode_seed (n : Nat) (s : State) : (finishDecode n s).seed = s.seed := rfl
@[simp] theorem finishDecode_inLen (n : Nat) (s : State) : (finishDecode n s).inLen = s.inLen := rfl
@[simp] theorem finishDecode_mixLen (n : Nat) (s : State) : (finishDecode n s).mixLen = s.mixLen := rfl
@[simp] theorem finishDecode_inMem (n : Nat) (s : State) : (finishDecode n s).inMem = s.inMem := rfl
@[simp] theorem finishDecode_mixMem (n : Nat) (s : State) : (finishDecode n s).mixMem = s.mixMem := rfl
@[simp] theorem finishDecode_outMem (n : Nat) (s : State) : (finishDecode n s).outMem = s.outMem := rfl
@[simp] theorem finishDecode_hb0 (n : Nat) (s : State) : (finishDecode n s).hb0 = s.hb0 := rfl
@[simp] theorem finishDecode_hb1 (n : Nat) (s : State) : (finishDecode n s).hb1 = s.hb1 := rfl
@[simp] theorem finishDecode_mt (n : Nat) (s : State) : (finishDecode n s).mt = s.mt := rfl
@[simp] theorem finishDecode_mti (n : Nat) (s : State) : (finishDecode n s).mti = s.mti := rfl
@[simp] theorem finishDecode_ip (n : Nat) (s : State) : (finishDecode n s).ip = s.ip := rfl
@[simp] theorem finishDecode_lim (n : Nat) (s : State) : (finishDecode n s).lim = s.lim := rfl
@[simp] theorem finishDecode_x (n : Nat) (s : State) : (finishDecode n s).x = s.x := rfl
@[simp] theorem finishDecode_plane (n : Nat) (s : State) : (finishDecode n s).plane = s.plane := rfl
@[simp] theorem finishDecode_y (n : Nat) (s : State) : (finishDecode n s).y = s.y := rfl
@[simp] theorem finishDecode_mask (n : Nat) (s : State) : (finishDecode n s).mask = s.mask := rfl
@[simp] theorem finishDecode_sel (n : Nat) (s : State) : (finishDecode n s).sel = s.sel := rfl
@[simp] theorem finishDecode_nVsp (n : Nat) (s : State) : (finishDecode n s).nVsp = s.nVsp := rfl
@[simp] theorem finishDecode_b0 (n : Nat) (s : State) : (finishDecode n s).b0 = s.b0 := rfl
@[simp] theorem finishDecode_b1 (n : Nat) (s : State) : (finishDecode n s).b1 = s.b1 := rfl
@[simp] theorem finishDecode_op (n : Nat) (s : State) : (finishDecode n s).op = s.op := rfl
@[simp] theorem finishDecode_phase (n : Nat) (s : State) : (finishDecode n s).phase = s.phase := rfl
@[simp] theorem finishDecode_b (n : Nat) (s : State) : (finishDecode n s).b = s.b := rfl
@[simp] theorem finishDecode_g (n : Nat) (s : State) : (finishDecode n s).g = s.g := rfl
@[simp] theorem finishDecode_r (n : Nat) (s : State) : (finishDecode n s).r = s.r := rfl
@[simp] theorem finishDecode_a (n : Nat) (s : State) : (finishDecode n s).a = s.a := rfl
@[simp] theorem finishDecode_nSgd (n : Nat) (s : State) : (finishDecode n s).nSgd = s.nSgd := rfl
@[simp] theorem finishDecode_cap (n : Nat) (s : State) : (finishDecode n s).cap = s.cap := rfl
@[simp] theorem finishDecode_ctx (n : Nat) (s : State) : (finishDecode n s).ctx = .host := rfl
@[simp] theorem finishDecode_outValid (n : Nat) (s : State) : (finishDecode n s).outValid = true := rfl
@[simp] theorem finishDecode_host (n : Nat) (s : State) : (finishDecode n s).host = s.host := rfl
@[simp] theorem finishDecode_resetIn (n : Nat) (s : State) : (finishDecode n s).resetIn = s.resetIn := rfl

/-! ### `advance` -/

@[simp] theorem advance_cmd (n : Nat) (s : State) : (advance n s).cmd = s.cmd := rfl
@[simp] theorem advance_status (n : Nat) (s : State) : (advance n s).status = s.status := rfl
@[simp] theorem advance_faultCode (n : Nat) (s : State) : (advance n s).faultCode = s.faultCode := rfl
@[simp] theorem advance_faultIp (n : Nat) (s : State) : (advance n s).faultIp = s.faultIp := rfl
@[simp] theorem advance_result (n : Nat) (s : State) : (advance n s).result = s.result := rfl
@[simp] theorem advance_outLen (n : Nat) (s : State) : (advance n s).outLen = s.outLen := rfl
@[simp] theorem advance_width (n : Nat) (s : State) : (advance n s).width = s.width := rfl
@[simp] theorem advance_height (n : Nat) (s : State) : (advance n s).height = s.height := rfl
@[simp] theorem advance_outSize (n : Nat) (s : State) : (advance n s).outSize = s.outSize := rfl
@[simp] theorem advance_csize (n : Nat) (s : State) : (advance n s).csize = s.csize := rfl
@[simp] theorem advance_innerLen (n : Nat) (s : State) : (advance n s).innerLen = s.innerLen := rfl
@[simp] theorem advance_seed (n : Nat) (s : State) : (advance n s).seed = s.seed := rfl
@[simp] theorem advance_inLen (n : Nat) (s : State) : (advance n s).inLen = s.inLen := rfl
@[simp] theorem advance_mixLen (n : Nat) (s : State) : (advance n s).mixLen = s.mixLen := rfl
@[simp] theorem advance_inMem (n : Nat) (s : State) : (advance n s).inMem = s.inMem := rfl
@[simp] theorem advance_mixMem (n : Nat) (s : State) : (advance n s).mixMem = s.mixMem := rfl
@[simp] theorem advance_outMem (n : Nat) (s : State) : (advance n s).outMem = s.outMem := rfl
@[simp] theorem advance_hb0 (n : Nat) (s : State) : (advance n s).hb0 = s.hb0 := rfl
@[simp] theorem advance_hb1 (n : Nat) (s : State) : (advance n s).hb1 = s.hb1 := rfl
@[simp] theorem advance_mt (n : Nat) (s : State) : (advance n s).mt = s.mt := rfl
@[simp] theorem advance_mti (n : Nat) (s : State) : (advance n s).mti = s.mti := rfl
@[simp] theorem advance_ip (n : Nat) (s : State) : (advance n s).ip = s.ip + n := rfl
@[simp] theorem advance_lim (n : Nat) (s : State) : (advance n s).lim = s.lim := rfl
@[simp] theorem advance_x (n : Nat) (s : State) : (advance n s).x = s.x := rfl
@[simp] theorem advance_plane (n : Nat) (s : State) : (advance n s).plane = s.plane := rfl
@[simp] theorem advance_y (n : Nat) (s : State) : (advance n s).y = s.y := rfl
@[simp] theorem advance_mask (n : Nat) (s : State) : (advance n s).mask = s.mask := rfl
@[simp] theorem advance_sel (n : Nat) (s : State) : (advance n s).sel = s.sel := rfl
@[simp] theorem advance_nVsp (n : Nat) (s : State) : (advance n s).nVsp = s.nVsp := rfl
@[simp] theorem advance_b0 (n : Nat) (s : State) : (advance n s).b0 = s.b0 := rfl
@[simp] theorem advance_b1 (n : Nat) (s : State) : (advance n s).b1 = s.b1 := rfl
@[simp] theorem advance_op (n : Nat) (s : State) : (advance n s).op = s.op := rfl
@[simp] theorem advance_phase (n : Nat) (s : State) : (advance n s).phase = s.phase := rfl
@[simp] theorem advance_b (n : Nat) (s : State) : (advance n s).b = s.b := rfl
@[simp] theorem advance_g (n : Nat) (s : State) : (advance n s).g = s.g := rfl
@[simp] theorem advance_r (n : Nat) (s : State) : (advance n s).r = s.r := rfl
@[simp] theorem advance_a (n : Nat) (s : State) : (advance n s).a = s.a := rfl
@[simp] theorem advance_nSgd (n : Nat) (s : State) : (advance n s).nSgd = s.nSgd := rfl
@[simp] theorem advance_cap (n : Nat) (s : State) : (advance n s).cap = s.cap := rfl
@[simp] theorem advance_ctx (n : Nat) (s : State) : (advance n s).ctx = s.ctx := rfl
@[simp] theorem advance_outValid (n : Nat) (s : State) : (advance n s).outValid = s.outValid := rfl
@[simp] theorem advance_host (n : Nat) (s : State) : (advance n s).host = s.host := rfl
@[simp] theorem advance_resetIn (n : Nat) (s : State) : (advance n s).resetIn = s.resetIn := rfl

/-! ### `setMask` -/

@[simp] theorem setMask_cmd (s : State) : (setMask s).cmd = s.cmd := rfl
@[simp] theorem setMask_status (s : State) : (setMask s).status = s.status := rfl
@[simp] theorem setMask_faultCode (s : State) : (setMask s).faultCode = s.faultCode := rfl
@[simp] theorem setMask_faultIp (s : State) : (setMask s).faultIp = s.faultIp := rfl
@[simp] theorem setMask_result (s : State) : (setMask s).result = s.result := rfl
@[simp] theorem setMask_outLen (s : State) : (setMask s).outLen = s.outLen := rfl
@[simp] theorem setMask_width (s : State) : (setMask s).width = s.width := rfl
@[simp] theorem setMask_height (s : State) : (setMask s).height = s.height := rfl
@[simp] theorem setMask_outSize (s : State) : (setMask s).outSize = s.outSize := rfl
@[simp] theorem setMask_csize (s : State) : (setMask s).csize = s.csize := rfl
@[simp] theorem setMask_innerLen (s : State) : (setMask s).innerLen = s.innerLen := rfl
@[simp] theorem setMask_seed (s : State) : (setMask s).seed = s.seed := rfl
@[simp] theorem setMask_inLen (s : State) : (setMask s).inLen = s.inLen := rfl
@[simp] theorem setMask_mixLen (s : State) : (setMask s).mixLen = s.mixLen := rfl
@[simp] theorem setMask_inMem (s : State) : (setMask s).inMem = s.inMem := rfl
@[simp] theorem setMask_mixMem (s : State) : (setMask s).mixMem = s.mixMem := rfl
@[simp] theorem setMask_outMem (s : State) : (setMask s).outMem = s.outMem := rfl
@[simp] theorem setMask_hb0 (s : State) : (setMask s).hb0 = s.hb0 := rfl
@[simp] theorem setMask_hb1 (s : State) : (setMask s).hb1 = s.hb1 := rfl
@[simp] theorem setMask_mt (s : State) : (setMask s).mt = s.mt := rfl
@[simp] theorem setMask_mti (s : State) : (setMask s).mti = s.mti := rfl
@[simp] theorem setMask_ip (s : State) : (setMask s).ip = s.ip := rfl
@[simp] theorem setMask_lim (s : State) : (setMask s).lim = s.lim := rfl
@[simp] theorem setMask_x (s : State) : (setMask s).x = s.x := rfl
@[simp] theorem setMask_plane (s : State) : (setMask s).plane = s.plane := rfl
@[simp] theorem setMask_y (s : State) : (setMask s).y = s.y := rfl
@[simp] theorem setMask_mask (s : State) : (setMask s).mask = maskInverted := rfl
@[simp] theorem setMask_sel (s : State) : (setMask s).sel = s.sel := rfl
@[simp] theorem setMask_nVsp (s : State) : (setMask s).nVsp = s.nVsp := rfl
@[simp] theorem setMask_b0 (s : State) : (setMask s).b0 = s.b0 := rfl
@[simp] theorem setMask_b1 (s : State) : (setMask s).b1 = s.b1 := rfl
@[simp] theorem setMask_op (s : State) : (setMask s).op = s.op := rfl
@[simp] theorem setMask_phase (s : State) : (setMask s).phase = s.phase := rfl
@[simp] theorem setMask_b (s : State) : (setMask s).b = s.b := rfl
@[simp] theorem setMask_g (s : State) : (setMask s).g = s.g := rfl
@[simp] theorem setMask_r (s : State) : (setMask s).r = s.r := rfl
@[simp] theorem setMask_a (s : State) : (setMask s).a = s.a := rfl
@[simp] theorem setMask_nSgd (s : State) : (setMask s).nSgd = s.nSgd := rfl
@[simp] theorem setMask_cap (s : State) : (setMask s).cap = s.cap := rfl
@[simp] theorem setMask_ctx (s : State) : (setMask s).ctx = s.ctx := rfl
@[simp] theorem setMask_outValid (s : State) : (setMask s).outValid = s.outValid := rfl
@[simp] theorem setMask_host (s : State) : (setMask s).host = s.host := rfl
@[simp] theorem setMask_resetIn (s : State) : (setMask s).resetIn = s.resetIn := rfl

/-! ### `clearMask` -/

@[simp] theorem clearMask_cmd (s : State) : (clearMask s).cmd = s.cmd := rfl
@[simp] theorem clearMask_status (s : State) : (clearMask s).status = s.status := rfl
@[simp] theorem clearMask_faultCode (s : State) : (clearMask s).faultCode = s.faultCode := rfl
@[simp] theorem clearMask_faultIp (s : State) : (clearMask s).faultIp = s.faultIp := rfl
@[simp] theorem clearMask_result (s : State) : (clearMask s).result = s.result := rfl
@[simp] theorem clearMask_outLen (s : State) : (clearMask s).outLen = s.outLen := rfl
@[simp] theorem clearMask_width (s : State) : (clearMask s).width = s.width := rfl
@[simp] theorem clearMask_height (s : State) : (clearMask s).height = s.height := rfl
@[simp] theorem clearMask_outSize (s : State) : (clearMask s).outSize = s.outSize := rfl
@[simp] theorem clearMask_csize (s : State) : (clearMask s).csize = s.csize := rfl
@[simp] theorem clearMask_innerLen (s : State) : (clearMask s).innerLen = s.innerLen := rfl
@[simp] theorem clearMask_seed (s : State) : (clearMask s).seed = s.seed := rfl
@[simp] theorem clearMask_inLen (s : State) : (clearMask s).inLen = s.inLen := rfl
@[simp] theorem clearMask_mixLen (s : State) : (clearMask s).mixLen = s.mixLen := rfl
@[simp] theorem clearMask_inMem (s : State) : (clearMask s).inMem = s.inMem := rfl
@[simp] theorem clearMask_mixMem (s : State) : (clearMask s).mixMem = s.mixMem := rfl
@[simp] theorem clearMask_outMem (s : State) : (clearMask s).outMem = s.outMem := rfl
@[simp] theorem clearMask_hb0 (s : State) : (clearMask s).hb0 = s.hb0 := rfl
@[simp] theorem clearMask_hb1 (s : State) : (clearMask s).hb1 = s.hb1 := rfl
@[simp] theorem clearMask_mt (s : State) : (clearMask s).mt = s.mt := rfl
@[simp] theorem clearMask_mti (s : State) : (clearMask s).mti = s.mti := rfl
@[simp] theorem clearMask_ip (s : State) : (clearMask s).ip = s.ip := rfl
@[simp] theorem clearMask_lim (s : State) : (clearMask s).lim = s.lim := rfl
@[simp] theorem clearMask_x (s : State) : (clearMask s).x = s.x := rfl
@[simp] theorem clearMask_plane (s : State) : (clearMask s).plane = s.plane := rfl
@[simp] theorem clearMask_y (s : State) : (clearMask s).y = s.y := rfl
@[simp] theorem clearMask_mask (s : State) : (clearMask s).mask = 0 := rfl
@[simp] theorem clearMask_sel (s : State) : (clearMask s).sel = s.sel := rfl
@[simp] theorem clearMask_nVsp (s : State) : (clearMask s).nVsp = s.nVsp := rfl
@[simp] theorem clearMask_b0 (s : State) : (clearMask s).b0 = s.b0 := rfl
@[simp] theorem clearMask_b1 (s : State) : (clearMask s).b1 = s.b1 := rfl
@[simp] theorem clearMask_op (s : State) : (clearMask s).op = s.op := rfl
@[simp] theorem clearMask_phase (s : State) : (clearMask s).phase = s.phase := rfl
@[simp] theorem clearMask_b (s : State) : (clearMask s).b = s.b := rfl
@[simp] theorem clearMask_g (s : State) : (clearMask s).g = s.g := rfl
@[simp] theorem clearMask_r (s : State) : (clearMask s).r = s.r := rfl
@[simp] theorem clearMask_a (s : State) : (clearMask s).a = s.a := rfl
@[simp] theorem clearMask_nSgd (s : State) : (clearMask s).nSgd = s.nSgd := rfl
@[simp] theorem clearMask_cap (s : State) : (clearMask s).cap = s.cap := rfl
@[simp] theorem clearMask_ctx (s : State) : (clearMask s).ctx = s.ctx := rfl
@[simp] theorem clearMask_outValid (s : State) : (clearMask s).outValid = s.outValid := rfl
@[simp] theorem clearMask_host (s : State) : (clearMask s).host = s.host := rfl
@[simp] theorem clearMask_resetIn (s : State) : (clearMask s).resetIn = s.resetIn := rfl

/-! ### `openJob` -/

@[simp] theorem openJob_cmd (s : State) : (openJob s).cmd = s.cmd := rfl
@[simp] theorem openJob_status (s : State) : (openJob s).status = s.status := rfl
@[simp] theorem openJob_faultCode (s : State) : (openJob s).faultCode = s.faultCode := rfl
@[simp] theorem openJob_faultIp (s : State) : (openJob s).faultIp = s.faultIp := rfl
@[simp] theorem openJob_result (s : State) : (openJob s).result = s.result := rfl
@[simp] theorem openJob_outLen (s : State) : (openJob s).outLen = s.outLen := rfl
@[simp] theorem openJob_width (s : State) : (openJob s).width = s.width := rfl
@[simp] theorem openJob_height (s : State) : (openJob s).height = s.height := rfl
@[simp] theorem openJob_outSize (s : State) : (openJob s).outSize = s.outSize := rfl
@[simp] theorem openJob_csize (s : State) : (openJob s).csize = s.csize := rfl
@[simp] theorem openJob_innerLen (s : State) : (openJob s).innerLen = s.innerLen := rfl
@[simp] theorem openJob_seed (s : State) : (openJob s).seed = s.seed := rfl
@[simp] theorem openJob_inLen (s : State) : (openJob s).inLen = s.inLen := rfl
@[simp] theorem openJob_mixLen (s : State) : (openJob s).mixLen = s.mixLen := rfl
@[simp] theorem openJob_inMem (s : State) : (openJob s).inMem = s.inMem := rfl
@[simp] theorem openJob_mixMem (s : State) : (openJob s).mixMem = s.mixMem := rfl
@[simp] theorem openJob_outMem (s : State) : (openJob s).outMem = s.outMem := rfl
@[simp] theorem openJob_hb0 (s : State) : (openJob s).hb0 = s.hb0 := rfl
@[simp] theorem openJob_hb1 (s : State) : (openJob s).hb1 = s.hb1 := rfl
@[simp] theorem openJob_mt (s : State) : (openJob s).mt = s.mt := rfl
@[simp] theorem openJob_mti (s : State) : (openJob s).mti = s.mti := rfl
@[simp] theorem openJob_ip (s : State) : (openJob s).ip = 0 := rfl
@[simp] theorem openJob_lim (s : State) : (openJob s).lim = s.lim := rfl
@[simp] theorem openJob_x (s : State) : (openJob s).x = s.x := rfl
@[simp] theorem openJob_plane (s : State) : (openJob s).plane = s.plane := rfl
@[simp] theorem openJob_y (s : State) : (openJob s).y = s.y := rfl
@[simp] theorem openJob_mask (s : State) : (openJob s).mask = s.mask := rfl
@[simp] theorem openJob_sel (s : State) : (openJob s).sel = s.sel := rfl
@[simp] theorem openJob_nVsp (s : State) : (openJob s).nVsp = s.nVsp := rfl
@[simp] theorem openJob_b0 (s : State) : (openJob s).b0 = s.b0 := rfl
@[simp] theorem openJob_b1 (s : State) : (openJob s).b1 = s.b1 := rfl
@[simp] theorem openJob_op (s : State) : (openJob s).op = s.op := rfl
@[simp] theorem openJob_phase (s : State) : (openJob s).phase = s.phase := rfl
@[simp] theorem openJob_b (s : State) : (openJob s).b = s.b := rfl
@[simp] theorem openJob_g (s : State) : (openJob s).g = s.g := rfl
@[simp] theorem openJob_r (s : State) : (openJob s).r = s.r := rfl
@[simp] theorem openJob_a (s : State) : (openJob s).a = s.a := rfl
@[simp] theorem openJob_nSgd (s : State) : (openJob s).nSgd = s.nSgd := rfl
@[simp] theorem openJob_cap (s : State) : (openJob s).cap = s.cap := rfl
@[simp] theorem openJob_ctx (s : State) : (openJob s).ctx = s.ctx := rfl
@[simp] theorem openJob_outValid (s : State) : (openJob s).outValid = false := rfl
@[simp] theorem openJob_host (s : State) : (openJob s).host = s.host := rfl
@[simp] theorem openJob_resetIn (s : State) : (openJob s).resetIn = s.resetIn := rfl

/-! ### `curWrite` and `putRow` -/

@[simp] theorem curWrite_cmd (y p : Nat) (v : Byte) (s : State) : (curWrite y p v s).cmd = s.cmd := by
  unfold curWrite; split <;> rfl
@[simp] theorem curWrite_status (y p : Nat) (v : Byte) (s : State) : (curWrite y p v s).status = s.status := by
  unfold curWrite; split <;> rfl
@[simp] theorem curWrite_faultCode (y p : Nat) (v : Byte) (s : State) : (curWrite y p v s).faultCode = s.faultCode := by
  unfold curWrite; split <;> rfl
@[simp] theorem curWrite_faultIp (y p : Nat) (v : Byte) (s : State) : (curWrite y p v s).faultIp = s.faultIp := by
  unfold curWrite; split <;> rfl
@[simp] theorem curWrite_result (y p : Nat) (v : Byte) (s : State) : (curWrite y p v s).result = s.result := by
  unfold curWrite; split <;> rfl
@[simp] theorem curWrite_outLen (y p : Nat) (v : Byte) (s : State) : (curWrite y p v s).outLen = s.outLen := by
  unfold curWrite; split <;> rfl
@[simp] theorem curWrite_width (y p : Nat) (v : Byte) (s : State) : (curWrite y p v s).width = s.width := by
  unfold curWrite; split <;> rfl
@[simp] theorem curWrite_height (y p : Nat) (v : Byte) (s : State) : (curWrite y p v s).height = s.height := by
  unfold curWrite; split <;> rfl
@[simp] theorem curWrite_outSize (y p : Nat) (v : Byte) (s : State) : (curWrite y p v s).outSize = s.outSize := by
  unfold curWrite; split <;> rfl
@[simp] theorem curWrite_csize (y p : Nat) (v : Byte) (s : State) : (curWrite y p v s).csize = s.csize := by
  unfold curWrite; split <;> rfl
@[simp] theorem curWrite_innerLen (y p : Nat) (v : Byte) (s : State) : (curWrite y p v s).innerLen = s.innerLen := by
  unfold curWrite; split <;> rfl
@[simp] theorem curWrite_seed (y p : Nat) (v : Byte) (s : State) : (curWrite y p v s).seed = s.seed := by
  unfold curWrite; split <;> rfl
@[simp] theorem curWrite_inLen (y p : Nat) (v : Byte) (s : State) : (curWrite y p v s).inLen = s.inLen := by
  unfold curWrite; split <;> rfl
@[simp] theorem curWrite_mixLen (y p : Nat) (v : Byte) (s : State) : (curWrite y p v s).mixLen = s.mixLen := by
  unfold curWrite; split <;> rfl
@[simp] theorem curWrite_inMem (y p : Nat) (v : Byte) (s : State) : (curWrite y p v s).inMem = s.inMem := by
  unfold curWrite; split <;> rfl
@[simp] theorem curWrite_mixMem (y p : Nat) (v : Byte) (s : State) : (curWrite y p v s).mixMem = s.mixMem := by
  unfold curWrite; split <;> rfl
@[simp] theorem curWrite_outMem (y p : Nat) (v : Byte) (s : State) : (curWrite y p v s).outMem = s.outMem := by
  unfold curWrite; split <;> rfl
@[simp] theorem curWrite_mt (y p : Nat) (v : Byte) (s : State) : (curWrite y p v s).mt = s.mt := by
  unfold curWrite; split <;> rfl
@[simp] theorem curWrite_mti (y p : Nat) (v : Byte) (s : State) : (curWrite y p v s).mti = s.mti := by
  unfold curWrite; split <;> rfl
@[simp] theorem curWrite_ip (y p : Nat) (v : Byte) (s : State) : (curWrite y p v s).ip = s.ip := by
  unfold curWrite; split <;> rfl
@[simp] theorem curWrite_lim (y p : Nat) (v : Byte) (s : State) : (curWrite y p v s).lim = s.lim := by
  unfold curWrite; split <;> rfl
@[simp] theorem curWrite_x (y p : Nat) (v : Byte) (s : State) : (curWrite y p v s).x = s.x := by
  unfold curWrite; split <;> rfl
@[simp] theorem curWrite_plane (y p : Nat) (v : Byte) (s : State) : (curWrite y p v s).plane = s.plane := by
  unfold curWrite; split <;> rfl
@[simp] theorem curWrite_y (y p : Nat) (v : Byte) (s : State) : (curWrite y p v s).y = s.y := by
  unfold curWrite; split <;> rfl
@[simp] theorem curWrite_mask (y p : Nat) (v : Byte) (s : State) : (curWrite y p v s).mask = s.mask := by
  unfold curWrite; split <;> rfl
@[simp] theorem curWrite_sel (y p : Nat) (v : Byte) (s : State) : (curWrite y p v s).sel = s.sel := by
  unfold curWrite; split <;> rfl
@[simp] theorem curWrite_nVsp (y p : Nat) (v : Byte) (s : State) : (curWrite y p v s).nVsp = s.nVsp := by
  unfold curWrite; split <;> rfl
@[simp] theorem curWrite_b0 (y p : Nat) (v : Byte) (s : State) : (curWrite y p v s).b0 = s.b0 := by
  unfold curWrite; split <;> rfl
@[simp] theorem curWrite_b1 (y p : Nat) (v : Byte) (s : State) : (curWrite y p v s).b1 = s.b1 := by
  unfold curWrite; split <;> rfl
@[simp] theorem curWrite_op (y p : Nat) (v : Byte) (s : State) : (curWrite y p v s).op = s.op := by
  unfold curWrite; split <;> rfl
@[simp] theorem curWrite_phase (y p : Nat) (v : Byte) (s : State) : (curWrite y p v s).phase = s.phase := by
  unfold curWrite; split <;> rfl
@[simp] theorem curWrite_b (y p : Nat) (v : Byte) (s : State) : (curWrite y p v s).b = s.b := by
  unfold curWrite; split <;> rfl
@[simp] theorem curWrite_g (y p : Nat) (v : Byte) (s : State) : (curWrite y p v s).g = s.g := by
  unfold curWrite; split <;> rfl
@[simp] theorem curWrite_r (y p : Nat) (v : Byte) (s : State) : (curWrite y p v s).r = s.r := by
  unfold curWrite; split <;> rfl
@[simp] theorem curWrite_a (y p : Nat) (v : Byte) (s : State) : (curWrite y p v s).a = s.a := by
  unfold curWrite; split <;> rfl
@[simp] theorem curWrite_nSgd (y p : Nat) (v : Byte) (s : State) : (curWrite y p v s).nSgd = s.nSgd := by
  unfold curWrite; split <;> rfl
@[simp] theorem curWrite_cap (y p : Nat) (v : Byte) (s : State) : (curWrite y p v s).cap = s.cap := by
  unfold curWrite; split <;> rfl
@[simp] theorem curWrite_ctx (y p : Nat) (v : Byte) (s : State) : (curWrite y p v s).ctx = s.ctx := by
  unfold curWrite; split <;> rfl
@[simp] theorem curWrite_outValid (y p : Nat) (v : Byte) (s : State) : (curWrite y p v s).outValid = s.outValid := by
  unfold curWrite; split <;> rfl
@[simp] theorem curWrite_host (y p : Nat) (v : Byte) (s : State) : (curWrite y p v s).host = s.host := by
  unfold curWrite; split <;> rfl
@[simp] theorem curWrite_resetIn (y p : Nat) (v : Byte) (s : State) : (curWrite y p v s).resetIn = s.resetIn := by
  unfold curWrite; split <;> rfl

@[simp] theorem putRow_cmd (v : Byte) (s : State) : (putRow v s).cmd = s.cmd := by simp [putRow]
@[simp] theorem putRow_status (v : Byte) (s : State) : (putRow v s).status = s.status := by simp [putRow]
@[simp] theorem putRow_faultCode (v : Byte) (s : State) : (putRow v s).faultCode = s.faultCode := by simp [putRow]
@[simp] theorem putRow_faultIp (v : Byte) (s : State) : (putRow v s).faultIp = s.faultIp := by simp [putRow]
@[simp] theorem putRow_result (v : Byte) (s : State) : (putRow v s).result = s.result := by simp [putRow]
@[simp] theorem putRow_outLen (v : Byte) (s : State) : (putRow v s).outLen = s.outLen := by simp [putRow]
@[simp] theorem putRow_width (v : Byte) (s : State) : (putRow v s).width = s.width := by simp [putRow]
@[simp] theorem putRow_height (v : Byte) (s : State) : (putRow v s).height = s.height := by simp [putRow]
@[simp] theorem putRow_outSize (v : Byte) (s : State) : (putRow v s).outSize = s.outSize := by simp [putRow]
@[simp] theorem putRow_csize (v : Byte) (s : State) : (putRow v s).csize = s.csize := by simp [putRow]
@[simp] theorem putRow_innerLen (v : Byte) (s : State) : (putRow v s).innerLen = s.innerLen := by simp [putRow]
@[simp] theorem putRow_seed (v : Byte) (s : State) : (putRow v s).seed = s.seed := by simp [putRow]
@[simp] theorem putRow_inLen (v : Byte) (s : State) : (putRow v s).inLen = s.inLen := by simp [putRow]
@[simp] theorem putRow_mixLen (v : Byte) (s : State) : (putRow v s).mixLen = s.mixLen := by simp [putRow]
@[simp] theorem putRow_inMem (v : Byte) (s : State) : (putRow v s).inMem = s.inMem := by simp [putRow]
@[simp] theorem putRow_mixMem (v : Byte) (s : State) : (putRow v s).mixMem = s.mixMem := by simp [putRow]
@[simp] theorem putRow_outMem (v : Byte) (s : State) : (putRow v s).outMem = s.outMem := by simp [putRow]
@[simp] theorem putRow_mt (v : Byte) (s : State) : (putRow v s).mt = s.mt := by simp [putRow]
@[simp] theorem putRow_mti (v : Byte) (s : State) : (putRow v s).mti = s.mti := by simp [putRow]
@[simp] theorem putRow_ip (v : Byte) (s : State) : (putRow v s).ip = s.ip := by simp [putRow]
@[simp] theorem putRow_lim (v : Byte) (s : State) : (putRow v s).lim = s.lim := by simp [putRow]
@[simp] theorem putRow_x (v : Byte) (s : State) : (putRow v s).x = s.x := by simp [putRow]
@[simp] theorem putRow_plane (v : Byte) (s : State) : (putRow v s).plane = s.plane := by simp [putRow]
@[simp] theorem putRow_mask (v : Byte) (s : State) : (putRow v s).mask = s.mask := by simp [putRow]
@[simp] theorem putRow_sel (v : Byte) (s : State) : (putRow v s).sel = s.sel := by simp [putRow]
@[simp] theorem putRow_nVsp (v : Byte) (s : State) : (putRow v s).nVsp = s.nVsp := by simp [putRow]
@[simp] theorem putRow_b0 (v : Byte) (s : State) : (putRow v s).b0 = s.b0 := by simp [putRow]
@[simp] theorem putRow_b1 (v : Byte) (s : State) : (putRow v s).b1 = s.b1 := by simp [putRow]
@[simp] theorem putRow_op (v : Byte) (s : State) : (putRow v s).op = s.op := by simp [putRow]
@[simp] theorem putRow_phase (v : Byte) (s : State) : (putRow v s).phase = s.phase := by simp [putRow]
@[simp] theorem putRow_b (v : Byte) (s : State) : (putRow v s).b = s.b := by simp [putRow]
@[simp] theorem putRow_g (v : Byte) (s : State) : (putRow v s).g = s.g := by simp [putRow]
@[simp] theorem putRow_r (v : Byte) (s : State) : (putRow v s).r = s.r := by simp [putRow]
@[simp] theorem putRow_a (v : Byte) (s : State) : (putRow v s).a = s.a := by simp [putRow]
@[simp] theorem putRow_nSgd (v : Byte) (s : State) : (putRow v s).nSgd = s.nSgd := by simp [putRow]
@[simp] theorem putRow_cap (v : Byte) (s : State) : (putRow v s).cap = s.cap := by simp [putRow]
@[simp] theorem putRow_ctx (v : Byte) (s : State) : (putRow v s).ctx = s.ctx := by simp [putRow]
@[simp] theorem putRow_outValid (v : Byte) (s : State) : (putRow v s).outValid = s.outValid := by simp [putRow]
@[simp] theorem putRow_host (v : Byte) (s : State) : (putRow v s).host = s.host := by simp [putRow]
@[simp] theorem putRow_resetIn (v : Byte) (s : State) : (putRow v s).resetIn = s.resetIn := by simp [putRow]
@[simp] theorem putRow_y (v : Byte) (s : State) : (putRow v s).y = s.y + 1 := rfl

end Sys2Proof.Machine
end

