-- ==== Sys2Proof/Laws/Prng.lean ====
section
/-! SUPPORT. What the loops of `U-MT` do, word by word: seeding, regeneration, mixing. -/

namespace Sys2Proof.Machine

theorem mtAt_mod (mt : Vector Word 64) (k : Nat) : mtAt mt (k % 64) = mtAt mt k := by
  simp [mtAt]

theorem mtAt_mtPut (mt : Vector Word 64) (k i : Nat) (v : Word) :
    mtAt (mtPut mt k v) i = if i % 64 = k % 64 then v else mtAt mt i := by
  unfold mtAt mtPut mtN
  rw [Vector.getElem_set]
  split
  · rw [if_pos (by omega)]
  · rw [if_neg (by omega)]

/-- Words that agree at the 64 indices are the same. -/
theorem mt_ext {a b : Vector Word 64} (h : ∀ i, i < 64 → mtAt a i = mtAt b i) : a = b := by
  apply Vector.ext
  intro i hi
  have := h i hi
  simpa [mtAt, Nat.mod_eq_of_lt hi] using this

/-! ### Seeding (40_prng.md R121) -/

/-- The seeding recurrence at index `i`. -/
def seedNext (mt : Vector Word 64) (i : Nat) : Word :=
  mtInitMult * (mtAt mt (i - 1) ^^^ (mtAt mt (i - 1) >>> mtInitShift)) + BitVec.ofNat 32 i

theorem seedFold_spec (seed : Word) (mt : Vector Word 64) : ∀ n, n ≤ 63 →
    let r := (List.range' 1 n).foldl seedAt (mtPut mt 0 seed)
    mtAt r 0 = seed ∧ (∀ i, 1 ≤ i → i ≤ n → mtAt r i = seedNext r i) ∧
      ∀ i, n < i → i < 64 → mtAt r i = mtAt mt i := by
  intro n
  induction n with
  | zero =>
    intro _
    refine ⟨by simp [mtAt_mtPut], fun i h1 h2 => absurd h2 (by omega), fun i h1 h2 => ?_⟩
    simp only [List.range'_zero, List.foldl_nil, mtAt_mtPut]
    rw [if_neg (by omega)]
  | succ n ih =>
    intro hn
    obtain ⟨h0, h1, h2⟩ := ih (by omega)
    simp only [List.range'_1_concat, List.foldl_append, List.foldl_cons, List.foldl_nil]
    generalize (List.range' 1 n).foldl seedAt (mtPut mt 0 seed) = r at h0 h1 h2
    have hput : ∀ i, i < 64 → i ≠ 1 + n → mtAt (seedAt r (1 + n)) i = mtAt r i := fun i hi hne => by
      unfold seedAt
      rw [mtAt_mtPut, if_neg (by omega)]
    refine ⟨by rw [hput 0 (by omega) (by omega), h0], fun i hi hle => ?_, fun i hi hlt => ?_⟩
    · unfold seedNext
      rw [hput (i - 1) (by omega) (by omega)]
      by_cases hin : i = 1 + n
      · subst hin
        unfold seedAt
        rw [mtAt_mtPut, if_pos rfl]
      · rw [hput i (by omega) hin, h1 i hi (by omega)]
        rfl
    · rw [hput i hlt (by omega), h2 i (by omega) hlt]

/-- The seeded words: the seed, then each from the new word before it. -/
theorem seedWords_spec (seed : Word) (mt : Vector Word 64) :
    mtAt (seedWords seed mt) 0 = seed ∧
      ∀ i, 1 ≤ i → i < 64 → mtAt (seedWords seed mt) i = seedNext (seedWords seed mt) i :=
  have h := seedFold_spec seed mt 63 (Nat.le_refl _)
  ⟨h.1, fun i h1 h2 => h.2.1 i h1 (by omega)⟩

/-- Seeding discards the words it starts from. -/
theorem seedWords_eq (seed : Word) (mt mt' : Vector Word 64) : seedWords seed mt = seedWords seed mt' := by
  refine mt_ext fun i hi => ?_
  obtain ⟨h0, h1⟩ := seedWords_spec seed mt
  obtain ⟨h0', h1'⟩ := seedWords_spec seed mt'
  induction i with
  | zero => rw [h0, h0']
  | succ i ih =>
    rw [h1 _ (by omega) hi, h1' _ (by omega) hi]
    unfold seedNext
    rw [Nat.add_sub_cancel, ih (by omega)]

/-! ### Regeneration (40_prng.md R124) -/

/-- The new word at index `k`, from the word `far` 39 places on and the words `here` and `next`. -/
def twistWord (far here next : Word) : Word :=
  let yy := (here &&& mtUpper) ||| (next &&& mtLower)
  far ^^^ (yy >>> 1) ^^^ (if yy.getLsbD 0 then mtMatrixA else 0)

theorem twistAt_eq (mt : Vector Word 64) (k : Nat) :
    twistAt mt k = mtPut mt k (twistWord (mtAt mt (k + mtM)) (mtAt mt k) (mtAt mt (k + 1))) := rfl

theorem twistFold_spec (mt : Vector Word 64) : ∀ n, n ≤ 64 →
    let r := (List.range n).foldl twistAt mt
    (∀ i, i < n → mtAt r i =
      twistWord (mtAt (if i + 39 < 64 then mt else r) (i + 39)) (mtAt mt i) (mtAt (if i < 63 then mt else r) (i + 1))) ∧
      ∀ i, n ≤ i → i < 64 → mtAt r i = mtAt mt i := by
  intro n
  induction n with
  | zero => exact fun _ => ⟨fun i h => absurd h (by omega), fun _ _ _ => rfl⟩
  | succ n ih =>
    intro hn
    obtain ⟨h1, h2⟩ := ih (by omega)
    simp only [List.range_succ, List.foldl_append, List.foldl_cons, List.foldl_nil]
    generalize (List.range n).foldl twistAt mt = r at h1 h2
    have hput : ∀ i, i % 64 ≠ n → mtAt (twistAt r n) i = mtAt r i := fun i hne => by
      rw [twistAt_eq, mtAt_mtPut, if_neg (by omega)]
    refine ⟨fun i hi => ?_, fun i hi hlt => by rw [hput i (by omega), h2 i (by omega) hlt]⟩
    have hfar : mtAt (if i + 39 < 64 then mt else twistAt r n) (i + 39)
        = mtAt (if i + 39 < 64 then mt else r) (i + 39) := by
      split
      · rfl
      · exact hput _ (by omega)
    have hnext : mtAt (if i < 63 then mt else twistAt r n) (i + 1) = mtAt (if i < 63 then mt else r) (i + 1) := by
      split
      · rfl
      · exact hput _ (by omega)
    rw [hfar, hnext]
    by_cases hin : i = n
    · subst hin
      rw [twistAt_eq, mtAt_mtPut, if_pos rfl, h2 i (Nat.le_refl _) (by omega)]
      congr 1
      · split
        · exact h2 _ (by simp [mtM]) (by simpa [mtM])
        · rfl
      · split
        · exact h2 _ (by omega) (by omega)
        · rfl
    · rw [hput i (by omega), h1 i (by omega)]

/-- The regenerated words: each from old words, but for those replaced earlier in the same pass. -/
theorem twistWords_spec (mt : Vector Word 64) (k : Nat) (hk : k < 64) :
    mtAt (twistWords mt) k = twistWord (mtAt (if k + 39 < 64 then mt else twistWords mt) (k + 39)) (mtAt mt k)
      (mtAt (if k < 63 then mt else twistWords mt) (k + 1)) :=
  (twistFold_spec mt 64 (Nat.le_refl _)).1 k hk

/-! ### Mixing (40_prng.md R126) -/

theorem mixWords_spec (mix : Memory) (mt : Vector Word 64) : ∀ n, n ≤ 64 → ∀ i, i < 64 →
    mtAt (mixWords mix n mt) i = if i < n then mtAt mt i ^^^ Memory.readWord mix (4 * i) else mtAt mt i := by
  intro n
  induction n with
  | zero => intro _ i _; rw [if_neg (by omega)]; rfl
  | succ n ih =>
    intro hn i hi
    have e : mixWords mix (n + 1) mt = mixAt mix (mixWords mix n mt) n := by
      simp [mixWords, List.range_succ, List.foldl_append]
    rw [e, mixAt, mtAt_mtPut]
    by_cases hin : i = n
    · subst hin
      rw [if_pos rfl, if_pos (by omega), ih (by omega) i hi, if_neg (by omega), mixWordBytes]
    · rw [if_neg (by omega), ih (by omega) i hi]
      by_cases hlt : i < n
      · rw [if_pos hlt, if_pos (by omega)]
      · rw [if_neg hlt, if_neg (by omega)]

/-! ### The commands -/

/-- A draw's preparation changes the words and the cursor, nothing else. -/
theorem refill_frame (s : State) : refill s = { s with mt := (refill s).mt, mti := (refill s).mti } := by
  unfold refill
  split
  · rfl
  · split <;> dsimp only [twist, seedState]

theorem refill_ready {s : State} (h : s.mti < 64) : refill s = s := if_pos h

theorem refill_used {s : State} (h : s.mti = 64) : refill s = { s with mt := twistWords s.mt, mti := 0 } := by
  simp only [refill, h, mtN, mtUninitialized, Nat.lt_irrefl, if_false, show ¬ 64 = 65 by decide, twist]

theorem refill_unseeded {s : State} (h : s.mti = 65) :
    refill s = { s with mt := twistWords (seedWords mtDefaultSeed s.mt), mti := 0 } := by
  simp only [refill, h, mtN, mtUninitialized, show ¬ 65 < 64 by decide, if_false, if_true, twist, seedState]

/-- The three PRNG commands change the words, the cursor and `RESULT`, and end their command. -/
theorem execPrng_next {i : Instr} (hi : i = .prngSeed ∨ i = .prngMix ∨ i = .prngNext) (s : State) : ∃ mt mti result,
    exec i s = .next { s with mt := mt, mti := mti, result := result, status := .done, ctx := .host } := by
  rcases hi with rfl | rfl | rfl
  · refine ⟨seedWords s.seed s.mt, 64, s.result, ?_⟩
    dsimp only [exec, execPrngSeed, finish, seedState, mtSeedCursor]
  · refine ⟨mixWords s.mixMem (mixCount s) s.mt, s.mti, s.result, ?_⟩
    dsimp only [exec, execPrngMix, finish]
  · refine ⟨(refill s).mt, (refill s).mti + 1, temper (mtAt (refill s).mt (refill s).mti), ?_⟩
    dsimp only [exec, execPrngNext, finish, draw]
    rw [refill_frame]

end Sys2Proof.Machine
end

