-- ==== Sys2Proof/Laws/Memory.lean ====
section
/-! SUPPORT. The laws of the byte spaces: reading after writing, and the canonical form, which every operation keeps. -/

namespace Sys2Proof.Machine

@[simp] theorem Memory.read_nil (a : Nat) : Memory.read [] a = unlistedByte := rfl

@[simp] theorem Memory.wf_nil : Memory.wf [] := ⟨List.Pairwise.nil, by simp⟩

theorem Memory.mem_entry {a : Nat} {v : Byte} {c : Host.Cell} (h : c ∈ Memory.entry a v) :
    c = (a, v) ∧ v ≠ unlistedByte := by
  unfold Memory.entry at h
  split at h
  · simp at h
  · exact ⟨by simpa using h, ‹_›⟩

theorem Memory.wf_entry (a : Nat) (v : Byte) : Memory.wf (Memory.entry a v) := by
  unfold Memory.entry Memory.wf
  split <;> simp_all

theorem Memory.wf_tail {c : Host.Cell} {m : Memory} (h : Memory.wf (c :: m)) : Memory.wf m :=
  ⟨(List.pairwise_cons.1 h.1).2, fun d hd => h.2 d (List.mem_cons_of_mem c hd)⟩

/-- In a canonical memory every later entry has a higher address. -/
theorem Memory.wf_head_lt {c : Host.Cell} {m : Memory} (h : Memory.wf (c :: m)) : ∀ d ∈ m, c.1 < d.1 :=
  (List.pairwise_cons.1 h.1).1

/-- An address below every entry is unlisted. -/
theorem Memory.read_below {m : Memory} {a : Nat} (h : ∀ d ∈ m, a < d.1) : Memory.read m a = unlistedByte := by
  induction m with
  | nil => rfl
  | cons c m ih =>
    have hc : a ≠ c.1 := Nat.ne_of_lt (h c (List.mem_cons_self ..))
    simp only [Memory.read, hc, if_false]
    exact ih fun d hd => h d (List.mem_cons_of_mem c hd)

theorem Memory.read_entry_append (a : Nat) (v : Byte) (m : Memory) (b : Nat) :
    Memory.read (Memory.entry a v ++ m) b
      = if b = a then (if v = unlistedByte then Memory.read m a else v) else Memory.read m b := by
  unfold Memory.entry
  split <;> simp_all [Memory.read]

/-- What a write does to a read, in a canonical memory. -/
theorem Memory.read_write {m : Memory} (h : Memory.wf m) (a : Nat) (v : Byte) (b : Nat) :
    Memory.read (Memory.write m a v) b = if b = a then v else Memory.read m b := by
  induction m with
  | nil =>
    have := Memory.read_entry_append a v [] b
    simp only [List.append_nil] at this
    rw [Memory.write, this]
    split <;> simp_all
  | cons c m ih =>
    obtain ⟨k, w⟩ := c
    have hlt := Memory.wf_head_lt h
    simp only [Memory.write]
    split
    · rename_i hak
      rw [Memory.read_entry_append]
      have hb : Memory.read ((k, w) :: m) a = unlistedByte := by
        apply Memory.read_below
        intro d hd
        rcases List.mem_cons.1 hd with rfl | hd
        · exact hak
        · exact Nat.lt_trans hak (hlt d hd)
      split
      · split <;> simp_all
      · rfl
    · split
      · rename_i hak
        subst hak
        rw [Memory.read_entry_append, Memory.read_below hlt]
        by_cases hb : b = a
        · subst hb; by_cases hv : v = unlistedByte <;> simp [hv]
        · simp [hb, Memory.read]
      · rename_i h1 h2
        simp only [Memory.read]
        by_cases hbk : b = k
        · subst hbk
          have : b ≠ a := fun e => h2 e.symm
          simp [this]
        · simp only [hbk, if_false]
          exact ih (Memory.wf_tail h)

theorem Memory.read_write_same {m : Memory} (h : Memory.wf m) (a : Nat) (v : Byte) :
    Memory.read (Memory.write m a v) a = v := by rw [Memory.read_write h, if_pos rfl]

theorem Memory.read_write_other {m : Memory} (h : Memory.wf m) {a b : Nat} (v : Byte) (hb : b ≠ a) :
    Memory.read (Memory.write m a v) b = Memory.read m b := by rw [Memory.read_write h, if_neg hb]

/-- Every entry after a write was there before, or is the one written. -/
theorem Memory.mem_write {m : Memory} {a : Nat} {v : Byte} {c : Host.Cell} (h : c ∈ Memory.write m a v) :
    c ∈ m ∨ (c = (a, v) ∧ v ≠ unlistedByte) := by
  induction m with
  | nil => exact .inr (Memory.mem_entry h)
  | cons d m ih =>
    obtain ⟨k, w⟩ := d
    simp only [Memory.write] at h
    split at h
    · rcases List.mem_append.1 h with h | h
      · exact .inr (Memory.mem_entry h)
      · exact .inl h
    · split at h
      · rcases List.mem_append.1 h with h | h
        · exact .inr (Memory.mem_entry h)
        · exact .inl (List.mem_cons_of_mem _ h)
      · rcases List.mem_cons.1 h with rfl | h
        · exact .inl (List.mem_cons_self ..)
        · rcases ih h with h | h
          · exact .inl (List.mem_cons_of_mem _ h)
          · exact .inr h

theorem Memory.wf_cons {c : Host.Cell} {m : Memory} (hm : Memory.wf m) (hc : c.2 ≠ unlistedByte)
    (hlt : ∀ d ∈ m, c.1 < d.1) : Memory.wf (c :: m) :=
  ⟨List.pairwise_cons.2 ⟨hlt, hm.1⟩, fun d hd => by
    rcases List.mem_cons.1 hd with rfl | hd
    · exact hc
    · exact hm.2 d hd⟩

theorem Memory.wf_entry_append {a : Nat} {v : Byte} {m : Memory} (hm : Memory.wf m) (hlt : ∀ d ∈ m, a < d.1) :
    Memory.wf (Memory.entry a v ++ m) := by
  unfold Memory.entry
  split
  · simpa using hm
  · exact Memory.wf_cons hm ‹_› hlt

/-- A write keeps the canonical form. -/
theorem Memory.wf_write {m : Memory} (h : Memory.wf m) (a : Nat) (v : Byte) : Memory.wf (Memory.write m a v) := by
  induction m with
  | nil => exact Memory.wf_entry a v
  | cons d m ih =>
    obtain ⟨k, w⟩ := d
    have hlt := Memory.wf_head_lt h
    simp only [Memory.write]
    split
    · rename_i hak
      refine Memory.wf_entry_append h fun d hd => ?_
      rcases List.mem_cons.1 hd with rfl | hd
      · exact hak
      · exact Nat.lt_trans hak (hlt d hd)
    · split
      · rename_i hak
        subst hak
        exact Memory.wf_entry_append (Memory.wf_tail h) hlt
      · rename_i h1 h2
        refine Memory.wf_cons (ih (Memory.wf_tail h)) (h.2 _ (List.mem_cons_self ..)) fun d hd => ?_
        rcases Memory.mem_write hd with hd | ⟨rfl, -⟩
        · exact hlt d hd
        · exact Nat.lt_of_le_of_ne (Nat.le_of_not_lt h1) fun e => h2 e.symm

/-- Loading bytes keeps the canonical form. -/
theorem Memory.wf_load {m : Memory} (h : Memory.wf m) (a : Nat) (vs : List Byte) : Memory.wf (Memory.load m a vs) := by
  induction vs generalizing m a with
  | nil => exact h
  | cons v vs ih => exact ih (Memory.wf_write h a v) (a + 1)

/-- What a load does to a read. -/
theorem Memory.read_load {m : Memory} (h : Memory.wf m) (a : Nat) (vs : List Byte) (b : Nat) :
    Memory.read (Memory.load m a vs) b = if a ≤ b then (vs[b - a]?).getD (Memory.read m b) else Memory.read m b := by
  induction vs generalizing m a with
  | nil => simp [Memory.load]
  | cons v vs ih =>
    rw [Memory.load, ih (Memory.wf_write h a v), Memory.read_write h]
    rcases Nat.lt_trichotomy b a with hb | rfl | hb
    · simp [Nat.not_le.2 hb, show ¬ a + 1 ≤ b by omega, Nat.ne_of_lt hb]
    · simp
    · rw [if_pos (show a + 1 ≤ b by omega), if_pos (show a ≤ b by omega), if_neg (show b ≠ a by omega),
        show b - a = (b - (a + 1)) + 1 by omega, List.getElem?_cons_succ]

/-- Two canonical memories that read alike everywhere are one memory. -/
theorem Memory.ext_of_read {m m' : Memory} (h : Memory.wf m) (h' : Memory.wf m')
    (e : ∀ a, Memory.read m a = Memory.read m' a) : m = m' := by
  induction m generalizing m' with
  | nil =>
    cases m' with
    | nil => rfl
    | cons c m' =>
      have := e c.1
      simp only [Memory.read, if_true] at this
      exact absurd this.symm (h'.2 c (List.mem_cons_self ..))
  | cons c m ih =>
    cases m' with
    | nil =>
      have := e c.1
      simp only [Memory.read, if_true] at this
      exact absurd this (h.2 c (List.mem_cons_self ..))
    | cons d m' =>
      have hlt := Memory.wf_head_lt h
      have hlt' := Memory.wf_head_lt h'
      have hk : c.1 = d.1 := by
        rcases Nat.lt_trichotomy c.1 d.1 with hcd | hcd | hcd
        · have := e c.1
          rw [Memory.read_below (m := d :: m') (a := c.1)
            (fun x hx => by rcases List.mem_cons.1 hx with rfl | hx; exact hcd; exact Nat.lt_trans hcd (hlt' x hx))] at this
          simp only [Memory.read, if_true] at this
          exact absurd this (h.2 c (List.mem_cons_self ..))
        · exact hcd
        · have := e d.1
          rw [Memory.read_below (m := c :: m) (a := d.1)
            (fun x hx => by rcases List.mem_cons.1 hx with rfl | hx; exact hcd; exact Nat.lt_trans hcd (hlt x hx))] at this
          simp only [Memory.read, if_true] at this
          exact absurd this.symm (h'.2 d (List.mem_cons_self ..))
      have hv : c.2 = d.2 := by
        have := e c.1
        simpa [Memory.read, hk] using this
      have htail : m = m' := by
        refine ih (Memory.wf_tail h) (Memory.wf_tail h') fun a => ?_
        have := e a
        simp only [Memory.read] at this
        by_cases ha : a = c.1
        · subst ha
          rw [Memory.read_below hlt, Memory.read_below (hk ▸ hlt')]
        · rwa [if_neg ha, if_neg (hk ▸ ha)] at this
      rw [htail, show c = d from Prod.ext hk hv]

@[simp] theorem Memory.length_slice (m : Memory) (a n : Nat) : (Memory.slice m a n).length = n := by
  simp [Memory.slice]

theorem Memory.getElem?_slice {m : Memory} {a n k : Nat} (h : k < n) :
    (Memory.slice m a n)[k]? = some (Memory.read m (a + k)) := by
  simp [Memory.slice, h]

end Sys2Proof.Machine
end

