-- ==== Sys2Proof/Laws/Sgd.lean ====
section
/-! SUPPORT. What the SGD run loops do, said once: how many slots they write before they end or raise, with which bytes,
and that they write nothing else. -/

namespace Sys2Proof.Machine

/-! ### Slots -/

theorem SlotsWritten.none (lanes : Nat) (s : State) (f : Nat → Nat → Byte) : SlotsWritten lanes s s 0 f where
  cursor := by omega
  bytes a := by rw [if_neg (by omega)]

/-- One slot, then the rest. -/
theorem SlotsWritten.cons {lanes k : Nat} {s u t : State} {f : Nat → Nat → Byte}
    (h : SlotsWritten lanes s u 1 f) (h' : SlotsWritten lanes u t k fun i c => f (i + 1) c) :
    SlotsWritten lanes s t (k + 1) f where
  cursor := by rw [h'.cursor, h.cursor]; omega
  bytes a := by
    have hc := h.cursor
    rw [h'.bytes, h.bytes]
    by_cases h1 : u.op ≤ a
    · have e1 : (a - u.op) % 4 = (a - s.op) % 4 := by omega
      have e2 : (a - s.op) / 4 = (a - u.op) / 4 + 1 := by omega
      rw [e1, e2]
      by_cases h2 : (a - s.op) % 4 < lanes ∧ (a - u.op) / 4 < k
      · rw [if_pos ⟨h1, h2⟩, if_pos ⟨by omega, h2.1, by omega⟩]
      · rw [if_neg (by omega), if_neg (by omega), if_neg (by omega)]
    · rw [if_neg (by omega)]
      by_cases h2 : s.op ≤ a ∧ (a - s.op) % 4 < lanes
      · rw [if_pos (by omega), if_pos (by omega)]
      · rw [if_neg (by omega), if_neg (by omega)]

theorem SlotsWritten.congr {lanes k : Nat} {s t : State} {f f' : Nat → Nat → Byte} (h : SlotsWritten lanes s t k f)
    (e : ∀ i c, i < k → c < lanes → f i c = f' i c) : SlotsWritten lanes s t k f' where
  cursor := h.cursor
  bytes a := by
    rw [h.bytes]
    split
    · exact e _ _ (by omega) (by omega)
    · rfl

/-! ### Triples in memory -/

theorem Memory.wf_storeTriple {m : Memory} (h : Memory.wf m) (a : Nat) (vb vg vr : Byte) :
    Memory.wf (storeTriple m a vb vg vr) :=
  Memory.wf_write (Memory.wf_write (Memory.wf_write h _ _) _ _) _ _

theorem Memory.read_storeTriple {m : Memory} (h : Memory.wf m) (a : Nat) (vb vg vr : Byte) (x : Nat) :
    Memory.read (storeTriple m a vb vg vr) x
      = if a ≤ x ∧ x - a < 3 then laneOf vb vg vr (x - a) else Memory.read m x := by
  have h1 := Memory.wf_write h a vb
  have h2 := Memory.wf_write h1 (a + 1) vg
  rw [storeTriple, Memory.read_write h2, Memory.read_write h1, Memory.read_write h]
  unfold laneOf
  split
  · rw [if_pos (by omega), if_neg (by omega), if_neg (by omega)]
  · split
    · rw [if_pos (by omega), if_neg (by omega), if_pos (by omega)]
    · split
      · rw [if_pos (by omega), if_pos (by omega)]
      · rw [if_neg (by omega)]

/-! ### One slot -/

/-- An alpha slot is written, or `OutputOverrun` is raised with nothing written (42_sgd_alpha.md R176). -/
theorem alphaSlot_eq (v : Byte) (s : State) :
    alphaSlot v s = if s.outSize.toNat ≤ s.op then .stop (raise .outputOverrun s.ip s)
      else .cont { s with outMem := Memory.write s.outMem s.op v, op := s.op + 4, nSgd := s.nSgd - 1 } := by
  unfold alphaSlot outWrite
  split <;> rfl

/-- A colour slot is written, or `OutputOverrun` is raised with nothing written (43_sgd_color.md R193). -/
theorem colorSlot_eq (s : State) :
    colorSlot s = if s.outSize.toNat ≤ s.op + 2 then .stop (raise .outputOverrun s.ip s)
      else .cont { s with
        outMem := storeTriple s.outMem s.op s.b s.g s.r, op := s.op + 4, nSgd := s.nSgd - 1 } := by
  unfold colorSlot put3
  split <;> rfl

theorem SlotsWritten.alphaOne {s : State} (h : s.MemOk) (v : Byte) (n : Nat) :
    SlotsWritten 1 s { s with outMem := Memory.write s.outMem s.op v, op := s.op + 4, nSgd := n } 1 fun _ _ => v where
  cursor := rfl
  bytes a := by
    dsimp only
    rw [Memory.read_write h.outOk]
    split
    · rw [if_pos (by omega)]
    · rw [if_neg (by omega)]

theorem SlotsWritten.colorOne {s : State} (h : s.MemOk) (n : Nat) :
    SlotsWritten 3 s { s with outMem := storeTriple s.outMem s.op s.b s.g s.r, op := s.op + 4, nSgd := n } 1
      fun _ c => laneOf s.b s.g s.r c where
  cursor := rfl
  bytes a := by
    dsimp only
    rw [Memory.read_storeTriple h.outOk]
    by_cases h1 : s.op ≤ a ∧ a - s.op < 3
    · rw [if_pos h1, if_pos (by omega), show (a - s.op) % 4 = a - s.op by omega]
    · rw [if_neg h1, if_neg (by omega)]

theorem State.MemOk.setOut {s : State} (h : s.MemOk) {m : Memory} (hm : Memory.wf m) (o n : Nat) :
    State.MemOk { s with outMem := m, op := o, nSgd := n } :=
  ⟨h.inOk, h.mixOk, hm, h.hb0Ok, h.hb1Ok⟩

/-! ### Runs of one byte or one triple -/

/-- The state after an alpha slot. -/
def alphaNext (v : Byte) (s : State) : State :=
  { s with outMem := Memory.write s.outMem s.op v, op := s.op + 4, nSgd := s.nSgd - 1 }

/-- The state after a colour slot. -/
def colorNext (s : State) : State :=
  { s with outMem := storeTriple s.outMem s.op s.b s.g s.r, op := s.op + 4, nSgd := s.nSgd - 1 }

/-- `A_RLE`'s loop: it writes as many slots as asked for and as fit, then goes on, or raises `OutputOverrun`. -/
theorem alphaRun_spec (v : Byte) : ∀ (n : Nat) (s : State), s.MemOk → ∃ t : State,
    SlotsWritten 1 s t (min n (alphaFit s)) (fun _ _ => v) ∧
    t = { s with outMem := t.outMem, op := t.op, nSgd := s.nSgd - min n (alphaFit s) } ∧ t.MemOk ∧
    alphaRun v n s = if n ≤ alphaFit s then .cont t else .stop (raise .outputOverrun t.ip t) := by
  intro n
  induction n with
  | zero => exact fun s hm => ⟨s, by simpa using SlotsWritten.none 1 s _, by simp, hm, by simp [alphaRun]⟩
  | succ n ih =>
    intro s hm
    by_cases hfit : s.outSize.toNat ≤ s.op
    · have h0 : alphaFit s = 0 := by unfold alphaFit; omega
      refine ⟨s, by simpa [h0] using SlotsWritten.none 1 s _, by simp [h0], hm, ?_⟩
      simp [alphaRun, alphaSlot_eq, hfit, h0, Flow.andThen]
    · have h1 : alphaFit s = alphaFit (alphaNext v s) + 1 := by
        simp only [alphaFit, alphaNext]; omega
      obtain ⟨t, hw, hfr, htm, hrun⟩ :=
        ih (alphaNext v s) (hm.setOut (Memory.wf_write hm.outOk s.op v) (s.op + 4) (s.nSgd - 1))
      refine ⟨t, ?_, ?_, htm, ?_⟩
      · rw [h1, Nat.add_min_add_right]
        exact SlotsWritten.cons (SlotsWritten.alphaOne hm v _) hw
      · rw [hfr, h1]
        simp only [alphaNext, State.mk.injEq, and_true, true_and]
        omega
      · rw [alphaRun, alphaSlot_eq, if_neg hfit, h1]
        show alphaRun v n (alphaNext v s) = _
        rw [hrun]
        simp only [Nat.add_le_add_iff_right]

/-- `C_REP`'s loop, in the same way. -/
theorem colorRun_spec : ∀ (n : Nat) (s : State), s.MemOk → ∃ t : State,
    SlotsWritten 3 s t (min n (colorFit s)) (fun _ c => laneOf s.b s.g s.r c) ∧
    t = { s with outMem := t.outMem, op := t.op, nSgd := s.nSgd - min n (colorFit s) } ∧ t.MemOk ∧
    colorRun n s = if n ≤ colorFit s then .cont t else .stop (raise .outputOverrun t.ip t) := by
  intro n
  induction n with
  | zero => exact fun s hm => ⟨s, by simpa using SlotsWritten.none 3 s _, by simp, hm, by simp [colorRun]⟩
  | succ n ih =>
    intro s hm
    by_cases hfit : s.outSize.toNat ≤ s.op + 2
    · have h0 : colorFit s = 0 := by unfold colorFit; omega
      refine ⟨s, by simpa [h0] using SlotsWritten.none 3 s _, by simp [h0], hm, ?_⟩
      simp [colorRun, colorSlot_eq, hfit, h0, Flow.andThen]
    · have h1 : colorFit s = colorFit (colorNext s) + 1 := by
        simp only [colorFit, colorNext]; omega
      obtain ⟨t, hw, hfr, htm, hrun⟩ :=
        ih (colorNext s) (hm.setOut (Memory.wf_storeTriple hm.outOk s.op s.b s.g s.r) (s.op + 4) (s.nSgd - 1))
      refine ⟨t, ?_, ?_, htm, ?_⟩
      · rw [h1, Nat.add_min_add_right]
        exact SlotsWritten.cons (SlotsWritten.colorOne hm _) hw
      · rw [hfr, h1]
        simp only [colorNext, State.mk.injEq, and_true, true_and]
        omega
      · rw [colorRun, colorSlot_eq, if_neg hfit, h1]
        show colorRun n (colorNext s) = _
        rw [hrun]
        simp only [Nat.add_le_add_iff_right]

/-! ### Literal runs -/

/-- How many literal alpha bytes are fetched and written before the run ends or a check fails. -/
def alphaLitCount (n : Nat) (s : State) : Nat := min n (min (bytesLeft s) (alphaFit s))

/-- `A_LIT`'s loop: literals are fetched and written in turn (42_sgd_alpha.md R174) until the run is done, or a literal
lies past the section's end, or a fetched literal has no place in `OUT`. -/
theorem alphaLits_spec : ∀ (n : Nat) (s : State), s.MemOk → ∃ t : State,
    SlotsWritten 1 s t (alphaLitCount n s) (fun i _ => alphaByte (Memory.read s.inMem (s.ip + i))) ∧
    t = { s with
      outMem := t.outMem, op := t.op, ip := s.ip + alphaLitCount n s, a := t.a,
      nSgd := s.nSgd - alphaLitCount n s } ∧
    (0 < alphaLitCount n s → t.a = Memory.read s.inMem (s.ip + alphaLitCount n s - 1)) ∧
    (alphaLitCount n s = 0 → t.a = s.a) ∧ t.MemOk ∧
    alphaLits n s =
      if alphaLitCount n s = n then .cont t
      else if bytesLeft s ≤ alphaFit s then .stop (raise .streamUnderrun t.ip t)
      else .stop (raise .outputOverrun (t.ip + 1) { t with ip := t.ip + 1, a := Memory.read t.inMem t.ip }) := by
  intro n
  induction n with
  | zero =>
    intro s hm
    have h0 : alphaLitCount 0 s = 0 := by simp [alphaLitCount]
    exact ⟨s, by simpa [h0] using SlotsWritten.none 1 s _, by simp [h0], by simp [h0], fun _ => rfl, hm,
      by simp [alphaLits, h0]⟩
  | succ n ih =>
    intro s hm
    by_cases hin : s.lim < s.ip + 1
    · have h0 : bytesLeft s = 0 := by unfold bytesLeft; omega
      have h1 : alphaLitCount (n + 1) s = 0 := by unfold alphaLitCount; omega
      refine ⟨s, by simpa [h1] using SlotsWritten.none 1 s _, by simp [h1], by simp [h1], fun _ => rfl, hm, ?_⟩
      simp [alphaLits, fetchByte, hin, h0, h1, Flow.andThen]
    by_cases hfit : s.outSize.toNat ≤ s.op
    · have h0 : alphaFit s = 0 := by unfold alphaFit; omega
      have h1 : alphaLitCount (n + 1) s = 0 := by unfold alphaLitCount; omega
      have h2 : ¬ bytesLeft s ≤ 0 := by unfold bytesLeft; omega
      refine ⟨s, by simpa [h1] using SlotsWritten.none 1 s _, by simp [h1], by simp [h1], fun _ => rfl, hm, ?_⟩
      rw [h1, h0, if_neg (by omega), if_neg h2]
      simp [alphaLits, fetchByte, hin, alphaSlot_eq, hfit, Flow.andThen, raise]
    · let u : State := { s with
        ip := s.ip + 1, a := Memory.read s.inMem s.ip,
        outMem := Memory.write s.outMem s.op (alphaByte (Memory.read s.inMem s.ip)), op := s.op + 4,
        nSgd := s.nSgd - 1 }
      have hum : u.MemOk := ⟨hm.inOk, hm.mixOk, Memory.wf_write hm.outOk _ _, hm.hb0Ok, hm.hb1Ok⟩
      have hb : bytesLeft s = bytesLeft u + 1 := by simp only [bytesLeft, u]; omega
      have hf : alphaFit s = alphaFit u + 1 := by simp only [alphaFit, u]; omega
      have hc : alphaLitCount (n + 1) s = alphaLitCount n u + 1 := by unfold alphaLitCount; omega
      have hstep : alphaLits (n + 1) s = alphaLits n u := by
        simp [alphaLits, fetchByte, hin, alphaSlot_eq, hfit, Flow.andThen, u]
      obtain ⟨t, hw, hfr, ha, ha0, htm, hrun⟩ := ih u hum
      refine ⟨t, ?_, ?_, fun _ => ?_, fun h => absurd h (by omega), htm, ?_⟩
      · rw [hc]
        have h1 : SlotsWritten 1 s u 1 fun i _ => alphaByte (Memory.read s.inMem (s.ip + i)) :=
          { cursor := rfl
            bytes := fun a => by
              have := (SlotsWritten.alphaOne hm (alphaByte (Memory.read s.inMem s.ip)) 0).bytes a
              simp only [u] at this ⊢
              rw [this]
              split
              · rw [show (a - s.op) / 4 = 0 by omega, Nat.add_zero]
              · rfl }
        refine SlotsWritten.cons h1 (hw.congr fun i _ _ _ => ?_)
        show alphaByte (Memory.read s.inMem (s.ip + 1 + i)) = _
        rw [show s.ip + 1 + i = s.ip + (i + 1) by omega]
      · rw [hfr, hc]
        simp only [u, State.mk.injEq, and_true, true_and]
        omega
      · by_cases h : alphaLitCount n u = 0
        · rw [ha0 h, hc, h]; rfl
        · rw [ha (by omega), hc]
          show Memory.read s.inMem (s.ip + 1 + alphaLitCount n u - 1) = _
          congr 1; omega
      · rw [hstep, hrun, hc, hb, hf]
        simp only [Nat.add_right_cancel_iff, Nat.add_le_add_iff_right]

/-- How many literal triples are fetched and written before the run ends or a check fails. -/
def colorLitCount (n : Nat) (s : State) : Nat := min n (min (bytesLeft s / 3) (colorFit s))

/-- `C_LIT`'s loop: a triple is fetched whole before it is written (43_sgd_color.md R194). -/
theorem colorLits_spec : ∀ (n : Nat) (s : State), s.MemOk → ∃ t : State,
    SlotsWritten 3 s t (colorLitCount n s) (fun i c => Memory.read s.inMem (s.ip + 3 * i + c)) ∧
    t = { s with
      outMem := t.outMem, op := t.op, ip := s.ip + 3 * colorLitCount n s,
      b := if colorLitCount n s = 0 then s.b else Memory.read s.inMem (s.ip + 3 * colorLitCount n s - 3),
      g := if colorLitCount n s = 0 then s.g else Memory.read s.inMem (s.ip + 3 * colorLitCount n s - 2),
      r := if colorLitCount n s = 0 then s.r else Memory.read s.inMem (s.ip + 3 * colorLitCount n s - 1),
      nSgd := s.nSgd - colorLitCount n s } ∧ t.MemOk ∧
    (colorLitCount n s = n → colorLits n s = .cont t) ∧
    (colorLitCount n s < n → bytesLeft s / 3 ≤ colorFit s →
      colorLits n s = .stop (raise .streamUnderrun (s.ip + bytesLeft s) { t with
        ip := s.ip + bytesLeft s,
        b := if bytesLeft s % 3 = 0 then t.b else Memory.read s.inMem (s.ip + 3 * colorLitCount n s),
        g := if bytesLeft s % 3 = 2 then Memory.read s.inMem (s.ip + 3 * colorLitCount n s + 1) else t.g })) ∧
    (colorLitCount n s < n → colorFit s < bytesLeft s / 3 →
      colorLits n s = .stop (raise .outputOverrun (t.ip + 3)
        { t with ip := t.ip + 3, b := Memory.read t.inMem t.ip, g := Memory.read t.inMem (t.ip + 1),
                 r := Memory.read t.inMem (t.ip + 2) })) := by
  intro n
  induction n with
  | zero =>
    intro s hm
    have h0 : colorLitCount 0 s = 0 := by simp [colorLitCount]
    exact ⟨s, by simpa [h0] using SlotsWritten.none 3 s _, by simp [h0], hm, fun _ => rfl,
      fun h => absurd h (by omega), fun h => absurd h (by omega)⟩
  | succ n ih =>
    intro s hm
    by_cases hin : bytesLeft s < 3
    · have h0 : bytesLeft s / 3 = 0 := by omega
      have h1 : colorLitCount (n + 1) s = 0 := by unfold colorLitCount; omega
      refine ⟨s, by simpa [h1] using SlotsWritten.none 3 s _, by simp [h1], hm, fun h => absurd h (by omega),
        fun _ _ => ?_, fun _ h => absurd h (by omega)⟩
      rw [h1]
      unfold bytesLeft at hin ⊢
      obtain ⟨k, hk⟩ : ∃ k, s.lim - s.ip = k := ⟨_, rfl⟩
      rw [hk] at hin ⊢
      interval_cases k
      · simp [colorLits, literalTriple, fetchByte, show s.lim < s.ip + 1 by omega, Flow.andThen]
      · simp [colorLits, literalTriple, fetchByte, show ¬ s.lim < s.ip + 1 by omega,
          show s.lim < s.ip + 1 + 1 by omega, Flow.andThen]
      · simp [colorLits, literalTriple, fetchByte, show ¬ s.lim < s.ip + 1 by omega,
          show ¬ s.lim < s.ip + 1 + 1 by omega, show s.lim < s.ip + 1 + 1 + 1 by omega, Flow.andThen]
    have i1 : ¬ s.lim < s.ip + 1 := by unfold bytesLeft at hin; omega
    have i2 : ¬ s.lim < s.ip + 1 + 1 := by unfold bytesLeft at hin; omega
    have i3 : ¬ s.lim < s.ip + 1 + 1 + 1 := by unfold bytesLeft at hin; omega
    by_cases hfit : s.outSize.toNat ≤ s.op + 2
    · have h0 : colorFit s = 0 := by unfold colorFit; omega
      have h1 : colorLitCount (n + 1) s = 0 := by unfold colorLitCount; omega
      refine ⟨s, by simpa [h1] using SlotsWritten.none 3 s _, by simp [h1], hm, fun h => absurd h (by omega),
        fun _ h => absurd h (by omega), fun _ _ => ?_⟩
      simp [colorLits, literalTriple, fetchByte, i1, i2, i3, colorSlot_eq, hfit, Flow.andThen, raise]
    · let u : State := { s with
        ip := s.ip + 3, b := Memory.read s.inMem s.ip, g := Memory.read s.inMem (s.ip + 1),
        r := Memory.read s.inMem (s.ip + 2),
        outMem := storeTriple s.outMem s.op (Memory.read s.inMem s.ip) (Memory.read s.inMem (s.ip + 1))
          (Memory.read s.inMem (s.ip + 2)),
        op := s.op + 4, nSgd := s.nSgd - 1 }
      have hum : u.MemOk := ⟨hm.inOk, hm.mixOk, Memory.wf_storeTriple hm.outOk _ _ _ _, hm.hb0Ok, hm.hb1Ok⟩
      have hb : bytesLeft s = bytesLeft u + 3 := by simp only [bytesLeft, u] at hin ⊢; omega
      have hb3 : bytesLeft s / 3 = bytesLeft u / 3 + 1 := by omega
      have hf : colorFit s = colorFit u + 1 := by simp only [colorFit, u]; omega
      have hc : colorLitCount (n + 1) s = colorLitCount n u + 1 := by unfold colorLitCount; omega
      have hstep : colorLits (n + 1) s = colorLits n u := by
        simp [colorLits, literalTriple, fetchByte, i1, i2, i3, colorSlot_eq, hfit, Flow.andThen, u]
      obtain ⟨t, hw, hfr, htm, hrun, hund, hov⟩ := ih u hum
      refine ⟨t, ?_, ?_, htm, fun h => ?_, fun h h' => ?_, fun h h' => ?_⟩
      · rw [hc]
        have h1 : SlotsWritten 3 s u 1 fun i c => Memory.read s.inMem (s.ip + 3 * i + c) :=
          { cursor := rfl
            bytes := fun a => by
              simp only [u]
              rw [Memory.read_storeTriple hm.outOk]
              by_cases h1 : s.op ≤ a ∧ a - s.op < 3
              · rw [if_pos h1, if_pos (by omega)]
                rw [show (a - s.op) % 4 = a - s.op by omega, show (a - s.op) / 4 = 0 by omega]
                unfold laneOf
                split
                · rw [show a - s.op = 0 by omega]; rfl
                · split
                  · rw [show a - s.op = 1 by omega]
                  · rw [show a - s.op = 2 by omega]
              · rw [if_neg h1, if_neg (by omega)] }
        refine SlotsWritten.cons h1 (hw.congr fun i c _ _ => ?_)
        show Memory.read s.inMem (s.ip + 3 + 3 * i + c) = _
        rw [show s.ip + 3 + 3 * i + c = s.ip + 3 * (i + 1) + c by omega]
      · rw [hfr, hc]
        simp only [u, State.mk.injEq, and_true, true_and, Nat.add_eq_zero_iff, one_ne_zero, and_false, if_false]
        refine ⟨by omega, ?_, ?_, ?_, by omega⟩ <;> split <;> congr 1 <;> omega
      · rw [hstep]; exact hrun (by omega)
      · rw [hstep, hund (by omega) (by omega), hc, hb, Nat.add_mod_right]
        simp only [u, show s.ip + 3 + bytesLeft u = s.ip + (bytesLeft u + 3) by omega,
          show s.ip + 3 + 3 * colorLitCount n u = s.ip + 3 * (colorLitCount n u + 1) by omega]
      · rw [hstep, hov (by omega) (by omega)]

/-! ### What any SGD run leaves: no premise on the state -/

/-- How a flow ends: with `P` of the state it goes on from, or with `Q` of the state a raise left. -/
def Flow.Ends (f : Flow) (P Q : State → Prop) : Prop :=
  match f with
  | .cont s => P s
  | .stop s => Q s

theorem Flow.Ends.andThen {f : Flow} {k : State → Flow} {P P' Q : State → Prop} (h : f.Ends P' Q)
    (hk : ∀ s, P' s → (k s).Ends P Q) : (f.andThen k).Ends P Q := by
  cases f with
  | cont s => exact hk s h
  | stop s => exact h

theorem Flow.Ends.state {f : Flow} {P Q : State → Prop} (h : f.Ends P Q) : P f.state ∨ Q f.state := by
  cases f with
  | cont s => exact .inl h
  | stop s => exact .inr h

/-- From `s` to `u` a run of slots has fetched and written: it has changed the cursors, the operand registers and bytes
of its own lanes of `OUT` inside the buffer, and nothing else. -/
structure SlotsMoved (lanes : Nat) (s u : State) : Prop where
  frame : u = { s with
    ip := u.ip, outMem := u.outMem, op := u.op, b := u.b, g := u.g, r := u.r, a := u.a, nSgd := u.nSgd }
  ipLow : s.ip ≤ u.ip
  ipHigh : u.ip ≤ max s.ip s.lim
  opLow : s.op ≤ u.op
  opLane : u.op % 4 = s.op % 4
  opInside : u.op = s.op ∨ 4 ≤ u.op ∧ u.op - 4 + (lanes - 1) < s.outSize.toNat
  mem : Memory.wf s.outMem → Memory.wf u.outMem
  cells : ∀ c ∈ u.outMem, c ∈ s.outMem ∨ c.1 < s.outSize.toNat
  others : Memory.wf s.outMem → ∀ a, ¬(s.op ≤ a ∧ (a - s.op) % 4 < lanes) →
    Memory.read u.outMem a = Memory.read s.outMem a

theorem SlotsMoved.refl (lanes : Nat) (s : State) : SlotsMoved lanes s s :=
  ⟨rfl, Nat.le_refl _, Nat.le_max_left _ _, Nat.le_refl _, rfl, .inl rfl, id, fun _ h => .inl h, fun _ _ _ => rfl⟩

theorem SlotsMoved.trans {lanes : Nat} {s u t : State} (h : SlotsMoved lanes s u) (h' : SlotsMoved lanes u t) :
    SlotsMoved lanes s t := by
  have hl : u.lim = s.lim := by rw [h.frame]
  have hs : u.outSize = s.outSize := by rw [h.frame]
  have h1 := h.ipHigh; have h2 := h'.ipHigh; have h3 := h.opLane; have h4 := h'.opLane
  have h5 := h.opInside; have h6 := h'.opInside; have h7 := h.opLow
  rw [hl] at h2
  rw [hs] at h6
  refine ⟨?_, Nat.le_trans h.ipLow h'.ipLow, by omega, Nat.le_trans h.opLow h'.opLow, by omega, by omega,
    fun hw => h'.mem (h.mem hw), fun c hc => ?_, fun hw a ha => ?_⟩
  · rw [h'.frame, h.frame]
  · rcases h'.cells c hc with hc | hc
    · exact h.cells c hc
    · exact .inr (hs ▸ hc)
  · rw [h'.others (h.mem hw) a (by omega), h.others hw a ha]

/-- A raise of `StreamUnderrun` or `OutputOverrun` after a run of slots. -/
def SlotsRaised (lanes : Nat) (s w : State) : Prop :=
  ∃ u f, SlotsMoved lanes s u ∧ w = raise f u.ip u ∧ (f = .streamUnderrun ∨ f = .outputOverrun)

theorem SlotsRaised.from {lanes : Nat} {s u w : State} (h : SlotsMoved lanes s u) (h' : SlotsRaised lanes u w) :
    SlotsRaised lanes s w := by
  obtain ⟨v, f, hv, rest⟩ := h'
  exact ⟨v, f, h.trans hv, rest⟩

theorem Flow.Ends.from {lanes : Nat} {s u : State} (h : SlotsMoved lanes s u) {f : Flow}
    (h' : f.Ends (SlotsMoved lanes u) (SlotsRaised lanes u)) : f.Ends (SlotsMoved lanes s) (SlotsRaised lanes s) := by
  cases f with
  | cont t => exact SlotsMoved.trans h h'
  | stop t => exact SlotsRaised.from h h'

/-- Setting operand registers is a move. -/
theorem SlotsMoved.registers (lanes : Nat) (s : State) (vb vg vr va : Byte) (n : Nat) :
    SlotsMoved lanes s { s with b := vb, g := vg, r := vr, a := va, nSgd := n } :=
  ⟨rfl, Nat.le_refl _, Nat.le_max_left _ _, Nat.le_refl _, rfl, .inl rfl, id, fun _ h => .inl h, fun _ _ _ => rfl⟩

theorem fetchByte_moved {lanes : Nat} {s : State} {k : Byte → State → Flow}
    (hk : ∀ v, (k v { s with ip := s.ip + 1 }).Ends (SlotsMoved lanes { s with ip := s.ip + 1 })
      (SlotsRaised lanes { s with ip := s.ip + 1 })) :
    (fetchByte s k).Ends (SlotsMoved lanes s) (SlotsRaised lanes s) := by
  unfold fetchByte
  split
  · exact ⟨s, _, SlotsMoved.refl lanes s, rfl, .inl rfl⟩
  · refine Flow.Ends.from ?_ (hk _)
    exact ⟨rfl, Nat.le_succ _, by simp only; omega, Nat.le_refl _, rfl, .inl rfl, id, fun _ h => .inl h,
      fun _ _ _ => rfl⟩

theorem alphaSlot_moved (v : Byte) (s : State) : (alphaSlot v s).Ends (SlotsMoved 1 s) (SlotsRaised 1 s) := by
  rw [alphaSlot_eq]
  split
  · exact ⟨s, _, SlotsMoved.refl 1 s, rfl, .inr rfl⟩
  · refine ⟨rfl, Nat.le_refl _, Nat.le_max_left _ _, by simp only; omega, by simp only; omega, by simp only; omega,
      fun hw => Memory.wf_write hw _ _, fun c hc => ?_, fun hw a ha => ?_⟩
    · rcases Memory.mem_write hc with hc | ⟨rfl, -⟩
      · exact .inl hc
      · exact .inr (by simp only; omega)
    · exact Memory.read_write_other hw _ (by omega)

theorem colorSlot_moved (s : State) : (colorSlot s).Ends (SlotsMoved 3 s) (SlotsRaised 3 s) := by
  rw [colorSlot_eq]
  split
  · exact ⟨s, _, SlotsMoved.refl 3 s, rfl, .inr rfl⟩
  · refine ⟨rfl, Nat.le_refl _, Nat.le_max_left _ _, by simp only; omega, by simp only; omega, by simp only; omega,
      fun hw => Memory.wf_storeTriple hw _ _ _ _, fun c hc => ?_, fun hw a ha => ?_⟩
    · rcases Memory.mem_write hc with hc | ⟨rfl, -⟩
      · rcases Memory.mem_write hc with hc | ⟨rfl, -⟩
        · rcases Memory.mem_write hc with hc | ⟨rfl, -⟩
          · exact .inl hc
          · exact .inr (by simp only; omega)
        · exact .inr (by simp only; omega)
      · exact .inr (by simp only; omega)
    · rw [Memory.read_storeTriple hw, if_neg (by omega)]

theorem alphaRun_moved (v : Byte) : ∀ (n : Nat) (s : State),
    (alphaRun v n s).Ends (SlotsMoved 1 s) (SlotsRaised 1 s) := by
  intro n
  induction n with
  | zero => exact fun s => SlotsMoved.refl 1 s
  | succ n ih => exact fun s => (alphaSlot_moved v s).andThen fun t ht => (ih t).from ht

theorem colorRun_moved : ∀ (n : Nat) (s : State), (colorRun n s).Ends (SlotsMoved 3 s) (SlotsRaised 3 s) := by
  intro n
  induction n with
  | zero => exact fun s => SlotsMoved.refl 3 s
  | succ n ih => exact fun s => (colorSlot_moved s).andThen fun t ht => (ih t).from ht

theorem alphaLits_moved : ∀ (n : Nat) (s : State), (alphaLits n s).Ends (SlotsMoved 1 s) (SlotsRaised 1 s) := by
  intro n
  induction n with
  | zero => exact fun s => SlotsMoved.refl 1 s
  | succ n ih =>
    intro s
    refine Flow.Ends.andThen (fetchByte_moved fun v => ?_) fun t ht => (ih t).from ht
    exact (alphaSlot_moved _ _).from (SlotsMoved.registers 1 _ _ _ _ _ _)

theorem literalTriple_moved (s : State) : (literalTriple s).Ends (SlotsMoved 3 s) (SlotsRaised 3 s) :=
  fetchByte_moved fun _ => Flow.Ends.from (SlotsMoved.registers 3 _ _ _ _ _ _) <|
    fetchByte_moved fun _ => Flow.Ends.from (SlotsMoved.registers 3 _ _ _ _ _ _) <|
      fetchByte_moved fun _ => Flow.Ends.from (SlotsMoved.registers 3 _ _ _ _ _ _) (colorSlot_moved _)

theorem colorLits_moved : ∀ (n : Nat) (s : State), (colorLits n s).Ends (SlotsMoved 3 s) (SlotsRaised 3 s) := by
  intro n
  induction n with
  | zero => exact fun s => SlotsMoved.refl 3 s
  | succ n ih => exact fun s => (literalTriple_moved s).andThen fun t ht => (ih t).from ht

end Sys2Proof.Machine
end

