-- ==== Sys2Proof/Laws/Vsp.lean ====
section
/-! SUPPORT. What the VSP run loops do, said once: which rows a run writes and with what, and that it writes nothing else. -/

namespace Sys2Proof.Machine

theorem hbKey_inj {y y' p p' : Nat} (h : p < 4) (h' : p' < 4) (e : hbKey y p = hbKey y' p') : y = y' ∧ p = p' := by
  unfold hbKey vspPlanes at e; omega

/-! ### The history buffers -/

theorem State.MemOk.curWrite {s : State} (h : s.MemOk) (y p : Nat) (v : Byte) : (curWrite y p v s).MemOk := by
  obtain ⟨h1, h2, h3, h4, h5⟩ := h
  unfold Machine.curWrite
  split
  · exact ⟨h1, h2, h3, h4, Memory.wf_write h5 _ _⟩
  · exact ⟨h1, h2, h3, Memory.wf_write h4 _ _, h5⟩

theorem State.MemOk.putRow {s : State} (h : s.MemOk) (v : Byte) : (putRow v s).MemOk := by
  have := h.curWrite s.y s.plane.val v
  exact ⟨this.inOk, this.mixOk, this.outOk, this.hb0Ok, this.hb1Ok⟩

theorem curRead_curWrite {s : State} (h : s.MemOk) {p q : Nat} (hp : p < 4) (hq : q < 4) (y row : Nat) (v : Byte) :
    curRead row q (curWrite y p v s) = if row = y ∧ q = p then v else curRead row q s := by
  have key : hbKey row q = hbKey y p ↔ row = y ∧ q = p :=
    ⟨hbKey_inj hq hp, fun ⟨h1, h2⟩ => by rw [h1, h2]⟩
  unfold curRead histRead Machine.curWrite
  cases hs : s.sel <;> simp [Memory.read_write h.hb0Ok, Memory.read_write h.hb1Ok, key]

theorem prevRead_curWrite (s : State) (y p row q : Nat) (v : Byte) :
    prevRead row q (curWrite y p v s) = prevRead row q s := by
  unfold prevRead histRead Machine.curWrite
  cases hs : s.sel <;> simp

theorem curRead_putRow {s : State} (h : s.MemOk) {q : Nat} (hq : q < 4) (row : Nat) (v : Byte) :
    curRead row q (putRow v s) = if row = s.y ∧ q = s.plane.val then v else curRead row q s :=
  curRead_curWrite h s.plane.isLt hq s.y row v

theorem prevRead_putRow (s : State) (row q : Nat) (v : Byte) : prevRead row q (putRow v s) = prevRead row q s :=
  prevRead_curWrite s s.y s.plane.val row q v

theorem putRow_frame (v : Byte) (s : State) :
    putRow v s = { s with y := s.y + 1, hb0 := (putRow v s).hb0, hb1 := (putRow v s).hb1 } := by
  unfold putRow Machine.curWrite
  split <;> rfl

/-! ### Runs -/

/-- A run of rows changes `y` and the history buffers, nothing else. -/
theorem runRows_frame (row : State → Byte) : ∀ (n : Nat) (s : State), runRows row n s =
    { s with y := (runRows row n s).y, hb0 := (runRows row n s).hb0, hb1 := (runRows row n s).hb1 } := by
  intro n
  induction n with
  | zero => exact fun _ => rfl
  | succ n ih =>
    intro s
    unfold runRows
    split
    · have h := ih (putRow (row s) s)
      rw [putRow_frame] at h ⊢
      exact h
    · rfl

/-- So does a run of pairs. -/
theorem runPairs_frame (v0 v1 : Byte) : ∀ (n : Nat) (s : State), runPairs v0 v1 n s =
    { s with y := (runPairs v0 v1 n s).y, hb0 := (runPairs v0 v1 n s).hb0, hb1 := (runPairs v0 v1 n s).hb1 } := by
  intro n
  induction n with
  | zero => exact fun _ => rfl
  | succ n ih =>
    intro s
    unfold runPairs
    split
    · dsimp only
      split
      · have h := ih (putRow v1 (putRow v0 s))
        rw [putRow_frame v1, putRow_frame v0] at h ⊢
        exact h
      · exact putRow_frame v0 s
    · rfl

theorem RowsWritten.none {s : State} {n : Nat} {f : Nat → Byte} (h : n = 0 ∨ s.height.toNat ≤ s.y) :
    RowsWritten s s n f where
  cursor := by omega
  frame := rfl
  cells row p hp := by rw [if_neg (by omega)]
  previous _ _ := rfl

/-- One row, then a run over the rest. -/
theorem RowsWritten.cons {s u : State} {n : Nat} {f : Nat → Byte} (h : s.MemOk) (hy : s.y < s.height.toNat)
    (hr : RowsWritten (putRow (f s.y) s) u n f) : RowsWritten s u (n + 1) f where
  cursor := by have := hr.cursor; simp only [putRow_y, putRow_height] at this; omega
  frame := by
    rw [hr.frame, putRow_frame]
  cells row p hp := by
    have hc := hr.cells row p hp
    have hy' := hr.cursor
    simp only [putRow_y, putRow_plane, putRow_height] at hc hy'
    rw [hc, curRead_putRow h hp]
    by_cases h1 : p = s.plane.val
    · by_cases h2 : row = s.y
      · subst h2
        rw [if_neg (by omega), if_pos ⟨rfl, h1⟩, if_pos (by omega)]
      · rw [if_neg (show ¬(row = s.y ∧ p = s.plane.val) by omega)]
        by_cases h3 : s.y ≤ row ∧ row < u.y
        · rw [if_pos (by omega), if_pos (by omega)]
        · rw [if_neg (by omega), if_neg (by omega)]
    · rw [if_neg (by omega), if_neg (by omega), if_neg (by omega)]
  previous row p := by rw [hr.previous, prevRead_putRow]

/-- A run whose row bytes are `f` of the row number, for a property `P` of states that the run's own writes keep. -/
theorem runRows_written {row : State → Byte} {f : Nat → Byte} {P : State → Prop}
    (hP : ∀ u, P u → P (putRow (row u) u)) (hf : ∀ u, P u → row u = f u.y) :
    ∀ (n : Nat) (s : State), P s → s.MemOk → RowsWritten s (runRows row n s) n f := by
  intro n
  induction n with
  | zero => exact fun s _ _ => RowsWritten.none (.inl rfl)
  | succ n ih =>
    intro s hs hm
    unfold runRows
    split
    · refine RowsWritten.cons hm ‹_› ?_
      rw [← hf s hs]
      exact ih _ (hP s hs) (hm.putRow _)
    · exact RowsWritten.none (.inr (Nat.le_of_not_lt ‹_›))

/-- `FILL`: one byte for every row. -/
theorem fillRun_written (v : Byte) (n : Nat) {s : State} (hm : s.MemOk) :
    RowsWritten s (runRows (fun _ => v) n s) n fun _ => v :=
  runRows_written (f := fun _ => v) (P := fun _ => True) (fun _ _ => trivial) (fun _ _ => rfl) n s trivial hm

/-- `COPY`: the previous buffer's byte of the same row and plane. -/
theorem copyRun_written (n : Nat) {s : State} (hm : s.MemOk) :
    RowsWritten s (runRows copyRow n s) n fun row => prevRead row s.plane.val s :=
  runRows_written (P := fun u => u.plane = s.plane ∧ ∀ row q, prevRead row q u = prevRead row q s)
    (fun u hu => ⟨by simp [hu.1], fun row q => by rw [prevRead_putRow, hu.2]⟩)
    (fun u hu => by unfold copyRow; rw [hu.2, hu.1]) n s ⟨rfl, fun _ _ => rfl⟩ hm

/-- `XORk`: the reference plane's byte of the same row as it was before the run, also when `k` is the plane itself. -/
theorem xorRun_written {k : Nat} (hk : k < 4) (n : Nat) {s : State} (hm : s.MemOk) :
    RowsWritten s (runRows (xorRow k) n s) n fun row => curRead row k s ^^^ s.mask :=
  runRows_written
    (P := fun u => u.MemOk ∧ u.mask = s.mask ∧ ∀ row, u.y ≤ row → curRead row k u = curRead row k s)
    (fun u ⟨h1, h2, h3⟩ => ⟨h1.putRow _, by simp [h2], fun row hrow => by
      simp only [putRow_y] at hrow
      rw [curRead_putRow h1 hk, if_neg (by omega), h3 row (by omega)]⟩)
    (fun u ⟨_, h2, h3⟩ => by unfold xorRow; rw [h2, h3 _ (Nat.le_refl _)]) n s ⟨hm, rfl, fun _ _ => rfl⟩ hm

/-- `FILL2`: the two bytes in turn, from the first, whatever the parity of `y`. -/
theorem runPairs_written (v0 v1 : Byte) (base : Nat) : ∀ (n : Nat) (s : State), s.MemOk → (s.y - base) % 2 = 0 →
    base ≤ s.y → RowsWritten s (runPairs v0 v1 n s) (2 * n) fun row => if (row - base) % 2 = 0 then v0 else v1 := by
  intro n
  induction n with
  | zero => exact fun s _ _ _ => RowsWritten.none (.inl rfl)
  | succ n ih =>
    intro s hm hpar hbase
    unfold runPairs
    split
    · refine RowsWritten.cons (n := 2 * n + 1) hm ‹_› ?_
      simp only [hpar, if_true]
      split
      · refine RowsWritten.cons (n := 2 * n) (hm.putRow _) ‹_› ?_
        rw [if_neg (by simp only [putRow_y]; omega)]
        exact ih _ ((hm.putRow _).putRow _) (by simp only [putRow_y]; omega) (by simp only [putRow_y]; omega)
      · exact RowsWritten.none (.inr (Nat.le_of_not_lt ‹_›))
    · exact RowsWritten.none (.inr (Nat.le_of_not_lt ‹_›))

/-- Runs keep the canonical form. -/
theorem State.MemOk.runRows {row : State → Byte} : ∀ (n : Nat) {s : State}, s.MemOk → (runRows row n s).MemOk := by
  intro n
  induction n with
  | zero => exact fun h => h
  | succ n ih =>
    intro s h
    unfold Machine.runRows
    split
    · exact ih (h.putRow _)
    · exact h

theorem State.MemOk.runPairs {v0 v1 : Byte} : ∀ (n : Nat) {s : State}, s.MemOk → (runPairs v0 v1 n s).MemOk := by
  intro n
  induction n with
  | zero => exact fun h => h
  | succ n ih =>
    intro s h
    unfold Machine.runPairs
    split
    · dsimp only
      split
      · exact ih ((h.putRow _).putRow _)
      · exact h.putRow _
    · exact h

end Sys2Proof.Machine
end

