-- ==== Sys2Proof/Laws/Exec.lean ====
section
/-! SUPPORT. What the meanings of each decoding context can do, said once: which registers they may change, and how a
raise leaves them. -/

namespace Sys2Proof.Machine

/-- A VSP instruction changes `y`, the history buffers, `mask` and its operand registers, and nothing else. -/
structure VspMoved (s u : State) : Prop where
  frame : u = { s with
    y := u.y, hb0 := u.hb0, hb1 := u.hb1, mask := u.mask, nVsp := u.nVsp, b0 := u.b0, b1 := u.b1 }
  mem : s.MemOk → u.MemOk
  maskOk : u.mask = s.mask ∨ u.mask = 0x00 ∨ u.mask = 0xFF

theorem VspMoved.runRows (row : State → Byte) (n : Nat) (s : State) : VspMoved s (runRows row n s) where
  frame := by rw [runRows_frame]
  mem h := h.runRows n
  maskOk := .inl (by rw [runRows_frame])

theorem VspMoved.runPairs (v0 v1 : Byte) (n : Nat) (s : State) : VspMoved s (runPairs v0 v1 n s) where
  frame := by rw [runPairs_frame]
  mem h := h.runPairs n
  maskOk := .inl (by rw [runPairs_frame])

theorem VspMoved.putRow (v : Byte) (s : State) : VspMoved s (putRow v s) where
  frame := by rw [putRow_frame]
  mem h := h.putRow v
  maskOk := .inl (by rw [putRow_frame])

theorem VspMoved.operands {s u : State} {n : Nat} {v0 v1 : Byte}
    (h : VspMoved { s with nVsp := n, b0 := v0, b1 := v1 } u) : VspMoved s u where
  frame := by rw [h.frame]
  mem hm := h.mem ⟨hm.inOk, hm.mixOk, hm.outOk, hm.hb0Ok, hm.hb1Ok⟩
  maskOk := h.maskOk

theorem VspMoved.xorRun (k : Nat) (cnt : Byte) (s : State) : VspMoved s (xorRun k cnt s) where
  frame := by
    unfold Machine.xorRun clearMask
    rw [runRows_frame]
  mem hm := by
    have h : State.MemOk { s with nVsp := runCount cnt } := ⟨hm.inOk, hm.mixOk, hm.outOk, hm.hb0Ok, hm.hb1Ok⟩
    have := h.runRows (row := xorRow k) (runCount cnt)
    exact ⟨this.inOk, this.mixOk, this.outOk, this.hb0Ok, this.hb1Ok⟩
  maskOk := .inr (.inl rfl)

/-- The VSP instructions: a next state while the plane has a row to fill. -/
theorem exec_vsp {i : Instr} (hi : i.context = .vsp) {s : State} (hy : s.y < s.height.toNat) :
    ∃ u, exec i s = .next u ∧ VspMoved s u := by
  cases i with
  | copy cnt => exact ⟨_, rfl, .operands (v0 := s.b0) (v1 := s.b1) (.runRows ..)⟩
  | fill cnt v0 => exact ⟨_, rfl, .operands (v1 := s.b1) (.runRows ..)⟩
  | fill2 cnt v0 v1 => exact ⟨_, rfl, .operands (.runPairs ..)⟩
  | xor0 cnt => exact ⟨_, rfl, .xorRun ..⟩
  | xor1 cnt => exact ⟨_, rfl, .xorRun ..⟩
  | xor2 cnt => exact ⟨_, rfl, .xorRun ..⟩
  | inv => exact ⟨_, rfl, rfl, fun h => ⟨h.inOk, h.mixOk, h.outOk, h.hb0Ok, h.hb1Ok⟩, .inr (.inr rfl)⟩
  | lit v0 => exact ⟨_, if_pos hy, .operands (n := s.nVsp) (v1 := s.b1) (.putRow ..)⟩
  | raw c => exact ⟨_, if_pos hy, .putRow ..⟩
  | _ => cases hi

/-- Whatever the state, a VSP instruction that answers a next state is such a move. -/
theorem exec_vsp_next {i : Instr} (hi : i.context = .vsp) {s u : State} (h : exec i s = .next u) : VspMoved s u := by
  by_cases hy : s.y < s.height.toNat
  · obtain ⟨w, hw, hm⟩ := exec_vsp hi hy
    rw [hw] at h
    cases h
    exact hm
  · cases i with
    | copy cnt => cases h; exact .operands (v0 := s.b0) (v1 := s.b1) (.runRows ..)
    | fill cnt v0 => cases h; exact .operands (v1 := s.b1) (.runRows ..)
    | fill2 cnt v0 v1 => cases h; exact .operands (.runPairs ..)
    | xor0 cnt => cases h; exact .xorRun ..
    | xor1 cnt => cases h; exact .xorRun ..
    | xor2 cnt => cases h; exact .xorRun ..
    | inv => cases h; exact ⟨rfl, fun h => ⟨h.inOk, h.mixOk, h.outOk, h.hb0Ok, h.hb1Ok⟩, .inr (.inr rfl)⟩
    | lit v0 => rw [show exec (.lit v0) s = .fault .noHistoryRow from if_neg hy] at h; cases h
    | raw c => rw [show exec (.raw c) s = .fault .noHistoryRow from if_neg hy] at h; cases h
    | _ => cases hi

/-- The section header: `StreamUnderrun`, or the section is entered. -/
theorem exec_hdr {i : Instr} (hi : i.context = .hdr) (s : State) :
    exec i s = .next (raise .streamUnderrun s.ip s) ∨
    ∃ lim, s.ip ≤ lim ∧ lim ≤ s.inLen ∧
      (s.phase = .alpha ∧ exec i s = .next { s with lim := lim, op := 3, ctx := .sgdA } ∨
        s.phase = .color ∧ exec i s = .next { s with lim := lim, op := 0, ctx := .sgdC }) := by
  cases i with
  | sLen len =>
    by_cases h : s.inLen < s.ip + len.toNat
    · exact .inl (if_pos h)
    · refine .inr ⟨s.ip + len.toNat, by omega, by omega, ?_⟩
      have e : exec (.sLen len) s = .next (enterSection len s) := if_neg h
      rw [e]
      unfold enterSection
      cases hp : s.phase
      · exact .inl ⟨rfl, rfl⟩
      · exact .inr ⟨rfl, rfl⟩
  | _ => cases hi

theorem Flow.Ends.answer {f : Flow} {P Q : State → Prop} (h : f.Ends P Q) : ∃ u, f.answer = .next u ∧ (P u ∨ Q u) :=
  ⟨f.state, rfl, h.state⟩

/-- The alpha instructions: a run of alpha slots, to its end or to a raise. -/
theorem exec_sgdA {i : Instr} (hi : i.context = .sgdA) (s : State) :
    ∃ u, exec i s = .next u ∧ (SlotsMoved 1 s u ∨ SlotsRaised 1 s u) := by
  cases i with
  | aRle cnt v =>
    exact ((alphaRun_moved _ _ _).from (SlotsMoved.registers 1 s s.b s.g s.r v _)).answer
  | aLit cnt =>
    exact ((alphaLits_moved _ _).from (SlotsMoved.registers 1 s s.b s.g s.r s.a _)).answer
  | _ => cases hi

/-- The base of a delta run, with its three addresses (43_sgd_color.md R188). -/
theorem loadBase_eq {s : State} (h : 4 ≤ s.op) : loadBase s = { s with
    b := Memory.read s.outMem (s.op - 4), g := Memory.read s.outMem (s.op - 3),
    r := Memory.read s.outMem (s.op - 2) } := by
  have e1 : s.op - sgdSlot + 1 = s.op - 3 := by unfold sgdSlot; omega
  have e2 : s.op - sgdSlot + 2 = s.op - 2 := by unfold sgdSlot; omega
  unfold loadBase
  rw [e1, e2]; rfl

/-- The colour instructions: a run of colour slots, to its end or to a raise; or the start of a delta run, its raise, or
the model's stop without a base inside `OUT`; or the illegal flag. -/
theorem exec_sgdC {i : Instr} (hi : i.context = .sgdC) (s : State) :
    (∃ u, exec i s = .next u ∧ (SlotsMoved 3 s u ∨ SlotsRaised 3 s u)) ∨
    (∃ len : BitVec 6, i = .cDelta len ∧
      (s.op < 4 ∧ exec i s = .next (raise .deltaNoBase (s.ip - 1) { s with nSgd := len.toNat }) ∨
        4 ≤ s.op ∧ s.outSize.toNat ≤ s.op - 2 ∧ exec i s = .fault .noOutputByte ∨
        4 ≤ s.op ∧ s.op - 2 < s.outSize.toNat ∧
          exec i s = .next { loadBase { s with nSgd := len.toNat } with ctx := .sgdD })) ∨
    ∃ low, i = .cIllegal low ∧ exec i s = .next (raise .corruptData (s.ip - 1) s) := by
  cases i with
  | cLit len =>
    exact .inl ((colorLits_moved _ _).from (SlotsMoved.registers 3 s s.b s.g s.r s.a _)).answer
  | cRep len vb vg vr =>
    exact .inl ((colorRun_moved _ _).from (SlotsMoved.registers 3 s vb vg vr s.a _)).answer
  | cDelta len =>
    refine .inr (.inl ⟨len, rfl, ?_⟩)
    show _ ∧ execCDelta len s = _ ∨ _ ∧ _ ∧ execCDelta len s = _ ∨ _ ∧ _ ∧ execCDelta len s = _
    unfold execCDelta
    by_cases h1 : s.op < 4
    · exact .inl ⟨h1, if_pos h1⟩
    · have e : s.op - sgdSlot + 2 = s.op - 2 := by unfold sgdSlot; omega
      rw [if_neg (by simpa [sgdSlot] using h1), e]
      by_cases h2 : s.outSize.toNat ≤ s.op - 2
      · exact .inr (.inl ⟨by omega, h2, if_pos h2⟩)
      · exact .inr (.inr ⟨by omega, by omega, if_neg h2⟩)
  | cIllegal low => exact .inr (.inr ⟨low, rfl, rfl⟩)
  | _ => cases hi

/-- The delta words: one colour slot with a triple of the word's making, or `OutputOverrun` with nothing written. -/
theorem exec_sgdD {i : Instr} (hi : i.context = .sgdD) (s : State) : ∃ vb vg vr : Byte,
    exec i s = if s.outSize.toNat ≤ s.op + 2 then .next (raise .outputOverrun s.ip { s with b := vb, g := vg, r := vr })
      else .next { s with
        b := vb, g := vg, r := vr, outMem := storeTriple s.outMem s.op vb vg vr, op := s.op + 4,
        nSgd := s.nSgd - 1 } := by
  cases i with
  | dAdd dR dG dB =>
    refine ⟨addField s.b dB, addField s.g dG, addField s.r dR, ?_⟩
    show (colorSlot _).answer = _
    rw [colorSlot_eq]
    split <;> rfl
  | dSm sR mR sG mG sB mB =>
    refine ⟨smField s.b sB mB, smField s.g sG mG, smField s.r sR mR, ?_⟩
    show (colorSlot _).answer = _
    rw [colorSlot_eq]
    split <;> rfl
  | _ => cases hi

end Sys2Proof.Machine
end

