-- ==== Sys2Proof/Laws/Pack.lean ====
section
/-! SUPPORT. What the pack step writes: eight pixels a row, each at its own address, and nothing else. -/

namespace Sys2Proof.Machine

@[simp] theorem vspStripW_eq : vspStripW = 8 := rfl

/-- A loop that only writes `OUT` leaves everything else, when each of its steps does. -/
theorem foldl_outOnly {α : Type} (f : State → α → State) (hf : ∀ s a, f s a = { s with outMem := (f s a).outMem }) :
    ∀ (l : List α) (s : State), l.foldl f s = { s with outMem := (l.foldl f s).outMem } := by
  intro l
  induction l with
  | nil => exact fun _ => rfl
  | cons a l ih =>
    intro s
    have h := ih (f s a)
    rw [hf s a] at h
    rw [List.foldl_cons, hf s a]
    exact h

theorem packPixel_frame (y : Nat) (s : State) (j : Nat) :
    packPixel y s j = { s with outMem := (packPixel y s j).outMem } := rfl

theorem packRow_frame (s : State) (y : Nat) : packRow s y = { s with outMem := (packRow s y).outMem } :=
  foldl_outOnly _ (packPixel_frame y) _ s

/-- The pack step changes `OUT` and nothing else: "`cur` is not modified" (41_vsp.md R154). -/
theorem vspPack_frame (s : State) : vspPack s = { s with outMem := (vspPack s).outMem } :=
  foldl_outOnly _ packRow_frame _ s

/-- The pixels do not depend on `OUT`. -/
theorem pixel_outMem (y j : Nat) (s : State) (m : Memory) : pixel y j { s with outMem := m } = pixel y j s := rfl

/-- The four bits of a pixel, one for each plane (41_vsp.md R155). -/
theorem pixel_eq (y j : Nat) (s : State) : pixel y j s =
    pixelBit y j s 0 ||| pixelBit y j s 1 ||| pixelBit y j s 2 ||| pixelBit y j s 3 := by
  simp [pixel, List.range_succ]

/-- The address of pixel `j` of row `y` of the strip. -/
def stripAddr (s : State) (y j : Nat) : Nat := y * s.width.toNat + (8 * s.x + j)

theorem packPixels_read {s : State} (y : Nat) : ∀ n, Memory.wf s.outMem →
    let t := (List.range n).foldl (packPixel y) s
    Memory.wf t.outMem ∧ ∀ a, Memory.read t.outMem a =
      if stripAddr s y 0 ≤ a ∧ a < stripAddr s y n then pixel y (a - stripAddr s y 0) s else Memory.read s.outMem a := by
  intro n hm
  induction n with
  | zero => exact ⟨hm, fun a => by simp only [List.range_zero, List.foldl_nil]; rw [if_neg (by omega)]⟩
  | succ n ih =>
    obtain ⟨hw, hr⟩ := ih
    have hfr := foldl_outOnly _ (packPixel_frame y) (List.range n) s
    simp only [List.range_succ, List.foldl_append, List.foldl_cons, List.foldl_nil]
    generalize (List.range n).foldl (packPixel y) s = t at hw hr hfr
    have ha : pixelAddr (vspStripW * t.x + n) y t = stripAddr s y n := by rw [hfr]; rfl
    have hp : pixel y n t = pixel y n s := by rw [hfr]; rfl
    simp only [packPixel, ha, hp]
    refine ⟨Memory.wf_write hw _ _, fun a => ?_⟩
    rw [Memory.read_write hw, hr]
    unfold stripAddr
    split
    · rw [if_pos (by omega)]
      congr 1; omega
    · split
      · rw [if_pos (by omega)]
      · rw [if_neg (by omega)]

theorem packRows_read {s : State} (hx : 8 * s.x + 8 ≤ s.width.toNat) : ∀ n, Memory.wf s.outMem →
    let t := (List.range n).foldl packRow s
    Memory.wf t.outMem ∧
    (∀ y j, y < n → j < 8 → Memory.read t.outMem (stripAddr s y j) = pixel y j s) ∧
    ∀ a, (∀ y j, y < n → j < 8 → a ≠ stripAddr s y j) → Memory.read t.outMem a = Memory.read s.outMem a := by
  intro n hm
  induction n with
  | zero => exact ⟨hm, fun y j h _ => absurd h (by omega), fun _ _ => rfl⟩
  | succ n ih =>
    obtain ⟨hw, hr, ho⟩ := ih
    have hfr := foldl_outOnly _ packRow_frame (List.range n) s
    simp only [List.range_succ, List.foldl_append, List.foldl_cons, List.foldl_nil]
    generalize (List.range n).foldl packRow s = t at hw hr ho hfr
    obtain ⟨hw', hr'⟩ := packPixels_read (s := t) n 8 hw
    have hs : ∀ j, stripAddr t n j = stripAddr s n j := fun j => by rw [hfr]; rfl
    have hp : ∀ j, pixel n j t = pixel n j s := fun j => by rw [hfr]; rfl
    simp only [packRow, vspStripW_eq]
    refine ⟨hw', fun y j hy hj => ?_, fun a ha => ?_⟩
    · rw [hr', hs, hs]
      by_cases hyn : y = n
      · subst hyn
        rw [if_pos (by unfold stripAddr; omega), hp]
        congr 1
        unfold stripAddr; omega
      · have h1 : (y + 1) * s.width.toNat ≤ n * s.width.toNat := Nat.mul_le_mul_right _ (by omega)
        rw [Nat.add_mul, Nat.one_mul] at h1
        rw [if_neg (by unfold stripAddr; omega), hr y j (by omega) hj]
    · rw [hr', hs, hs, if_neg, ho a fun y j hy hj => ha y j (by omega) hj]
      intro h
      refine ha n (a - stripAddr s n 0) (by omega) ?_ ?_ <;> unfold stripAddr at h ⊢ <;> omega

/-- The pack step of a strip inside the image: every pixel of the strip, at its address, and no other byte. -/
theorem vspPack_read {s : State} (hm : Memory.wf s.outMem) (hx : s.x < strips s) :
    Memory.wf (vspPack s).outMem ∧
    (∀ y j, y < s.height.toNat → j < 8 → Memory.read (vspPack s).outMem (stripAddr s y j) = pixel y j s) ∧
    ∀ a, (∀ y j, y < s.height.toNat → j < 8 → a ≠ stripAddr s y j) →
      Memory.read (vspPack s).outMem a = Memory.read s.outMem a :=
  packRows_read (by unfold strips at hx; simp only [vspStripW_eq] at hx; omega) _ hm

/-- What the pack step adds to `OUT` is a pixel of the strip. -/
theorem vspPack_mem {s : State} : ∀ c ∈ (vspPack s).outMem, c ∈ s.outMem ∨
    ∃ y j, y < s.height.toNat ∧ j < 8 ∧ c = (stripAddr s y j, pixel y j s) := by
  have hrow : ∀ (y n : Nat) (t : State), n ≤ 8 → ∀ c ∈ ((List.range n).foldl (packPixel y) t).outMem,
      c ∈ t.outMem ∨ ∃ j, j < 8 ∧ c = (stripAddr t y j, pixel y j t) := by
    intro y n t
    induction n with
    | zero => exact fun _ c hc => .inl hc
    | succ n ih =>
      intro hn c hc
      have hfr := foldl_outOnly _ (packPixel_frame y) (List.range n) t
      simp only [List.range_succ, List.foldl_append, List.foldl_cons, List.foldl_nil] at hc
      have ih' := ih (by omega)
      generalize (List.range n).foldl (packPixel y) t = u at hc ih' hfr
      rcases Memory.mem_write hc with h | ⟨h, -⟩
      · exact ih' c h
      · refine .inr ⟨n, by omega, ?_⟩
        rw [h, hfr]; rfl
  have hrows : ∀ (n : Nat) (t : State), ∀ c ∈ ((List.range n).foldl packRow t).outMem,
      c ∈ t.outMem ∨ ∃ y j, y < n ∧ j < 8 ∧ c = (stripAddr t y j, pixel y j t) := by
    intro n t
    induction n with
    | zero => exact fun c hc => .inl hc
    | succ n ih =>
      intro c hc
      have hfr := foldl_outOnly _ packRow_frame (List.range n) t
      simp only [List.range_succ, List.foldl_append, List.foldl_cons, List.foldl_nil] at hc
      generalize (List.range n).foldl packRow t = u at hc ih hfr
      rcases hrow n 8 u (Nat.le_refl _) c hc with h | ⟨j, hj, h⟩
      · rcases ih c h with h | ⟨y, j, hy, hj, h⟩
        · exact .inl h
        · exact .inr ⟨y, j, by omega, hj, h⟩
      · refine .inr ⟨n, j, by omega, hj, ?_⟩
        rw [h, hfr]; rfl
  exact hrows s.height.toNat s

end Sys2Proof.Machine
end

