-- ==== Sys2Proof/Laws/Step.lean ====
section
/-! SUPPORT. What one step can do, said once: the case split of a step, of the dispatch, and of the sequencing between
instructions, so that no later proof unfolds `step`, `cycle` or `settle`. -/

namespace Sys2Proof.Machine

/-! ### The step by position -/

theorem step_reset {s : State} (h : s.resetIn = true) : step s = .next (resetEvent s) := by simp [step, h]

theorem step_host {s : State} (h : s.resetIn = false) (hc : s.ctx = .host) : step s = hostStep s := by
  simp [step, h, cycle, hc]

theorem step_stream {s : State} (h : s.resetIn = false) (hc : s.ctx ≠ .host) : step s = streamStep s := by
  unfold step cycle
  rw [h]
  cases hs : s.ctx <;> first | exact absurd hs hc | rfl

/-- A step inside a job runs an instruction whose bytes were all there, or raises `StreamUnderrun`. -/
theorem streamStep_cases {s : State} (hc : s.ctx ≠ .host) :
    (∃ i rest, decode s.ctx (fetchWindow s) = .ok (i, rest) ∧ i.context = s.ctx ∧ 1 ≤ i.size ∧
      s.ip + i.size ≤ s.lim ∧ streamStep s = settleAnswer (exec i (advance i.size s))) ∨
    ∃ n, decode s.ctx (fetchWindow s) = .error (.truncated n) ∧ n ≤ s.lim - s.ip ∧ n < maxSize ∧ streamStep s =
      .next (raise .streamUnderrun (s.ip + n) (latchOperands s.ctx ((fetchWindow s).take n) (advance n s))) := by
  have hlen : (fetchWindow s).length = min maxSize (s.lim - s.ip) := Memory.length_slice _ _ _
  unfold streamStep
  cases hd : decode s.ctx (fetchWindow s) with
  | ok p =>
    obtain ⟨i, rest⟩ := p
    obtain ⟨h1, h2, h3⟩ := decode_size hd
    exact .inl ⟨i, rest, rfl, h1, h2, by omega, rfl⟩
  | error e =>
    obtain ⟨n, rfl, hn, hm⟩ := decode_truncated hc hd
    exact .inr ⟨n, rfl, by omega, hm, rfl⟩

/-- What the operand registers of a cut instruction can hold: nothing but them has changed. -/
theorem latchOperands_frame (ctx : Context) (bs : List Byte) (s : State) : latchOperands ctx bs s =
    { s with
      b0 := (latchOperands ctx bs s).b0, nSgd := (latchOperands ctx bs s).nSgd,
      b := (latchOperands ctx bs s).b, g := (latchOperands ctx bs s).g } := by
  unfold latchOperands
  split <;> (try split) <;> rfl

/-- A fetch past `lim`, whatever the context: `StreamUnderrun` where the missing byte would stand, with the operand
registers of the bytes that were there. -/
theorem step_underrun {s : State} {n : Nat} (hr : s.resetIn = false) (hc : s.ctx ≠ .host)
    (hd : decode s.ctx (fetchWindow s) = .error (.truncated n)) :
    step s = .next (underrunAt (s.ip + n) (latchOperands s.ctx ((fetchWindow s).take n) s)) := by
  rw [step_stream hr hc, streamStep, hd]
  have h : latchOperands s.ctx ((fetchWindow s).take n) (advance n s) =
      advance n (latchOperands s.ctx ((fetchWindow s).take n) s) := by
    unfold latchOperands
    split <;> (try split) <;> rfl
  show Host.Outcome.next (raise .streamUnderrun (s.ip + n) (latchOperands _ _ _)) = _
  rw [h, latchOperands_frame]
  rfl

/-! ### What a fetch can see -/

/-- `k` bytes below `lim`: the window starts with them. -/
theorem fetchWindow_full {s : State} {k : Nat} (hk : k ≤ maxSize) (h : s.ip + k ≤ s.lim) :
    ∃ rest, fetchWindow s = Memory.slice s.inMem s.ip k ++ rest := by
  obtain ⟨m, hm⟩ : ∃ m, min maxSize (s.lim - s.ip) = k + m := ⟨min maxSize (s.lim - s.ip) - k, by omega⟩
  refine ⟨(List.range m).map fun j => Memory.read s.inMem (s.ip + (k + j)), ?_⟩
  unfold fetchWindow
  rw [hm]
  simp [Memory.slice, List.range_add, List.map_append]

/-- Fewer than four bytes below `lim`: the window is these. -/
theorem fetchWindow_short {s : State} {k : Nat} (hk : k < maxSize) (h : s.lim - s.ip = k) :
    fetchWindow s = Memory.slice s.inMem s.ip k := by
  unfold fetchWindow
  rw [h, Nat.min_eq_right (Nat.le_of_lt hk)]

theorem slice_succ (m : Memory) (a k : Nat) :
    Memory.slice m a (k + 1) = Memory.read m a :: Memory.slice m (a + 1) k := by
  rw [Memory.slice, List.range_succ_eq_map, List.map_cons, List.map_map, Nat.add_zero]
  congr 1
  unfold Memory.slice
  apply List.map_congr_left
  intro j _
  simp only [Function.comp]
  congr 1
  omega

theorem vspLength_le (c : Byte) : 1 ≤ vspLength c ∧ vspLength c ≤ maxSize := by
  unfold vspLength maxSize; split_ifs <;> omega

/-- Below `VSP_RAW_MIN` there are eight opcodes. -/
theorem vspOpcode_cases (c : Byte) : vspRawMin ≤ c.toNat ∨ c = 0x00 ∨ c = 0x01 ∨ c = 0x02 ∨ c = 0x03 ∨ c = 0x04 ∨
    c = 0x05 ∨ c = 0x06 ∨ c = 0x07 := by
  revert c
  decide +kernel

theorem vspLength_raw {c : Byte} (h : vspRawMin ≤ c.toNat) : vspLength c = 1 := by
  revert c
  decide +kernel

/-- As many bytes as the first one says: an instruction (41_vsp.md R141). -/
theorem decodeVsp_full (c : Byte) (l : List Byte) (hl : l.length + 1 = vspLength c) (rest : List Byte) :
    ∃ i, decode .vsp (c :: l ++ rest) = .ok (i, rest) := by
  rcases vspOpcode_cases c with h | rfl | rfl | rfl | rfl | rfl | rfl | rfl | rfl
  · have h1 := vspLength_raw h
    rw [h1] at hl
    obtain rfl : l = [] := List.length_eq_zero_iff.1 (by omega)
    exact ⟨.raw c, if_pos h⟩
  all_goals
    simp only [vspLength] at hl
    rcases l with _ | ⟨a, _ | ⟨b, _ | ⟨d, _ | l⟩⟩⟩ <;> simp at hl
    exact ⟨_, rfl⟩

/-- Fewer: truncated where they end. -/
theorem decodeVsp_short (c : Byte) (l : List Byte) (hl : l.length + 1 < vspLength c) :
    decode .vsp (c :: l) = .error (.truncated (l.length + 1)) := by
  rcases vspOpcode_cases c with h | rfl | rfl | rfl | rfl | rfl | rfl | rfl | rfl
  · have h1 := vspLength_raw h
    omega
  all_goals
    simp only [vspLength] at hl
    (rcases l with _ | ⟨a, _ | ⟨b, _ | ⟨d, l⟩⟩⟩) <;> simp at hl <;> first | rfl | omega

/-! ### The dispatch -/

/-- A `CMD` value is one of the five commands, or no command. -/
theorem decodeHost_cases (c : Byte) :
    (c = 0x01 ∧ decode .host [c] = .ok (.prngSeed, [])) ∨ (c = 0x02 ∧ decode .host [c] = .ok (.prngMix, [])) ∨
    (c = 0x03 ∧ decode .host [c] = .ok (.prngNext, [])) ∨ (c = 0x04 ∧ decode .host [c] = .ok (.vspDecode, [])) ∨
    (c = 0x05 ∧ decode .host [c] = .ok (.sgdDecode, [])) ∨
    ((c.toNat = 0 ∨ 6 ≤ c.toNat) ∧ decode .host [c] = .error (.badCommand c)) := by
  revert c
  decide +kernel

theorem settleAnswer_next {o : Answer} {t : State} (h : settleAnswer o = .next t) : ∃ u, o = .next u ∧ t = settle u := by
  cases o with
  | next u => exact ⟨u, rfl, by cases h; rfl⟩
  | fault r => cases h
  | refused r => cases h

theorem settle_host {s : State} (h : s.ctx = .host) : settle s = s := by simp [settle, h]

@[simp] theorem settle_raise (f : FaultName) (n : Nat) (s : State) : settle (raise f n s) = raise f n s := rfl

@[simp] theorem settle_finish (s : State) : settle (finish s) = finish s := rfl

/-! ### Capacities and loads -/

theorem exceeds_iff {bound : Option Nat} {n : Nat} : exceeds bound n = true ↔ ∃ m, bound = some m ∧ m < n := by
  cases bound <;> simp [exceeds]

theorem exceeds_not {bound : Option Nat} {n : Nat} : exceeds bound n = false ↔ ∀ m, bound = some m → n ≤ m := by
  cases bound <;> simp [exceeds]

/-- A load of what may be loaded: the bytes below the bound, and no others. -/
theorem read_loadable {m : Memory} (h : Memory.wf m) (bound : Option Nat) (a : Nat) (bs : List Byte) (k : Nat) :
    Memory.read (Memory.load m a (loadable bound a bs)) k =
      if a ≤ k ∧ k < a + bs.length ∧ ∀ n, bound = some n → k < n then bs.getD (k - a) 0 else Memory.read m k := by
  have hl : ∀ l : List Byte, Memory.read (Memory.load m a l) k =
      if a ≤ k ∧ k < a + l.length then l.getD (k - a) 0 else Memory.read m k := fun l => by
    rw [Memory.read_load h]
    by_cases h1 : a ≤ k
    · by_cases h2 : k < a + l.length
      · rw [if_pos h1, if_pos ⟨h1, h2⟩, List.getD_eq_getElem?_getD, List.getElem?_eq_getElem (by omega)]; rfl
      · rw [if_pos h1, if_neg (by omega), List.getElem?_eq_none (by omega)]; rfl
    · rw [if_neg h1, if_neg (by omega)]
  cases bound with
  | none => simpa [loadable] using hl bs
  | some n =>
    rw [loadable, hl]
    simp only [Option.some.injEq, forall_eq', List.length_take]
    by_cases h1 : a ≤ k ∧ k < a + bs.length ∧ k < n
    · rw [if_pos h1, if_pos (by omega), List.getD_eq_getElem?_getD, List.getElem?_take_of_lt (by omega),
        ← List.getD_eq_getElem?_getD]
    · rw [if_neg h1, if_neg (by omega)]

/-! ### The sequencing between instructions -/

theorem settle_section {s : State} (hc : s.ctx = .sgdA ∨ s.ctx = .sgdC) : settle s = sectionSequence s := by
  unfold settle; rcases hc with h | h <;> rw [h]

theorem settle_delta {s : State} (hc : s.ctx = .sgdD) :
    settle s = if s.nSgd = 0 then sectionSequence { s with ctx := .sgdC } else s := by
  unfold settle; rw [hc]

theorem enterSection_alpha {s : State} (len : Word) (hp : s.phase = .alpha) :
    enterSection len s = { s with lim := s.ip + len.toNat, op := alphaStart, ctx := .sgdA } := by
  simp only [enterSection, hp]

theorem enterSection_color {s : State} (len : Word) (hp : s.phase = .color) :
    enterSection len s = { s with lim := s.ip + len.toNat, op := 0, ctx := .sgdC } := by
  simp only [enterSection, hp]

theorem sectionSequence_alpha {s : State} (hl : ¬s.ip < s.lim) (hp : s.phase = .alpha) :
    sectionSequence s = { s with lim := s.inLen, phase := .color, ctx := .hdr } := by
  simp only [sectionSequence, if_neg hl, hp]

theorem sectionSequence_color {s : State} (hl : ¬s.ip < s.lim) (hp : s.phase = .color) :
    sectionSequence s = endSgd { s with lim := s.inLen } := by
  simp only [sectionSequence, if_neg hl, hp]

/-- The last plane ends the strip, any other is followed by the next (41_vsp.md R152). -/
theorem endPlane_eq (s : State) :
    endPlane s = if s.plane = 3 then endStrip s else { s with plane := s.plane + 1, y := 0 } := by
  have h : s.plane.val + 1 = vspPlanes ↔ s.plane = 3 := by revert s; simp [vspPlanes, Fin.ext_iff]
  simp only [endPlane, h]

/-- The sequencing writes `OUT` (the pack step), the cursors and the status, and nothing else. -/
theorem settle_frame (s : State) : settle s = { s with
    status := (settle s).status, outLen := (settle s).outLen, outMem := (settle s).outMem, lim := (settle s).lim,
    x := (settle s).x, plane := (settle s).plane, y := (settle s).y, sel := (settle s).sel, phase := (settle s).phase,
    ctx := (settle s).ctx, outValid := (settle s).outValid } := by
  have hp : ∀ u : State, endPlane u = { u with
      outMem := (endPlane u).outMem, x := (endPlane u).x, plane := (endPlane u).plane, y := (endPlane u).y,
      sel := (endPlane u).sel } := fun u => by
    unfold endPlane endStrip
    split
    · rw [vspPack_frame]
    · rfl
  have hv : ∀ u : State, endVsp (endPlane u) = { u with
      status := .done, outLen := imageBytes u, outMem := (endPlane u).outMem, x := (endPlane u).x,
      plane := (endPlane u).plane, y := (endPlane u).y, sel := (endPlane u).sel, ctx := .host, outValid := true } :=
    fun u => by rw [hp u]; rfl
  have hs : ∀ u : State, sectionSequence u = { u with
      status := (sectionSequence u).status, outLen := (sectionSequence u).outLen, lim := (sectionSequence u).lim,
      phase := (sectionSequence u).phase, ctx := (sectionSequence u).ctx, outValid := (sectionSequence u).outValid } :=
    fun u => by
      unfold sectionSequence
      split
      · rfl
      · split <;> rfl
  unfold settle
  split
  · rfl
  · unfold vspSequence
    split
    · split
      · rfl
      · split
        · rfl
        · split
          · rw [hp s]
          · rw [hv]
    · rfl
  · rfl
  · rw [hs s]
  · rw [hs s]
  · split
    · rw [hs]
    · rfl

end Sys2Proof.Machine
end

