-- ==== Sys2Proof/Laws/Agree.lean ====
section
/-! SUPPORT. Two runs of one decode job side by side (70_reset_and_hazards.md R257): what it takes for two states to agree
on everything the rest of the job reads, and that every step of the job keeps it. -/

namespace Sys2Proof.Machine

/-- What every position of a job reads. -/
structure AgreeBase (s t : State) : Prop where
  width : t.width = s.width
  height : t.height = s.height
  outSize : t.outSize = s.outSize
  inLen : t.inLen = s.inLen
  inMem : t.inMem = s.inMem
  ip : t.ip = s.ip
  lim : t.lim = s.lim
  outMem : t.outMem = s.outMem
  status : t.status = s.status
  faultCode : t.faultCode = s.faultCode
  ctx : t.ctx = s.ctx
  outValid : t.outValid = s.outValid
  faultIp : s.status = .fault → t.faultIp = s.faultIp
  outLen : s.status = .done → t.outLen = s.outLen

/-- The same and the working registers and buffers of a VSP job. -/
structure AgreeVsp (s t : State) : Prop extends AgreeBase s t where
  x : t.x = s.x
  plane : t.plane = s.plane
  y : t.y = s.y
  mask : t.mask = s.mask
  sel : t.sel = s.sel
  hb0 : t.hb0 = s.hb0
  hb1 : t.hb1 = s.hb1

/-- The same and the cursors of an SGD job. -/
structure AgreeSgd (s t : State) : Prop extends AgreeBase s t where
  op : t.op = s.op
  phase : t.phase = s.phase

/-- The same and the triple. -/
structure AgreeColor (s t : State) : Prop extends AgreeSgd s t where
  b : t.b = s.b
  g : t.g = s.g
  r : t.r = s.r

/-- Agreement on what the position of the job reads. -/
def Agree (s t : State) : Prop :=
  match s.ctx with
  | .host => AgreeBase s t
  | .vsp => AgreeVsp s t
  | .hdr => AgreeSgd s t
  | .sgdA => AgreeSgd s t
  | .sgdC => AgreeSgd s t
  | .sgdD => AgreeColor s t ∧ t.nSgd = s.nSgd

theorem Agree.base {s t : State} (h : Agree s t) : AgreeBase s t := by
  unfold Agree at h
  split at h
  · exact h
  · exact h.toAgreeBase
  · exact h.toAgreeBase
  · exact h.toAgreeBase
  · exact h.toAgreeBase
  · exact h.1.toAgreeBase

theorem agree_host {s t : State} (h : AgreeBase s t) (hc : s.ctx = .host) : Agree s t := by
  unfold Agree; rw [hc]; exact h

/-- Two answers agree: next states that do, or the same stop. -/
def AgreeAnswer (R : State → State → Prop) (p q : Answer) : Prop :=
  (∃ s t, p = .next s ∧ q = .next t ∧ R s t) ∨ ∃ r, p = .fault r ∧ q = .fault r

/-- Two runs agree: both go on in states that do, or both are aborted. -/
def AgreeFlow (R : State → State → Prop) (p q : Flow) : Prop :=
  (∃ s t, p = .cont s ∧ q = .cont t ∧ R s t) ∨ ∃ s t, p = .stop s ∧ q = .stop t ∧ AgreeBase s t ∧ s.ctx = .host

theorem AgreeFlow.andThen {R R' : State → State → Prop} {p q : Flow} {k l : State → Flow} (h : AgreeFlow R p q)
    (hk : ∀ s t, R s t → AgreeFlow R' (k s) (l t)) : AgreeFlow R' (p.andThen k) (q.andThen l) := by
  rcases h with ⟨s, t, rfl, rfl, h⟩ | ⟨s, t, rfl, rfl, h⟩
  · exact hk s t h
  · exact .inr ⟨s, t, rfl, rfl, h⟩

theorem AgreeFlow.mono {R R' : State → State → Prop} {p q : Flow} (h : AgreeFlow R p q) (hk : ∀ s t, R s t → R' s t) :
    AgreeFlow R' p q := by
  rcases h with ⟨s, t, e, e', h⟩ | h
  · exact .inl ⟨s, t, e, e', hk s t h⟩
  · exact .inr h

theorem agree_raise {s t : State} (h : AgreeBase s t) (f : FaultName) {n m : Nat} (e : m = n) :
    Agree (raise f n s) (raise f m t) :=
  agree_host { h with status := rfl, faultCode := rfl, ctx := rfl, faultIp := fun _ => e, outLen := nofun } rfl

theorem agree_finish {s t : State} (h : AgreeBase s t) {n m : Nat} (e : m = n) :
    Agree (finishDecode n s) (finishDecode m t) :=
  agree_host { h with status := rfl, ctx := rfl, outValid := rfl, faultIp := nofun, outLen := fun _ => e } rfl

/-! ### U-VSP -/

theorem agree_putRow {s t : State} (h : AgreeVsp s t) {v w : Byte} (e : w = v) :
    AgreeVsp (putRow v s) (putRow w t) := by
  subst e
  unfold putRow curWrite
  by_cases hs : s.sel = true
  · rw [if_pos hs, if_pos (h.sel.trans hs)]
    exact { h with y := by simp only [h.y], hb1 := by simp only [h.hb1, h.y, h.plane] }
  · rw [if_neg hs, if_neg (by rw [h.sel]; exact hs)]
    exact { h with y := by simp only [h.y], hb0 := by simp only [h.hb0, h.y, h.plane] }

theorem agree_runRows {row : State → Byte} (hrow : ∀ s t, AgreeVsp s t → row t = row s) :
    ∀ n {s t : State}, AgreeVsp s t → AgreeVsp (runRows row n s) (runRows row n t) := by
  intro n
  induction n with
  | zero => exact fun h => h
  | succ n ih =>
    intro s t h
    unfold runRows
    rw [h.y, h.height]
    split
    · exact ih (agree_putRow h (hrow s t h))
    · exact h

theorem agree_runPairs (v0 v1 : Byte) :
    ∀ n {s t : State}, AgreeVsp s t → AgreeVsp (runPairs v0 v1 n s) (runPairs v0 v1 n t) := by
  intro n
  induction n with
  | zero => exact fun h => h
  | succ n ih =>
    intro s t h
    have h1 := agree_putRow h (rfl : v0 = v0)
    unfold runPairs
    rw [h.y, h.height]
    split
    · simp only [h1.y, h1.height]
      split
      · exact ih (agree_putRow h1 rfl)
      · exact h1
    · exact h

theorem agree_copyRow (s t : State) (h : AgreeVsp s t) : copyRow t = copyRow s := by
  unfold copyRow prevRead histRead; rw [h.y, h.plane, h.sel, h.hb0, h.hb1]

theorem agree_xorRow (k : Nat) (s t : State) (h : AgreeVsp s t) : xorRow k t = xorRow k s := by
  unfold xorRow curRead histRead; rw [h.y, h.sel, h.hb0, h.hb1, h.mask]

theorem agree_singleRow {s t : State} (h : AgreeVsp s t) (v : Byte) :
    AgreeAnswer AgreeVsp (singleRow v s) (singleRow v t) := by
  unfold singleRow
  rw [h.y, h.height]
  split
  · exact .inl ⟨_, _, rfl, rfl, agree_putRow h rfl⟩
  · exact .inr ⟨_, rfl, rfl⟩

theorem agree_exec_vsp {i : Instr} (hi : i.context = .vsp) {s t : State} (h : AgreeVsp s t) :
    AgreeAnswer AgreeVsp (exec i s) (exec i t) := by
  cases i with
  | copy cnt =>
    exact .inl ⟨_, _, rfl, rfl, agree_runRows agree_copyRow _
      (s := { s with nVsp := _ }) (t := { t with nVsp := _ }) { h with }⟩
  | fill cnt v0 =>
    exact .inl ⟨_, _, rfl, rfl, agree_runRows (fun _ _ _ => rfl) _
      (s := { s with nVsp := _, b0 := _ }) (t := { t with nVsp := _, b0 := _ }) { h with }⟩
  | fill2 cnt v0 v1 =>
    exact .inl ⟨_, _, rfl, rfl, agree_runPairs _ _ _
      (s := { s with nVsp := _, b0 := _, b1 := _ }) (t := { t with nVsp := _, b0 := _, b1 := _ }) { h with }⟩
  | xor0 cnt =>
    have h' := agree_runRows (agree_xorRow 0) (runCount cnt)
      (s := { s with nVsp := runCount cnt }) (t := { t with nVsp := runCount cnt }) { h with }
    exact .inl ⟨_, _, rfl, rfl, { h' with mask := rfl }⟩
  | xor1 cnt =>
    have h' := agree_runRows (agree_xorRow 1) (runCount cnt)
      (s := { s with nVsp := runCount cnt }) (t := { t with nVsp := runCount cnt }) { h with }
    exact .inl ⟨_, _, rfl, rfl, { h' with mask := rfl }⟩
  | xor2 cnt =>
    have h' := agree_runRows (agree_xorRow 2) (runCount cnt)
      (s := { s with nVsp := runCount cnt }) (t := { t with nVsp := runCount cnt }) { h with }
    exact .inl ⟨_, _, rfl, rfl, { h' with mask := rfl }⟩
  | inv => exact .inl ⟨_, _, rfl, rfl, { h with mask := rfl }⟩
  | lit v0 => exact agree_singleRow (s := { s with b0 := v0 }) (t := { t with b0 := v0 }) { h with } v0
  | raw c => exact agree_singleRow h c
  | _ => cases hi

theorem agree_foldl {α : Type} {f : State → α → State} (hf : ∀ s t x, AgreeVsp s t → AgreeVsp (f s x) (f t x)) :
    ∀ (l : List α) {s t : State}, AgreeVsp s t → AgreeVsp (l.foldl f s) (l.foldl f t) := by
  intro l
  induction l with
  | nil => exact fun h => h
  | cons x l ih => exact fun h => ih (hf _ _ x h)

theorem agree_vspPack {s t : State} (h : AgreeVsp s t) : AgreeVsp (vspPack s) (vspPack t) := by
  unfold vspPack packRow
  rw [h.height]
  refine agree_foldl ?_ _ h
  intro s t y h
  refine agree_foldl ?_ _ h
  intro s t j h
  have e : packPixel y t j = { t with outMem := (packPixel y s j).outMem } := by
    simp only [packPixel, pixelAddr, pixel, pixelBit, component, curRead, histRead, h.sel, h.hb0, h.hb1, h.outMem, h.width, h.x]
  rw [e]
  exact { h with outMem := rfl }

theorem agree_endPlane {s t : State} (h : AgreeVsp s t) : AgreeVsp (endPlane s) (endPlane t) := by
  have hp := agree_vspPack h
  unfold endPlane
  rw [h.plane]
  split
  · unfold endStrip
    exact { hp with sel := by simp only [hp.sel], x := by simp only [hp.x], plane := rfl, y := rfl }
  · exact { h with plane := rfl, y := rfl }

theorem agree_imageBytes {s t : State} (h : AgreeBase s t) : imageBytes t = imageBytes s := by
  unfold imageBytes; rw [h.width, h.height]

theorem agree_vspSequence {s t : State} (h : AgreeVsp s t) (hc : s.ctx = .vsp) :
    Agree (vspSequence s) (vspSequence t) := by
  have hs : strips t = strips s := by unfold strips; rw [h.width]
  have hp := agree_endPlane h
  unfold vspSequence
  rw [hs, h.x, h.height, h.y, hp.x]
  split
  · split
    · exact agree_finish (s := emptyStrips s) (t := emptyStrips t) { h with }
        (agree_imageBytes (s := emptyStrips s) (t := emptyStrips t) { h with })
    · split
      · unfold Agree; rw [hc]; exact h
      · have hpc : (endPlane s).ctx = .vsp := by
          unfold endPlane endStrip
          split
          · rw [vspPack_frame]; exact hc
          · exact hc
        split
        · unfold Agree; rw [hpc]; exact hp
        · exact agree_finish hp.toAgreeBase (agree_imageBytes hp.toAgreeBase)
  · exact agree_finish h.toAgreeBase (agree_imageBytes h.toAgreeBase)

/-! ### U-SGD -/

theorem agree_fetchByte {R : State → State → Prop} {s t : State} (h : AgreeBase s t) {k l : Byte → State → Flow}
    (hk : ∀ v, AgreeFlow R (k v { s with ip := s.ip + 1 }) (l v { t with ip := t.ip + 1 })) :
    AgreeFlow R (fetchByte s k) (fetchByte t l) := by
  unfold fetchByte
  by_cases hl : s.lim < s.ip + 1
  · rw [if_pos hl, if_pos (by rw [h.ip, h.lim]; exact hl)]
    exact .inr ⟨_, _, rfl, rfl, (agree_raise h _ h.ip).base, rfl⟩
  · rw [if_neg hl, if_neg (by rw [h.ip, h.lim]; exact hl),
      show Memory.read t.inMem t.ip = Memory.read s.inMem s.ip by rw [h.inMem, h.ip]]
    exact hk _

theorem agree_alphaSlot {s t : State} (h : AgreeSgd s t) (v : Byte) :
    AgreeFlow AgreeSgd (alphaSlot v s) (alphaSlot v t) := by
  rw [alphaSlot_eq, alphaSlot_eq]
  by_cases hf : s.outSize.toNat ≤ s.op
  · rw [if_pos hf, if_pos (by rw [h.outSize, h.op]; exact hf)]
    exact .inr ⟨_, _, rfl, rfl, (agree_raise h.toAgreeBase _ h.ip).base, rfl⟩
  · rw [if_neg hf, if_neg (by rw [h.outSize, h.op]; exact hf)]
    exact .inl ⟨_, _, rfl, rfl, { h with outMem := by simp only [h.outMem, h.op], op := by simp only [h.op] }⟩

theorem agree_colorSlot {s t : State} (h : AgreeColor s t) : AgreeFlow AgreeColor (colorSlot s) (colorSlot t) := by
  rw [colorSlot_eq, colorSlot_eq]
  by_cases hf : s.outSize.toNat ≤ s.op + 2
  · rw [if_pos hf, if_pos (by rw [h.outSize, h.op]; exact hf)]
    exact .inr ⟨_, _, rfl, rfl, (agree_raise h.toAgreeBase _ h.ip).base, rfl⟩
  · rw [if_neg hf, if_neg (by rw [h.outSize, h.op]; exact hf)]
    exact .inl ⟨_, _, rfl, rfl,
      { h with outMem := by simp only [h.outMem, h.op, h.b, h.g, h.r], op := by simp only [h.op] }⟩

theorem agree_alphaRun (v : Byte) :
    ∀ n {s t : State}, AgreeSgd s t → AgreeFlow AgreeSgd (alphaRun v n s) (alphaRun v n t) := by
  intro n
  induction n with
  | zero => exact fun h => .inl ⟨_, _, rfl, rfl, h⟩
  | succ n ih => exact fun h => (agree_alphaSlot h v).andThen fun _ _ h => ih h

theorem agree_colorRun : ∀ n {s t : State}, AgreeColor s t → AgreeFlow AgreeColor (colorRun n s) (colorRun n t) := by
  intro n
  induction n with
  | zero => exact fun h => .inl ⟨_, _, rfl, rfl, h⟩
  | succ n ih => exact fun h => (agree_colorSlot h).andThen fun _ _ h => ih h

theorem agree_alphaLits : ∀ n {s t : State}, AgreeSgd s t → AgreeFlow AgreeSgd (alphaLits n s) (alphaLits n t) := by
  intro n
  induction n with
  | zero => exact fun h => .inl ⟨_, _, rfl, rfl, h⟩
  | succ n ih =>
    intro s t h
    refine AgreeFlow.andThen (R := AgreeSgd) (agree_fetchByte h.toAgreeBase fun v => agree_alphaSlot ?_ _) fun _ _ h => ih h
    exact { h with ip := by simp only [h.ip] }

theorem agree_literalTriple {s t : State} (h : AgreeSgd s t) :
    AgreeFlow AgreeSgd (literalTriple s) (literalTriple t) := by
  unfold literalTriple
  refine agree_fetchByte h.toAgreeBase fun vb => agree_fetchByte ?_ fun vg => agree_fetchByte ?_ fun vr =>
    (agree_colorSlot ?_).mono fun _ _ h => h.toAgreeSgd
  · exact { h with ip := by simp only [h.ip] }
  · exact { h with ip := by simp only [h.ip] }
  · exact { h with ip := by simp only [h.ip], b := rfl, g := rfl, r := rfl }

theorem agree_colorLits : ∀ n {s t : State}, AgreeSgd s t → AgreeFlow AgreeSgd (colorLits n s) (colorLits n t) := by
  intro n
  induction n with
  | zero => exact fun h => .inl ⟨_, _, rfl, rfl, h⟩
  | succ n ih => exact fun h => (agree_literalTriple h).andThen fun _ _ h => ih h

theorem agree_sectionSequence {s t : State} (h : AgreeSgd s t) (hc : s.ctx = .sgdA ∨ s.ctx = .sgdC) :
    Agree (sectionSequence s) (sectionSequence t) := by
  by_cases hl : s.ip < s.lim
  · unfold sectionSequence
    rw [if_pos hl, if_pos (by rw [h.ip, h.lim]; exact hl)]
    unfold Agree
    rcases hc with e | e <;> rw [e] <;> exact h
  · have hl' : ¬t.ip < t.lim := by rw [h.ip, h.lim]; exact hl
    cases hp : s.phase with
    | alpha =>
      rw [sectionSequence_alpha hl hp, sectionSequence_alpha hl' (h.phase.trans hp)]
      show AgreeSgd _ _
      exact { h with lim := h.inLen, phase := rfl, ctx := rfl }
    | color =>
      rw [sectionSequence_color hl hp, sectionSequence_color hl' (h.phase.trans hp)]
      exact agree_finish (s := { s with lim := s.inLen }) (t := { t with lim := t.inLen })
        { h with lim := h.inLen } (by rw [h.outSize])

theorem agree_settle_flow {s : State} {p q : Flow} (hc : s.ctx = .sgdA ∨ s.ctx = .sgdC)
    (hp : ∀ u, p = .cont u → u.ctx = s.ctx) (h : AgreeFlow AgreeSgd p q) :
    AgreeAnswer Agree (settleAnswer p.answer) (settleAnswer q.answer) := by
  rcases h with ⟨u, v, rfl, rfl, h⟩ | ⟨u, v, rfl, rfl, h, h'⟩
  · refine .inl ⟨_, _, rfl, rfl, ?_⟩
    have hu : u.ctx = .sgdA ∨ u.ctx = .sgdC := by rw [hp u rfl]; exact hc
    show Agree (settle u) (settle v)
    rw [settle_section hu, settle_section (by rw [h.ctx]; exact hu)]
    exact agree_sectionSequence h hu
  · refine .inl ⟨_, _, rfl, rfl, ?_⟩
    show Agree (settle u) (settle v)
    rw [settle_host h', settle_host (h.ctx.trans h')]
    exact agree_host h h'

theorem agree_settle_delta {s t : State} (h : AgreeColor s t) (hn : t.nSgd = s.nSgd) (hc : s.ctx = .sgdD) :
    Agree (settle s) (settle t) := by
  have hc' : t.ctx = .sgdD := h.ctx.trans hc
  rw [settle_delta hc, settle_delta hc']
  by_cases h0 : s.nSgd = 0
  · rw [if_pos h0, if_pos (hn.trans h0)]
    exact agree_sectionSequence { h with ctx := rfl } (.inr rfl)
  · rw [if_neg h0, if_neg (by rw [hn]; exact h0)]
    unfold Agree
    rw [hc]
    exact ⟨h, hn⟩

theorem agree_delta_word {s t : State} (h : AgreeColor s t) (hn : t.nSgd = s.nSgd) (hc : s.ctx = .sgdD) :
    AgreeAnswer Agree (settleAnswer (colorSlot s).answer) (settleAnswer (colorSlot t).answer) := by
  rw [colorSlot_eq, colorSlot_eq]
  by_cases hf : s.outSize.toNat ≤ s.op + 2
  · rw [if_pos hf, if_pos (by rw [h.outSize, h.op]; exact hf)]
    exact .inl ⟨_, _, rfl, rfl, agree_raise h.toAgreeBase _ h.ip⟩
  · rw [if_neg hf, if_neg (by rw [h.outSize, h.op]; exact hf)]
    refine .inl ⟨_, _, rfl, rfl, agree_settle_delta
      { h with outMem := by simp only [Flow.state, h.outMem, h.op, h.b, h.g, h.r], op := by simp only [Flow.state, h.op] }
      ?_ hc⟩
    simp only [Flow.state, hn]

theorem Flow.Ends.ctx_eq {L : Nat} {s : State} {f : Flow} (h : f.Ends (SlotsMoved L s) (SlotsRaised L s)) :
    ∀ u, f = .cont u → u.ctx = s.ctx := by
  rintro u rfl
  rw [h.frame]

theorem agree_cDelta (len : BitVec 6) {s t : State} (h : AgreeSgd s t) :
    AgreeAnswer Agree (settleAnswer (execCDelta len s)) (settleAnswer (execCDelta len t)) := by
  unfold execCDelta
  by_cases h4 : s.op < sgdSlot
  · rw [if_pos h4, if_pos (by rw [h.op]; exact h4)]
    exact .inl ⟨_, _, rfl, rfl, agree_raise (s := { s with nSgd := len.toNat }) (t := { t with nSgd := len.toNat })
      { h with } .deltaNoBase (n := s.ip - 1) (m := t.ip - 1) (by rw [h.ip])⟩
  · have h4' : ¬t.op < sgdSlot := by rw [h.op]; exact h4
    rw [if_neg h4, if_neg h4']
    by_cases hf : s.outSize.toNat ≤ s.op - sgdSlot + 2
    · rw [if_pos hf, if_pos (by rw [h.op, h.outSize]; exact hf)]
      exact .inr ⟨_, rfl, rfl⟩
    · rw [if_neg hf, if_neg (by rw [h.op, h.outSize]; exact hf)]
      refine .inl ⟨_, _, rfl, rfl, agree_settle_delta { h with ctx := rfl, b := ?_, g := ?_, r := ?_ } rfl rfl⟩ <;>
        simp only [loadBase, h.outMem, h.op]

/-! ### A step of a job -/

theorem agree_streamStep {s t : State} (h : Agree s t) (hc : s.ctx ≠ .host) :
    AgreeAnswer Agree (streamStep s) (streamStep t) := by
  have hb := h.base
  have hw : fetchWindow t = fetchWindow s := by unfold fetchWindow; rw [hb.inMem, hb.ip, hb.lim]
  rcases streamStep_cases hc with ⟨i, rest, hd, hic, -, -, e⟩ | ⟨n, hd, -, -, e⟩
  · have e' : streamStep t = settleAnswer (exec i (advance i.size t)) := by
      unfold streamStep; rw [hb.ctx, hw, hd]
    rw [e, e']
    unfold Agree at h
    have hip : (advance i.size t).ip = (advance i.size s).ip := by simp only [advance, hb.ip]
    cases hs : s.ctx with
    | host => exact absurd hs hc
    | vsp =>
      simp only [hs] at h
      rcases agree_exec_vsp (hic.trans hs) (s := advance i.size s) (t := advance i.size t) { h with ip := hip } with
        ⟨u, v, e1, e2, hr⟩ | ⟨r, e1, e2⟩
      · rw [e1, e2]
        have hu : u.ctx = .vsp := by rw [(exec_vsp_next (hic.trans hs) e1).frame]; exact hs
        refine .inl ⟨_, _, rfl, rfl, ?_⟩
        simp only [settle, hu, hr.ctx.trans hu]
        exact agree_vspSequence hr hu
      · rw [e1, e2]; exact .inr ⟨_, rfl, rfl⟩
    | hdr =>
      simp only [hs] at h
      have ha : AgreeSgd (advance i.size s) (advance i.size t) := { h with ip := hip }
      rw [hs] at hic
      cases i with
      | sLen len =>
        show AgreeAnswer _ (settleAnswer (execSLen len _)) (settleAnswer (execSLen len _))
        unfold execSLen
        have hn : (advance (Instr.size (.sLen len)) t).ip + len.toNat = (advance (Instr.size (.sLen len)) s).ip + len.toNat := by
          rw [ha.ip]
        by_cases hf : (advance (Instr.size (.sLen len)) s).inLen < (advance (Instr.size (.sLen len)) s).ip + len.toNat
        · rw [if_pos hf, if_pos (by rw [hn, ha.inLen]; exact hf)]
          exact .inl ⟨_, _, rfl, rfl, agree_raise ha.toAgreeBase _ ha.ip⟩
        · rw [if_neg hf, if_neg (by rw [hn, ha.inLen]; exact hf)]
          refine .inl ⟨_, _, rfl, rfl, ?_⟩
          cases hp : (advance (Instr.size (.sLen len)) s).phase with
          | alpha =>
            rw [enterSection_alpha _ hp, enterSection_alpha _ (ha.phase.trans hp), settle_section (.inl rfl),
              settle_section (.inl rfl)]
            exact agree_sectionSequence { ha with lim := hn, op := rfl, ctx := rfl } (.inl rfl)
          | color =>
            rw [enterSection_color _ hp, enterSection_color _ (ha.phase.trans hp), settle_section (.inr rfl),
              settle_section (.inr rfl)]
            exact agree_sectionSequence { ha with lim := hn, op := rfl, ctx := rfl } (.inr rfl)
      | _ => cases hic
    | sgdA =>
      simp only [hs] at h
      have ha : AgreeSgd (advance i.size s) (advance i.size t) := { h with ip := hip }
      rw [hs] at hic
      cases i with
      | aRle cnt v =>
        exact agree_settle_flow (.inl hs) (fun u e => ((alphaRun_moved _ _ _).ctx_eq u e).trans rfl)
          (agree_alphaRun _ _ { ha with })
      | aLit cnt =>
        exact agree_settle_flow (.inl hs) (fun u e => ((alphaLits_moved _ _).ctx_eq u e).trans rfl)
          (agree_alphaLits _ { ha with })
      | _ => cases hic
    | sgdC =>
      simp only [hs] at h
      have ha : AgreeSgd (advance i.size s) (advance i.size t) := { h with ip := hip }
      rw [hs] at hic
      cases i with
      | cLit len =>
        exact agree_settle_flow (.inr hs) (fun u e => ((colorLits_moved _ _).ctx_eq u e).trans rfl)
          (agree_colorLits _ { ha with })
      | cRep len vb vg vr =>
        exact agree_settle_flow (.inr hs) (fun u e => ((colorRun_moved _ _).ctx_eq u e).trans rfl)
          (AgreeFlow.mono (R := AgreeColor) (agree_colorRun _ { ha with b := rfl, g := rfl, r := rfl })
            fun _ _ h => h.toAgreeSgd)
      | cDelta len =>
        exact agree_cDelta len ha
      | cIllegal low => exact .inl ⟨_, _, rfl, rfl, agree_raise ha.toAgreeBase _ (by rw [ha.ip])⟩
      | _ => cases hic
    | sgdD =>
      simp only [hs] at h
      obtain ⟨h, hn⟩ := h
      rw [hs] at hic
      cases i with
      | dAdd dR dG dB =>
        refine agree_delta_word (s := { advance _ s with b := _, g := _, r := _ })
          (t := { advance _ t with b := _, g := _, r := _ }) { h with ip := hip, b := ?_, g := ?_, r := ?_ } hn hs <;>
          simp only [advance, h.b, h.g, h.r]
      | dSm sR mR sG mG sB mB =>
        refine agree_delta_word (s := { advance _ s with b := _, g := _, r := _ })
          (t := { advance _ t with b := _, g := _, r := _ }) { h with ip := hip, b := ?_, g := ?_, r := ?_ } hn hs <;>
          simp only [advance, h.b, h.g, h.r]
      | _ => cases hic
  · have e' : streamStep t =
        .next (raise .streamUnderrun (t.ip + n) (latchOperands t.ctx ((fetchWindow t).take n) (advance n t))) := by
      unfold streamStep; rw [hb.ctx, hw, hd]
    have latched : AgreeBase (latchOperands s.ctx ((fetchWindow s).take n) (advance n s))
        (latchOperands t.ctx ((fetchWindow t).take n) (advance n t)) := by
      rw [latchOperands_frame, latchOperands_frame t.ctx]
      exact { hb with ip := by simp only [advance, hb.ip] }
    rw [e, e']
    exact .inl ⟨_, _, rfl, rfl, agree_raise latched .streamUnderrun (by rw [hb.ip])⟩

end Sys2Proof.Machine
end

