-- ==== Sys2Proof/Laws/PerInstr.lean ====
section
/-! SUPPORT. Statements made per instruction. `FixedBytes`: an instruction has at least one fixed byte and at most
`maxSize` of them (30_encoding.md R91), so a fetched instruction always moves `ip`, and the fetch window holds it. -/

namespace Sys2Proof.Laws.FixedBytes

open Sys2Proof

def Statement (i : Instr) : Prop := 1 ≤ i.size ∧ i.size ≤ maxSize

theorem of_length {i : Instr} (h : Nat.ble 1 i.size = true) (h' : Nat.ble i.size maxSize = true) : Statement i :=
  ⟨Nat.le_of_ble_eq_true h, Nat.le_of_ble_eq_true h'⟩

theorem copy (cnt : Byte) : Statement (.copy cnt) := of_length rfl rfl

theorem fill (cnt b0 : Byte) : Statement (.fill cnt b0) := of_length rfl rfl

theorem fill2 (cnt b0 b1 : Byte) : Statement (.fill2 cnt b0 b1) := of_length rfl rfl

theorem xor0 (cnt : Byte) : Statement (.xor0 cnt) := of_length rfl rfl

theorem xor1 (cnt : Byte) : Statement (.xor1 cnt) := of_length rfl rfl

theorem xor2 (cnt : Byte) : Statement (.xor2 cnt) := of_length rfl rfl

theorem inv : Statement .inv := of_length rfl rfl

theorem lit (b0 : Byte) : Statement (.lit b0) := of_length rfl rfl

theorem raw (c : Byte) : Statement (.raw c) := of_length rfl rfl

theorem sLen (len : Word) : Statement (.sLen len) := of_length rfl rfl

theorem aRle (cnt : BitVec 15) (a : Byte) : Statement (.aRle cnt a) := of_length rfl rfl

theorem aLit (cnt : BitVec 15) : Statement (.aLit cnt) := of_length rfl rfl

theorem cLit (len : BitVec 6) : Statement (.cLit len) := of_length rfl rfl

theorem cRep (len : BitVec 6) (b g r : Byte) : Statement (.cRep len b g r) := of_length rfl rfl

theorem cDelta (len : BitVec 6) : Statement (.cDelta len) := of_length rfl rfl

theorem cIllegal (low : BitVec 6) : Statement (.cIllegal low) := of_length rfl rfl

theorem dAdd (dR dG dB : BitVec 5) : Statement (.dAdd dR dG dB) := of_length rfl rfl

theorem dSm (sR : Bool) (mR : BitVec 4) (sG : Bool) (mG : BitVec 4) (sB : Bool) (mB : BitVec 4) : Statement (.dSm sR mR sG mG sB mB) := of_length rfl rfl

theorem prngSeed : Statement .prngSeed := of_length rfl rfl

theorem prngMix : Statement .prngMix := of_length rfl rfl

theorem prngNext : Statement .prngNext := of_length rfl rfl

theorem vspDecode : Statement .vspDecode := of_length rfl rfl

theorem sgdDecode : Statement .sgdDecode := of_length rfl rfl

end Sys2Proof.Laws.FixedBytes
end

