-- ==== Sys2Proof/Tests/Slice0.lean ====
section
/-! SUPPORT. Small tests: what the checks refuse, words written out from 30_encoding.md, one step per instruction with the
values of the spec's own examples, and for every statement a state and operands that meet its hypotheses. -/

namespace Sys2Proof.Tests

open Sys2Proof Sys2Proof.Machine

/-! ### Well-formedness: the one check -/

theorem test_raw_below_8_is_ill_formed : (Instr.raw 0x07).wellFormed = false := by decide

theorem test_raw_from_8_is_well_formed : (Instr.raw 0x08).wellFormed = true := by decide

/-! ### Decoding: the bytes are written out from the formats of 30_encoding.md -/

theorem test_decode_copy : decode .vsp [0x00, 0x7F] = .ok (.copy 0x7F, []) := rfl

theorem test_decode_fill : decode .vsp [0x01, 0x03, 0xAA, 0x55] = .ok (.fill 0x03 0xAA, [0x55]) := rfl

theorem test_decode_fill2 : decode .vsp [0x02, 0x07, 0xF0, 0x0F] = .ok (.fill2 0x07 0xF0 0x0F, []) := rfl

theorem test_decode_xor0 : decode .vsp [0x03, 0x01] = .ok (.xor0 0x01, []) := rfl

theorem test_decode_xor1 : decode .vsp [0x04, 0x02] = .ok (.xor1 0x02, []) := rfl

theorem test_decode_xor2 : decode .vsp [0x05, 0xFF] = .ok (.xor2 0xFF, []) := rfl

theorem test_decode_inv : decode .vsp [0x06, 0x06] = .ok (.inv, [0x06]) := rfl

theorem test_decode_lit : decode .vsp [0x07, 0x03] = .ok (.lit 0x03, []) := rfl

theorem test_decode_raw : decode .vsp [0x08] = .ok (.raw 0x08, []) ∧ decode .vsp [0xFF] = .ok (.raw 0xFF, []) :=
  ⟨rfl, rfl⟩

theorem test_decode_sLen : decode .hdr [0x0A, 0x01, 0x00, 0x80] = .ok (.sLen 0x8000010A, []) := rfl

/-- `f = 0x8002`: bit 15 set, count 2. -/
theorem test_decode_aRle : decode .sgdA [0x02, 0x80, 0x55] = .ok (.aRle 2 0x55, []) := rfl

/-- `f = 0x7F01`: bit 15 clear, the second byte is the high one. -/
theorem test_decode_aLit : decode .sgdA [0x01, 0x7F] = .ok (.aLit 0x7F01, []) := rfl

/-- `f = 00 000011b`. -/
theorem test_decode_cLit : decode .sgdC [0x03, 0x01] = .ok (.cLit 3, [0x01]) := rfl

/-- `f = 01 000001b`, then B, G, R. -/
theorem test_decode_cRep : decode .sgdC [0x41, 0x10, 0x80, 0xF8] = .ok (.cRep 1 0x10 0x80 0xF8, []) := rfl

/-- `f = 10 000010b`. -/
theorem test_decode_cDelta : decode .sgdC [0x82, 0x41] = .ok (.cDelta 2, [0x41]) := rfl

/-- `f = 11 000000b` and `11 111111b`. -/
theorem test_decode_cIllegal :
    decode .sgdC [0xC0] = .ok (.cIllegal 0, []) ∧ decode .sgdC [0xFF] = .ok (.cIllegal 63, []) := ⟨rfl, rfl⟩

/-- `d = 0xFC41 = 1 11111 00010 00001b`. -/
theorem test_decode_dAdd : decode .sgdD [0x41, 0xFC] = .ok (.dAdd 31 2 1, []) := rfl

/-- `d = 0x407F = 0 1 0000 0 0011 1 1111b`. -/
theorem test_decode_dSm : decode .sgdD [0x7F, 0x40] = .ok (.dSm true 0 false 3 true 15, []) := rfl

theorem test_decode_commands :
    decode .host [0x01] = .ok (.prngSeed, []) ∧ decode .host [0x02] = .ok (.prngMix, []) ∧
    decode .host [0x03] = .ok (.prngNext, []) ∧ decode .host [0x04] = .ok (.vspDecode, []) ∧
    decode .host [0x05] = .ok (.sgdDecode, []) ∧ decode .host [0x06] = .error (.badCommand 0x06) ∧
    decode .host [0x00] = .error (.badCommand 0x00) := ⟨rfl, rfl, rfl, rfl, rfl, rfl, rfl⟩

/-- The fetch that fails is the one after the bytes that were there. -/
theorem test_decode_truncated :
    decode .vsp [] = .error (.truncated 0) ∧ decode .vsp [0x02, 0x07, 0xF0] = .error (.truncated 3) ∧
    decode .hdr [0x01, 0x02, 0x03] = .error (.truncated 0) ∧ decode .sgdA [0x02, 0x80] = .error (.truncated 2) ∧
    decode .sgdA [0x02] = .error (.truncated 0) ∧ decode .sgdC [0x40, 0x01] = .error (.truncated 2) ∧
    decode .sgdD [0x41] = .error (.truncated 0) := ⟨rfl, rfl, rfl, rfl, rfl, rfl, rfl⟩

theorem test_encode_is_little_endian :
    encode (.sLen 0x8000010A) = [0x0A, 0x01, 0x00, 0x80] ∧ encode (.aRle 2 0x55) = [0x02, 0x80, 0x55] ∧
    encode (.dSm true 0 false 3 true 15) = [0x7F, 0x40] := by decide

/-! ### The opcode table's numbering and where a word is placed -/

theorem test_table_words :
    decodeTableWord 32 0x000F0702 = some (.sLen 0x000F0702) ∧ decodeTableWord 16 0x8002 = some (.aRle 2 0x00) ∧
    decodeTableWord 16 0x0003 = some (.aLit 3) ∧ decodeTableWord 8 0x01 = some (.fill 0x00 0x00) ∧
    decodeTableWord 8 0x41 = some (.cRep 1 0x00 0x00 0x00) ∧ decodeTableWord 8 0xC0 = some (.cIllegal 0) := by decide

/-! ### One step of each instruction, with the values of the spec's examples -/

/-- The next state, if there is one. -/
def ran (o : Answer) : Option State :=
  match o with
  | .next s => some s
  | .fault _ => none
  | .refused _ => none

/-- A VSP job inside a plane: `cur` and `previous` are the two buffers, keyed by `4 * row + plane`. -/
def strip (plane : Fin 4) (y : Nat) (height : Word) (cur previous : Memory) : State :=
  { State.reset with
    cmd := 0x04, status := .busy, width := 8, height := height, plane := plane, y := y, hb0 := cur, hb1 := previous,
    ctx := .vsp }

/-- A job whose stream is `bytes`, at its first byte. -/
def stream (ctx : Context) (phase : Phase) (outSize : Word) (op : Nat) (bytes : List Byte) : State :=
  { State.reset with
    cmd := 0x05, status := .busy, width := 8, height := 1, outSize := outSize, op := op, phase := phase,
    inMem := Memory.load [] 0 bytes, inLen := bytes.length, lim := bytes.length, ctx := ctx }

/-- The block at `CMD` with a queue of host actions. -/
def waiting (acts : List HostAction) : State := { State.reset with host := acts }

/-- The example of R142. -/
theorem test_copy :
    (ran (exec (.copy 0x01) (strip 2 1 4 [] [(2, 0xA0), (6, 0xA1), (10, 0xA2), (14, 0xA3)]))).map
      (fun t => (t.hb0, t.y, t.mask)) = some ([(6, 0xA1), (10, 0xA2)], 3, 0x00) := by decide

/-- The example of R143: truncated by the column's end. -/
theorem test_fill :
    (ran (exec (.fill 0xFF 0xAA) (strip 0 0 4 [] []))).map (fun t => (t.hb0, t.y)) =
      some ([(0, 0xAA), (4, 0xAA), (8, 0xAA), (12, 0xAA)], 4) := by decide +kernel

/-- The example of R144: it ends between the halves of a pair. -/
theorem test_fill2 :
    (ran (exec (.fill2 0x07 0xF0 0x0F) (strip 0 0 3 [] []))).map (fun t => (t.hb0, t.y)) =
      some ([(0, 0xF0), (4, 0x0F), (8, 0xF0)], 3) := by decide +kernel

/-- The example of R145. -/
theorem test_xor0 :
    (ran (exec (.xor0 0x01) { strip 1 0 4 [(0, 0xC3), (4, 0xC3), (8, 0xC3), (12, 0xC3)] [] with mask := 0xFF })).map
      (fun t => (curRead 0 1 t, curRead 1 1 t, curRead 2 1 t, t.y, t.mask)) = some (0x3C, 0x3C, 0x00, 2, 0x00) := by decide

/-- The example of R146. -/
theorem test_xor1 :
    (ran (exec (.xor1 0x00) (strip 3 2 4 [(9, 0x5A), (13, 0x0F)] []))).map
      (fun t => (curRead 2 3 t, curRead 3 3 t, t.y)) = some (0x5A, 0x00, 3) := by decide

/-- The example of R147: truncated, mask cleared. -/
theorem test_xor2 :
    (ran (exec (.xor2 0x07) { strip 3 0 2 [(2, 0x10), (6, 0x20)] [] with mask := 0xFF })).map
      (fun t => (curRead 0 3 t, curRead 1 3 t, t.y, t.mask)) = some (0xEF, 0xDF, 2, 0x00) := by decide

theorem test_inv_sets : (ran (exec .inv { strip 1 0 4 [] [] with mask := 0xFF })).map (fun t => (t.mask, t.y)) =
    some (0xFF, 0) := by decide

theorem test_lit : (ran (exec (.lit 0x03) (strip 1 1 4 [] []))).map (fun t => (t.hb0, t.y)) =
    some ([(5, 0x03)], 2) := by decide

theorem test_raw : (ran (exec (.raw 0x80) (strip 2 0 4 [] []))).map (fun t => (t.hb0, t.y)) =
    some ([(2, 0x80)], 1) := by decide

/-- T-VSP-1's last byte (95_test_vectors.md): the strip is packed, and the job ends. -/
theorem test_last_plane_byte_packs_and_ends :
    (ran (step { strip 3 0 1 [(0, 0xFF), (1, 0x0F), (2, 0x33)] [] with
      inMem := [(0, 0x55)], inLen := 1, lim := 1 })).bind readOut =
      some [0x0D, 0x05, 0x09, 0x03, 0x0F, 0x07, 0x0B, 0x01] := by decide +kernel

/-- A section of three bytes that lies inside the stream. -/
theorem test_sLen :
    (ran (step (stream .hdr .alpha 12 0 [0x03, 0x00, 0x00, 0x00, 0x02, 0x80, 0x00]))).map
      (fun t => (t.ctx, t.lim, t.op, t.ip)) = some (.sgdA, 7, 3, 4) := by decide

/-- The same without its last byte: the section reaches past `IN` (R171). -/
theorem test_sLen_past_the_end :
    (ran (step (stream .hdr .alpha 12 0 [0x03, 0x00, 0x00, 0x00, 0x02, 0x80]))).map
      (fun t => (t.status, t.faultCode, t.faultIp)) = some (.fault, 0x10, 4) := by decide

/-- The example of R173. -/
theorem test_aRle :
    (ran (exec (.aRle 2 0x00) (stream .sgdA .alpha 12 3 []))).map (fun t => (t.outMem, t.op)) =
      some ([(3, 0xFF), (7, 0xFF), (11, 0xFF)], 15) := by decide

/-- The example of R174. -/
theorem test_aLit :
    (ran (exec (.aLit 2) (stream .sgdA .alpha 12 3 [0xFF, 0x7F]))).map (fun t => (t.outMem, t.op, t.ip)) =
      some ([(7, 0x80)], 11, 2) := by decide

/-- The example of R194. -/
theorem test_cLit :
    (ran (exec (.cLit 3) (stream .sgdC .color 12 0 [1, 2, 3, 4, 5, 6, 7, 8, 9]))).map (fun t => (t.outMem, t.op)) =
      some ([(0, 1), (1, 2), (2, 3), (4, 4), (5, 5), (6, 6), (8, 7), (9, 8), (10, 9)], 12) := by decide

/-- The example of R191. -/
theorem test_cRep :
    (ran (exec (.cRep 1 0x10 0x80 0xF8) (stream .sgdC .color 12 0 []))).map (fun t => (t.outMem, t.op)) =
      some ([(0, 0x10), (1, 0x80), (2, 0xF8), (4, 0x10), (5, 0x80), (6, 0xF8)], 8) := by decide

/-- The example of R188, up to its first word. -/
theorem test_cDelta :
    (ran (exec (.cDelta 2)
      { stream .sgdC .color 12 4 [] with outMem := [(0, 0x10), (1, 0x80), (2, 0xF8)] })).map
      (fun t => (t.b, t.g, t.r, t.nSgd, t.ctx)) = some (0x10, 0x80, 0xF8, 2, .sgdD) := by decide

/-- Without a previous slot: `DeltaNoBase` at the flag's offset. -/
theorem test_cDelta_without_base :
    (ran (step (stream .sgdC .color 12 0 [0x81, 0x00, 0x00]))).map (fun t => (t.faultCode, t.faultIp, t.ip)) =
      some (0x12, 0, 1) := by decide

theorem test_cIllegal :
    (ran (step (stream .sgdC .color 12 0 [0xC0]))).map (fun t => (t.faultCode, t.faultIp, t.ip)) =
      some (0x02, 0, 1) := by decide

/-- The first word of R188's example. -/
theorem test_dAdd :
    (ran (exec (.dAdd 31 2 1) { stream .sgdD .color 12 4 [] with b := 0x10, g := 0x80, r := 0xF8, nSgd := 2 })).map
      (fun t => (t.outMem, t.op, t.nSgd)) = some ([(4, 0x11), (5, 0x82), (6, 0x17)], 8, 1) := by decide

/-- The second word of R188's example. -/
theorem test_dSm :
    (ran (exec (.dSm true 0 false 3 true 15)
      { stream .sgdD .color 12 8 [] with b := 0x11, g := 0x82, r := 0x17, nSgd := 1 })).map
      (fun t => (t.outMem, t.op)) = some ([(8, 0x02), (9, 0x85), (10, 0x17)], 12) := by decide

/-- The example of R121. -/
theorem test_prngSeed :
    (ran (exec .prngSeed { State.reset with seed := 1 })).map
      (fun t => (mtAt t.mt 1, mtAt t.mt 2, mtAt t.mt 63, t.mti)) =
      some (0x6611BC1A, 0x3DAA32A5, 0x2D577826, 64) := by decide +kernel

/-- The example of R126: the first two words of `PRNG_SEED 1`, nine mix bytes. -/
theorem test_prngMix :
    (ran (exec .prngMix { State.reset with
      mt := mtPut (mtPut State.reset.mt 0 1) 1 0x6611BC1A, mti := 64, mixLen := 9,
      mixMem := Memory.load [] 0 [0x01, 0x00, 0x00, 0x00, 0xEF, 0xBE, 0xAD, 0xDE, 0xAA] })).map
      (fun t => (mtAt t.mt 0, mtAt t.mt 1, mtAt t.mt 2, t.mti)) = some (0x00000000, 0xB8BC02F5, 0, 64) := by decide +kernel

/-- T-MT-5's first draw: from reset, with the default seed. -/
theorem test_prngNext_from_reset :
    (ran (exec .prngNext State.reset)).map (fun t => (t.result, t.mti)) = some (0xC4E4D2FA, 1) := by decide +kernel

/-- T-MT-1's first draw: after `PRNG_SEED 1`. -/
theorem test_prngNext_after_seed :
    ((ran (exec .prngSeed { State.reset with seed := 1 })).bind fun t => ran (exec .prngNext t)).map
      (fun t => t.result) = some 0x0F9C176B := by decide +kernel

theorem test_vspDecode :
    (ran (step { waiting [.command 0x04] with width := 8, height := 1, mask := 0xFF, hb0 := [(0, 1)], ip := 5 })).map
      (fun t => (t.ctx, t.mask, t.hb0.length, t.ip)) = some (.vsp, 0x00, 0, 0) := by decide

theorem test_vspDecode_bad_width :
    (ran (step { waiting [.command 0x04] with width := 9, height := 1 })).map
      (fun t => (t.status, t.faultCode, t.faultIp)) = some (.fault, 0x01, 0) := by decide

/-- U15: a stream longer than `MAX_IN_BYTES` is rejected at job start. -/
theorem test_vspDecode_stream_past_the_capacity :
    (ran (step { waiting [.command 0x04] with
      width := 8, height := 1, inLen := 5, cap := { Capacity.unbounded with maxInBytes := some 4 } })).map
      (fun t => (t.status, t.faultCode, t.faultIp)) = some (.fault, 0x01, 0) := by decide

/-- R33: the register takes every value; D27: what lies past the capacity is not loaded. -/
theorem test_host_load_past_the_capacity :
    ((ran (step { waiting [.setInLen 9] with cap := { Capacity.unbounded with maxInBytes := some 4 } })).map
      fun t => t.inLen) = some 9 ∧
    ((ran (step { waiting [.loadIn 3 [7, 8]] with cap := { Capacity.unbounded with maxInBytes := some 4 } })).map
      fun t => t.inMem) = some [(3, 7)] := by decide

theorem test_sgdDecode :
    (ran (step { waiting [.command 0x05] with csize := 12, innerLen := 8, outSize := 4 })).map
      (fun t => (t.status, t.ctx, t.phase, t.op)) = some (.busy, .hdr, .alpha, 3) := by decide

/-- T-SGD-10: the sum of the frame check is not reduced. -/
theorem test_sgdDecode_frame :
    (ran (step { waiting [.command 0x05] with csize := 0, innerLen := 0xFFFFFFFC })).map
      (fun t => (t.status, t.faultCode, t.faultIp)) = some (.fault, 0x02, 0) := by decide

/-! ### Witnesses: a state and operands for the hypotheses of each statement, at the boundaries of each clause -/

theorem inv_job {s : State}
    (hm : Memory.wf s.inMem ∧ Memory.wf s.mixMem ∧ Memory.wf s.outMem ∧ Memory.wf s.hb0 ∧ Memory.wf s.hb1)
    (hc : 1 ≤ s.mti ∧ s.mti ≤ 65) (hk : s.mask = 0x00 ∨ s.mask = 0xFF)
    (hs : s.status = .busy ∧ s.ctx ≠ .host ∧ s.faultCode = 0x00 ∧ s.outValid = false) (hj : s.JobOk) : s.Inv where
  mem := ⟨hm.1, hm.2.1, hm.2.2.1, hm.2.2.2.1, hm.2.2.2.2⟩
  cursor := hc
  maskOk := hk
  statusOk := ⟨by simp [hs.1, hs.2.1], fun _ => hs.2.2.1, by simp [hs.1], fun _ => hs.2.2.2⟩
  job := hj

theorem inv_idle {s : State}
    (hm : Memory.wf s.inMem ∧ Memory.wf s.mixMem ∧ Memory.wf s.outMem ∧ Memory.wf s.hb0 ∧ Memory.wf s.hb1)
    (hc : 1 ≤ s.mti ∧ s.mti ≤ 65) (hk : s.mask = 0x00 ∨ s.mask = 0xFF)
    (hs : s.status = .idle ∧ s.ctx = .host ∧ s.faultCode = 0x00) : s.Inv where
  mem := ⟨hm.1, hm.2.1, hm.2.2.1, hm.2.2.2.1, hm.2.2.2.2⟩
  cursor := hc
  maskOk := hk
  statusOk := ⟨by simp [hs.1, hs.2.1], fun _ => hs.2.2, by simp [hs.1], by simp [hs.2.1]⟩
  job := by unfold State.JobOk; rw [hs.2.1]; trivial

/-- The last row of the last plane of the last strip. -/
def vspJob : State :=
  { strip 3 0 1 [(0, 0xFF), (1, 0x0F), (2, 0x33)] [] with inMem := [(0, 0x55)], inLen := 1, lim := 1 }

/-- At the header of the alpha section. -/
def hdrJob : State := stream .hdr .alpha 12 0 [0x03, 0x00, 0x00, 0x00, 0x02, 0x80, 0x00]

/-- Inside the alpha section. -/
def alphaJob : State := stream .sgdA .alpha 4 3 [0x00, 0x80, 0x55]

/-- Inside the colour section, at an illegal flag. -/
def colorJob : State := stream .sgdC .color 12 0 [0xC0]

/-- Inside a delta run, at its last word. -/
def deltaJob : State :=
  { stream .sgdD .color 12 4 [0x41, 0xFC] with
    b := 0x10, g := 0x80, r := 0xF8, nSgd := 1, outMem := [(0, 0x10), (1, 0x80), (2, 0xF8)] }

theorem inv_vspJob : vspJob.Inv :=
  inv_job (by decide) (by decide) (by decide) (by decide) ⟨by decide, by decide, by decide, by decide, by decide⟩

theorem inv_hdrJob : hdrJob.Inv :=
  inv_job (by decide) (by decide) (by decide) (by decide) ⟨by decide, by decide⟩

theorem inv_alphaJob : alphaJob.Inv :=
  inv_job (by decide) (by decide) (by decide) (by decide) ⟨by decide, by decide, by decide, by decide⟩

theorem inv_colorJob : colorJob.Inv :=
  inv_job (by decide) (by decide) (by decide) (by decide) ⟨by decide, by decide, by decide, by decide, by decide⟩

theorem inv_deltaJob : deltaJob.Inv :=
  inv_job (by decide) (by decide) (by decide) (by decide)
    ⟨by decide, by decide, by decide, by decide, by decide, by decide, by decide⟩

theorem outOk_vspJob : vspJob.OutOk := show ∀ c ∈ vspJob.outMem, c.1 < imageBytes vspJob ∧ c.2.toNat < 16 by decide

theorem outOk_deltaJob : deltaJob.OutOk := show ∀ c ∈ deltaJob.outMem, c.1 < deltaJob.outSize.toNat by decide

theorem inv_waiting (c : Byte) : (waiting [.command c]).Inv :=
  inv_idle ⟨Memory.wf_nil, Memory.wf_nil, Memory.wf_nil, Memory.wf_nil, Memory.wf_nil⟩ ⟨by decide +revert, by decide +revert⟩
    (.inl rfl) ⟨rfl, rfl, rfl⟩

theorem memOk_reset : State.reset.MemOk := ⟨by decide, by decide, by decide, by decide, by decide⟩

theorem witness_DecodeOfEncodeIsTheInstruction :
    (Instr.raw 0x08).wellFormed = true ∧ (Instr.raw 0xFF).wellFormed = true := by decide

theorem witness_DecodedBytesAreTheEncoding : decode .vsp [0x08] = .ok (.raw 0x08, []) := rfl

theorem witness_IllegalEncodingsAreExactlyThese :
    0xC0 ≤ (0xC0 : Byte).toNat ∧ Context.sgdC ≠ .host ∧ (1 ≤ (0x01 : Byte).toNat ∧ (0x05 : Byte).toNat ≤ 5) ∧
    ¬(1 ≤ (0x00 : Byte).toNat ∧ (0x00 : Byte).toNat ≤ 5) ∧ ¬(1 ≤ (0x06 : Byte).toNat ∧ (0x06 : Byte).toNat ≤ 5) ∧
    (waiting [.command 0x06]).resetIn = false ∧ (waiting [.command 0x06]).ctx = .host ∧
    (waiting [.command 0x06]).host = .command 0x06 :: [] := by decide

theorem witness_MultiByteQuantitiesAreLittleEndian : 128 ≤ (0x80 : Byte).toNat ∧ (0x7F : Byte).toNat < 128 := by decide

theorem witness_StepRunsTheDecodedInstruction :
    (vspJob.resetIn = false ∧ vspJob.ctx ≠ .host ∧ decode vspJob.ctx (fetchWindow vspJob) = .ok (.raw 0x55, [])) ∧
    (waiting [.command 0x01]).host = .command 0x01 :: [] ∧ decode .host [0x01] = .ok (.prngSeed, []) :=
  ⟨⟨rfl, by decide, rfl⟩, rfl, rfl⟩

/-- A stream whose last instruction is whole, and one whose last byte is missing. -/
theorem witness_VspInstructionsFetchBeforeTheyWrite :
    (let s := { strip 0 0 4 [] [] with inMem := [(0, 0x01), (2, 0xAA)], lim := 3 };
      s.resetIn = false ∧ s.ctx = .vsp ∧ s.ip + vspLength (Memory.read s.inMem s.ip) = s.lim) ∧
    (let s := { strip 0 0 4 [] [] with inMem := [(0, 0x01)], lim := 2 };
      s.lim < s.ip + vspLength (Memory.read s.inMem s.ip)) := by decide

theorem witness_ShortStreamsRaiseUnderrun :
    (let s := { strip 0 0 4 [] [] with inMem := [(0, 0x01)], lim := 2 };
      s.resetIn = false ∧ s.ctx = .vsp ∧ s.lim < s.ip + vspLength (Memory.read s.inMem s.ip)) ∧
    (let s := stream .hdr .alpha 4 0 [0x03, 0x00, 0x00];
      s.resetIn = false ∧ s.ctx = .hdr ∧ s.lim < s.ip + 4) ∧
    (let s := stream .sgdA .alpha 4 3 [0x03];
      s.ctx = .sgdA ∧ s.lim < s.ip + 2) ∧
    (let s := stream .sgdA .alpha 4 3 [0x03, 0x80];
      s.ctx = .sgdA ∧ s.lim = s.ip + 2 ∧ 128 ≤ (Memory.read s.inMem (s.ip + 1)).toNat) ∧
    (let s := stream .sgdC .color 4 0 [];
      s.ctx = .sgdC ∧ s.lim ≤ s.ip) ∧
    (let s := stream .sgdC .color 4 0 [0x7F, 0x01, 0x02];
      s.ctx = .sgdC ∧ s.ip < s.lim ∧ s.lim < s.ip + 4 ∧ 0x40 ≤ (Memory.read s.inMem s.ip).toNat ∧
        (Memory.read s.inMem s.ip).toNat < 0x80) ∧
    (let s := stream .sgdD .color 4 4 [0x41];
      s.ctx = .sgdD ∧ s.lim < s.ip + 2) := by decide

theorem witness_ResetAbandonsEverything : { vspJob with resetIn := true }.resetIn = true := rfl

/-- A step of every position of a job, and one at `CMD`. -/
theorem witness_StepKeepsTheInvariant :
    (vspJob.Inv ∧ ∃ t, step vspJob = .next t) ∧ (hdrJob.Inv ∧ ∃ t, step hdrJob = .next t) ∧
    (alphaJob.Inv ∧ ∃ t, step alphaJob = .next t) ∧ (colorJob.Inv ∧ ∃ t, step colorJob = .next t) ∧
    (deltaJob.Inv ∧ ∃ t, step deltaJob = .next t) ∧
    ((waiting [.command 0x02]).Inv ∧ ∃ t, step (waiting [.command 0x02]) = .next t) :=
  ⟨⟨inv_vspJob, _, rfl⟩, ⟨inv_hdrJob, _, rfl⟩, ⟨inv_alphaJob, _, rfl⟩, ⟨inv_colorJob, _, rfl⟩, ⟨inv_deltaJob, _, rfl⟩,
    inv_waiting _, _, rfl⟩

theorem witness_StepKeepsOutInside :
    (vspJob.Inv ∧ vspJob.OutOk ∧ ∃ t, step vspJob = .next t) ∧
    (deltaJob.Inv ∧ deltaJob.OutOk ∧ ∃ t, step deltaJob = .next t) :=
  ⟨⟨inv_vspJob, outOk_vspJob, _, rfl⟩, inv_deltaJob, outOk_deltaJob, _, rfl⟩

theorem witness_NoStopFromTheInvariant : vspJob.Inv ∧ deltaJob.Inv ∧ State.reset.Inv :=
  ⟨inv_vspJob, inv_deltaJob, inv_idle (by decide) (by decide) (by decide) ⟨rfl, rfl, rfl⟩⟩

theorem witness_EveryCommandTerminates :
    (vspJob.Inv ∧ vspJob.resetIn = false ∧ vspJob.ctx ≠ .host) ∧
    (waiting [.command 0x04]).Inv ∧ (waiting [.command 0x04]).resetIn = false ∧ (waiting [.command 0x04]).ctx = .host ∧
    (waiting [.command 0x04]).host = .command 0x04 :: [] :=
  ⟨⟨inv_vspJob, rfl, by decide⟩, inv_waiting _, rfl, rfl, rfl⟩

/-- Two blocks with one input and different pasts. -/
theorem witness_DecodeResultDependsOnlyOnItsInput :
    (let s := waiting [.command 0x04];
      let s' := { waiting [.command 0x04] with outMem := [(0, 1)], mti := 3, mask := 0xFF, ip := 7, result := 9 };
      s.Inv ∧ s'.Inv ∧ s.resetIn = false ∧ s'.resetIn = false ∧ s.ctx = .host ∧ s'.ctx = .host ∧
      s.host = .command 0x04 :: [] ∧ s'.host = .command 0x04 :: [] ∧ SameJobInput s s') ∧
    (waiting [.command 0x05]).host = .command 0x05 :: [] :=
  ⟨⟨inv_waiting _, inv_idle (by decide) (by decide) (by decide) ⟨rfl, rfl, rfl⟩, rfl, rfl, rfl, rfl, rfl, rfl,
    rfl, rfl, rfl, rfl, rfl, rfl, rfl, rfl⟩, rfl⟩

theorem witness_DecodeJobsLeaveTheRestAlone :
    (vspJob.resetIn = false ∧ vspJob.ctx ≠ .host ∧ ∃ t, step vspJob = .next t) ∧
    (∃ t, exec .vspDecode State.reset = .next t) ∧ ∃ t, exec .sgdDecode State.reset = .next t :=
  ⟨⟨rfl, by decide, _, rfl⟩, ⟨_, rfl⟩, _, rfl⟩

theorem witness_ReservedFaultCodesAreNeverRaised :
    ∃ t, step { State.reset with status := .fault, faultCode := 0x03 } = .next t ∧ t.faultCode = 0x03 := ⟨_, rfl, rfl⟩

theorem witness_CorruptDataHasTwoCauses :
    (colorJob.resetIn = false ∧ colorJob.ctx = .sgdC ∧ colorJob.ip < colorJob.lim ∧
      (Memory.read colorJob.inMem colorJob.ip).toNat = 0xC0) ∧
    (let s := { waiting [.command 0x05] with csize := 11, innerLen := 8 };
      s.resetIn = false ∧ s.ctx = .host ∧ s.host = .command 0x05 :: [] ∧ s.csize.toNat ≠ s.innerLen.toNat + 4) ∧
    ∃ t, step colorJob = .next t ∧ t.faultCode = 0x02 ∧ colorJob.faultCode ≠ 0x02 :=
  ⟨by decide, by decide, _, rfl, by decide, by decide⟩

theorem witness_BadWidthFailsBeforeAnyFetch :
    let s := { waiting [.command 0x04] with width := 9 };
    s.resetIn = false ∧ s.ctx = .host ∧ s.host = .command 0x04 :: [] ∧ s.width.toNat % 8 ≠ 0 := by decide

theorem witness_BadCommandChangesOnlyTheStatus :
    (waiting [.command 0x06]).resetIn = false ∧ (waiting [.command 0x06]).ctx = .host ∧
    (waiting [.command 0x06]).host = .command 0x06 :: [] ∧ (0x00 : Byte).toNat = 0 ∧ 6 ≤ (0x06 : Byte).toNat := by decide

theorem witness_CopyRepeatsThePreviousStrip : State.reset.MemOk := memOk_reset

theorem witness_FillRepeatsItsLiteral : State.reset.MemOk := memOk_reset

theorem witness_Fill2AlternatesFromItsFirstLiteral : State.reset.MemOk := memOk_reset

theorem witness_XorCopiesTheReferencePlaneAndClearsMask :
    State.reset.MemOk ∧ (2, Instr.xor2 0x00) ∈ [(0, Instr.xor0 0x00), (1, Instr.xor1 0x00), (2, Instr.xor2 0x00)] :=
  ⟨memOk_reset, by decide⟩

/-- The last row and the row behind it; the literal there and missing. -/
theorem witness_LitWritesOneRow :
    ((strip 0 3 4 [] []).MemOk ∧ (strip 0 3 4 [] []).y < (strip 0 3 4 [] []).height.toNat) ∧
    (let s := { strip 0 0 4 [] [] with inMem := [(0, 0x07)], lim := 2 };
      s.resetIn = false ∧ s.ctx = .vsp ∧ Memory.read s.inMem s.ip = 0x07 ∧ s.ip < s.lim ∧ s.ip + 2 = s.lim) ∧
    (let s := { strip 0 0 4 [] [] with inMem := [(0, 0x07)], lim := 1 };
      s.ip < s.lim ∧ s.lim < s.ip + 2) ∧
    (strip 0 4 4 [] []).height.toNat ≤ (strip 0 4 4 [] []).y :=
  ⟨⟨⟨by decide, by decide, by decide, by decide, by decide⟩, by decide⟩, by decide, by decide, by decide⟩

theorem witness_RawWritesItselfAsOneRow :
    ((strip 0 3 4 [] []).MemOk ∧ (strip 0 3 4 [] []).y < (strip 0 3 4 [] []).height.toNat) ∧
    (let s := { strip 0 0 4 [] [] with inMem := [(0, 0x08)], lim := 1 };
      s.resetIn = false ∧ s.ctx = .vsp ∧ 0x08 ≤ (Memory.read s.inMem s.ip).toNat ∧ s.ip < s.lim) ∧
    (let s := { strip 0 0 4 [] [] with inMem := [(0, 0x08)], lim := 0 };
      s.lim ≤ s.ip) ∧
    (strip 0 4 4 [] []).height.toNat ≤ (strip 0 4 4 [] []).y :=
  ⟨⟨⟨by decide, by decide, by decide, by decide, by decide⟩, by decide⟩, by decide, by decide, by decide⟩

theorem witness_MaskChangesOnlyByInvAndXor :
    (∃ t, exec .inv State.reset = .next t) ∧ (∃ t, exec (.xor0 0) State.reset = .next t) ∧
    (Instr.fill 0 0 ≠ .inv ∧ (∀ cnt, Instr.fill 0 0 ≠ .xor0 cnt ∧ Instr.fill 0 0 ≠ .xor1 cnt ∧ Instr.fill 0 0 ≠ .xor2 cnt) ∧
      Instr.fill 0 0 ≠ .vspDecode ∧ ∃ t, exec (.fill 0 0) State.reset = .next t) ∧
    ∃ t, exec .vspDecode State.reset = .next t ∧ t.status ≠ .fault :=
  ⟨⟨_, rfl⟩, ⟨_, rfl⟩, ⟨by decide, fun _ => ⟨nofun, nofun, nofun⟩, by decide, _, rfl⟩, _, rfl, by decide⟩

theorem witness_RotateMovesBitsWithinTheByte : 0 ≤ 3 ∧ 3 ≤ 3 ∧ 0 < 8 ∧ 7 < 8 := by decide

/-- The last strip of two, its last row and column, and an address of the other strip. -/
theorem witness_PackTransposesPlanesToPixels :
    let s := { strip 0 0 2 [] [] with width := 16, x := 1 };
    s.MemOk ∧ s.x < strips s ∧ 1 < s.height.toNat ∧ 7 < 8 ∧
    ∀ y j, y < s.height.toNat → j < 8 → 7 ≠ y * s.width.toNat + 8 * s.x + j :=
  ⟨⟨by decide, by decide, by decide, by decide, by decide⟩, by decide, by decide, by decide, fun y j _ _ => by
    show 7 ≠ y * 16 + 8 * 1 + j
    omega⟩

theorem witness_SwapRelabelsTheBuffers : vspJob.plane = 3 := rfl

theorem witness_PlanesAndStripsFollowInOrder :
    (let s := strip 0 0 1 [] [];
      s.ctx = .vsp ∧ s.x < strips s ∧ 0 < s.height.toNat ∧ s.y < s.height.toNat) ∧
    (let s := strip 2 1 1 [] [];
      s.height.toNat ≤ s.y ∧ s.plane ≠ 3) ∧
    (let s := { strip 3 1 1 [] [] with width := 16 };
      s.height.toNat ≤ s.y ∧ s.plane = 3 ∧ s.x + 1 < strips s) ∧
    (let s := strip 3 1 1 [] [];
      s.height.toNat ≤ s.y ∧ s.plane = 3 ∧ s.x + 1 = strips s) := by decide

theorem witness_FinishedVspJobGivesNibbles :
    vspJob.Inv ∧ vspJob.OutOk ∧ vspJob.resetIn = false ∧ vspJob.ctx = .vsp ∧
    ∃ t, step vspJob = .next t ∧ t.status = .done :=
  ⟨inv_vspJob, outOk_vspJob, rfl, rfl, _, rfl, by decide⟩

theorem witness_SectionMustEndInsideTheStream :
    (let s := { stream .hdr .alpha 4 0 [] with ip := 4, inLen := 6 };
      s.inLen < s.ip + (3 : Word).toNat ∧ s.ip + (2 : Word).toNat ≤ s.inLen ∧ s.phase = .alpha) ∧
    (let s := { stream .hdr .color 4 0 [] with ip := 4, inLen := 6 };
      s.ip + (2 : Word).toNat ≤ s.inLen ∧ s.phase = .color) := by decide

/-- A run that fits exactly, and one that is a slot too long. -/
theorem witness_ARleWritesComplementedRun :
    State.reset.MemOk ∧
    (2 : BitVec 15).toNat + 1 = alphaFit (stream .sgdA .alpha 12 3 []) ∧
    alphaFit (stream .sgdA .alpha 11 3 []) < (2 : BitVec 15).toNat + 1 := ⟨memOk_reset, by decide, by decide⟩

/-- All literals there with a place; one missing; one without a place. -/
theorem witness_ALitWritesComplementedLiterals :
    (let s := stream .sgdA .alpha 8 3 [1, 2];
      min (2 : BitVec 15).toNat (min (bytesLeft s) (alphaFit s)) = (2 : BitVec 15).toNat) ∧
    (let s := stream .sgdA .alpha 8 3 [1];
      min (2 : BitVec 15).toNat (min (bytesLeft s) (alphaFit s)) < (2 : BitVec 15).toNat ∧ bytesLeft s ≤ alphaFit s) ∧
    (let s := stream .sgdA .alpha 7 3 [1, 2];
      s.MemOk ∧ min (2 : BitVec 15).toNat (min (bytesLeft s) (alphaFit s)) < (2 : BitVec 15).toNat ∧
      alphaFit s < bytesLeft s) :=
  ⟨by decide, by decide, ⟨by decide, by decide, by decide, by decide, by decide⟩, by decide, by decide⟩

theorem witness_CLitCopiesTriples :
    (let s := stream .sgdC .color 7 0 [1, 2, 3, 4, 5, 6];
      min (2 : BitVec 6).toNat (min (bytesLeft s / 3) (colorFit s)) = (2 : BitVec 6).toNat) ∧
    (let s := stream .sgdC .color 7 0 [1, 2, 3, 4, 5];
      min (2 : BitVec 6).toNat (min (bytesLeft s / 3) (colorFit s)) < (2 : BitVec 6).toNat ∧
      bytesLeft s / 3 ≤ colorFit s) ∧
    (let s := stream .sgdC .color 6 0 [1, 2, 3, 4, 5, 6];
      s.MemOk ∧ min (2 : BitVec 6).toNat (min (bytesLeft s / 3) (colorFit s)) < (2 : BitVec 6).toNat ∧
      colorFit s < bytesLeft s / 3) :=
  ⟨by decide, by decide, ⟨by decide, by decide, by decide, by decide, by decide⟩, by decide, by decide⟩

theorem witness_CRepRepeatsItsTriple :
    State.reset.MemOk ∧
    (1 : BitVec 6).toNat + 1 = colorFit (stream .sgdC .color 7 0 []) ∧
    colorFit (stream .sgdC .color 6 0 []) < (1 : BitVec 6).toNat + 1 := ⟨memOk_reset, by decide, by decide⟩

theorem witness_CDeltaStartsFromThePreviousSlot :
    (stream .sgdC .color 3 3 []).op < 4 ∧
    (4 ≤ (stream .sgdC .color 3 4 []).op ∧ (stream .sgdC .color 3 4 []).op - 2 < (stream .sgdC .color 3 4 []).outSize.toNat) ∧
    (4 ≤ (stream .sgdC .color 2 4 []).op ∧
      (stream .sgdC .color 2 4 []).outSize.toNat ≤ (stream .sgdC .color 2 4 []).op - 2) := by decide

theorem witness_DAddAddsModulo256 :
    State.reset.MemOk ∧
    (stream .sgdD .color 7 4 []).op + 2 < (stream .sgdD .color 7 4 []).outSize.toNat ∧
    (stream .sgdD .color 6 4 []).outSize.toNat ≤ (stream .sgdD .color 6 4 []).op + 2 :=
  ⟨memOk_reset, by decide, by decide⟩

theorem witness_DSmMovesBySignAndMagnitude :
    State.reset.MemOk ∧
    (stream .sgdD .color 7 4 []).op + 2 < (stream .sgdD .color 7 4 []).outSize.toNat ∧
    (stream .sgdD .color 6 4 []).outSize.toNat ≤ (stream .sgdD .color 6 4 []).op + 2 :=
  ⟨memOk_reset, by decide, by decide⟩

theorem witness_IllegalFlagAbortsWithNothingWritten :
    colorJob.resetIn = false ∧ colorJob.ctx = .sgdC ∧ colorJob.ip < colorJob.lim ∧
    0xC0 ≤ (Memory.read colorJob.inMem colorJob.ip).toNat := by decide

theorem witness_SubDecodersWriteDisjointLanes :
    (alphaJob.Inv ∧ alphaJob.resetIn = false ∧ alphaJob.ctx = .sgdA ∧ ∃ t, step alphaJob = .next t) ∧
    (colorJob.Inv ∧ colorJob.ctx = .sgdC ∧ ∃ t, step colorJob = .next t) ∧
    (deltaJob.Inv ∧ deltaJob.ctx = .sgdD ∧ ∃ t, step deltaJob = .next t) ∧ 0 % 4 ≠ 3 ∧ 3 % 4 = 3 :=
  ⟨⟨inv_alphaJob, rfl, rfl, _, rfl⟩, ⟨inv_colorJob, rfl, _, rfl⟩, ⟨inv_deltaJob, rfl, _, rfl⟩, by decide, by decide⟩

theorem witness_SectionsFollowInOrder :
    (alphaJob.ctx = .sgdA ∧ alphaJob.ip < alphaJob.lim) ∧
    (let s := { alphaJob with ip := 3 };
      s.ctx = .sgdA ∧ s.phase = .alpha ∧ s.lim ≤ s.ip) ∧
    (let s := { colorJob with ip := 1 };
      s.ctx = .sgdC ∧ s.phase = .color ∧ s.lim ≤ s.ip) ∧
    (deltaJob.ctx = .sgdD ∧ 0 < deltaJob.nSgd) ∧ { deltaJob with nSgd := 0 }.nSgd = 0 := by decide

theorem witness_NextTempersTheWordAtTheCursor :
    { State.reset with mti := 63 }.mti < 64 ∧ { State.reset with mti := 64 }.mti = 64 ∧ State.reset.mti = 65 := by decide

theorem witness_TwistFollowsItsRecurrence : 0 < 64 ∧ 24 < 64 ∧ 25 < 64 ∧ 62 < 64 ∧ 63 < 64 := by decide

theorem witness_SeedFollowsItsRecurrence : (1 ≤ 1 ∧ 1 < 64) ∧ 1 ≤ 63 ∧ 63 < 64 := by decide

theorem witness_TemperAppliesFourLines : ∃ y y1 y2 y3 : Word,
    y1 = y ^^^ (y >>> 11) ∧ y2 = y1 ^^^ ((y1 <<< 7) &&& 0x9C4F88E3) ∧ y3 = y2 ^^^ ((y2 <<< 15) &&& 0xE7F70000) :=
  ⟨0x85C0AC99, _, _, _, rfl, rfl, rfl⟩

/-- A whole word, the word behind the last whole one, and the last word of a full mix. -/
theorem witness_MixXorsWholeWords : 0 < min (7 / 4) 64 ∧ ¬1 < min (7 / 4) 64 ∧ 63 < min (300 / 4) 64 := by decide

theorem witness_MixingTwiceRestores : ∃ t, exec .prngMix State.reset = .next t := ⟨_, rfl⟩

theorem witness_UnseededWordsAreInvisible :
    State.reset.mti = 65 ∧ { State.reset with mt := mtPut State.reset.mt 0 1 }.mti = 65 ∧
    ∃ v, exec .prngSeed { State.reset with seed := 5489 } = .next v := ⟨rfl, rfl, _, rfl⟩

theorem witness_CursorTransitionsAreComplete :
    (∃ t, exec .prngSeed State.reset = .next t) ∧ (∃ t, exec .prngNext State.reset = .next t) ∧
    { State.reset with mti := 63 }.mti ≤ 65 ∧
    Instr.prngMix ≠ .prngSeed ∧ Instr.prngMix ≠ .prngNext ∧ ∃ t, exec .prngMix State.reset = .next t :=
  ⟨⟨_, rfl⟩, ⟨_, rfl⟩, by decide, by decide, by decide, _, rfl⟩

/-- Each bound passed by one and met exactly; an image without pixels. -/
theorem witness_VspDecodeStartsAFreshJob :
    (let s := { State.reset with width := 8, height := 2, cap := { Capacity.unbounded with maxRows := some 1 } };
      s.width.toNat % 8 = 0 ∧ ∃ m, s.cap.maxRows = some m ∧ m < s.height.toNat) ∧
    (let s := { State.reset with width := 8, height := 2, cap := { Capacity.unbounded with maxOutBytes := some 15 } };
      ∃ m, s.cap.maxOutBytes = some m ∧ m < s.width.toNat * s.height.toNat) ∧
    (let s := { State.reset with width := 8, height := 2, inLen := 5, cap := { Capacity.unbounded with maxInBytes := some 4 } };
      ∃ m, s.cap.maxInBytes = some m ∧ m < s.inLen) ∧
    (let s := { State.reset with
        width := 8, height := 2, inLen := 4, cap := { maxRows := some 2, maxOutBytes := some 16, maxInBytes := some 4 } };
      (∀ m, s.cap.maxRows = some m → s.height.toNat ≤ m) ∧
      (∀ m, s.cap.maxOutBytes = some m → s.width.toNat * s.height.toNat ≤ m) ∧
      ∀ m, s.cap.maxInBytes = some m → s.inLen ≤ m) ∧
    (∀ m, State.reset.cap.maxRows = some m → State.reset.height.toNat ≤ m) ∧ State.reset.width = 0 :=
  ⟨⟨rfl, 1, rfl, by decide⟩, ⟨15, rfl, by decide⟩, ⟨4, rfl, by decide⟩,
    ⟨fun m h => by cases h; decide, fun m h => by cases h; decide, fun m h => by cases h; decide⟩, nofun, rfl⟩

theorem witness_SgdDecodeChecksItsFrame :
    (let s := { State.reset with csize := 11, innerLen := 8 };
      s.csize.toNat ≠ s.innerLen.toNat + 4) ∧
    (let s := { State.reset with
        csize := 12, innerLen := 8, outSize := 5, cap := { Capacity.unbounded with maxOutBytes := some 4 } };
      s.csize.toNat = s.innerLen.toNat + 4 ∧ ∃ m, s.cap.maxOutBytes = some m ∧ m < s.outSize.toNat) ∧
    (let s := { State.reset with
        csize := 12, innerLen := 8, outSize := 4, cap := { Capacity.unbounded with maxOutBytes := some 4 } };
      s.csize.toNat = s.innerLen.toNat + 4 ∧ (∀ m, s.cap.maxOutBytes = some m → s.outSize.toNat ≤ m) ∧
      ∀ m, s.cap.maxInBytes = some m → s.inLen ≤ m) :=
  ⟨by decide, ⟨rfl, 4, rfl, by decide⟩, rfl, fun m h => by cases h; decide, nofun⟩

theorem witness_OutIsHiddenUntilDone :
    (State.reset.status ≠ .done ∧ State.reset.status ≠ .fault) ∧
    (let s := { State.reset with status := .done, outValid := true };
      s.status = .done ∧ s.outValid = true) ∧
    (vspJob.Inv ∧ vspJob.ctx ≠ .host) ∧ ∃ t, step colorJob = .next t ∧ t.status = .fault :=
  ⟨by decide, ⟨rfl, rfl⟩, ⟨inv_vspJob, by decide⟩, _, rfl, by decide⟩

theorem witness_HostWritesOneRegister :
    (State.reset.resetIn = false ∧ State.reset.ctx = .host ∧ State.reset.host = []) ∧
    (waiting [.setWidth 8]).host = .setWidth 8 :: [] ∧ (waiting [.setMixLen 4]).host = .setMixLen 4 :: [] ∧
    (waiting [.setInLen 5]).host = .setInLen 5 :: [] ∧
    ((waiting [.loadIn 3 [1, 2]]).host = .loadIn 3 [1, 2] :: [] ∧ (waiting [.loadIn 3 [1, 2]]).MemOk) ∧
    (3 ≤ 3 ∧ 3 < 3 + [1, 2].length ∧ ∀ m, some 4 = some m → 3 < m) ∧ (∃ m, some 4 = some m ∧ m ≤ 4) ∧
    (waiting [.loadMix 2 [1, 2]]).host = .loadMix 2 [1, 2] :: [] ∧ (waiting [.loadMix 2 [1, 2]]).MemOk :=
  ⟨by decide, rfl, rfl, rfl, ⟨rfl, by decide, by decide, by decide, by decide, by decide⟩,
    ⟨by decide, by decide, fun m h => by cases h; decide⟩, ⟨4, rfl, by decide⟩, rfl,
    ⟨by decide, by decide, by decide, by decide, by decide⟩⟩

end Sys2Proof.Tests
end

section
/-! SUPPORT. `rotl8` (00_scope.md R10) is the library's rotation of a byte: where each bit of it comes from. -/

namespace Sys2Proof.Machine

theorem rotl8_eq_rotateLeft (v : Byte) {i : Nat} (hi : i < 8) : rotl8 v i = v.rotateLeft i :=
  (BitVec.rotateLeft_eq_rotateLeftAux_of_lt hi).symm

/-- The second half of the rotation, `v >> 8`, is 0. -/
@[simp] theorem rotl8_zero (v : Byte) : rotl8 v 0 = v := by
  have high : v >>> (8 - 0) = 0#8 := BitVec.ushiftRight_eq_zero (Nat.le_refl 8)
  rw [rotl8, high, BitVec.shiftLeft_zero, BitVec.or_zero]

/-- The low `i` bits come round from the top of the byte, the others move up by `i`. -/
theorem getLsbD_rotl8 (v : Byte) {i k : Nat} (hi : i < 8) (hk : k < 8) :
    (rotl8 v i).getLsbD k = v.getLsbD ((k + 8 - i) % 8) := by
  rw [rotl8_eq_rotateLeft v hi, BitVec.getLsbD_rotateLeft_of_le hi]
  by_cases hki : k < i
  · have source : (k + 8 - i) % 8 = 8 - i + k := by omega
    simp [hki, source]
  · have source : (k + 8 - i) % 8 = k - i := by omega
    simp [hki, hk, source]

/-- Settles O29, from the source of each bit of a rotation by less than eight. -/
theorem rotateMovesBitsWithinTheByte : Obligations.RotateMovesBitsWithinTheByte :=
  fun v _ _ hi hk => ⟨rotl8_zero v, getLsbD_rotl8 v (Nat.lt_of_le_of_lt hi (by decide)) hk⟩

end Sys2Proof.Machine
end

section
/-! SUPPORT. The fields of the 16-bit units as numbers, and what the decoder answers to the bytes of a 16-bit unit: the top
bit of the second byte selects the instruction (30_encoding.md R96, R99). -/

namespace Sys2Proof

/-! ### The values of units -/

/-- The high part stands above the `m` bits of the low part. -/
theorem toNat_append_eq_add {n m : Nat} (x : BitVec n) (y : BitVec m) :
    (x ++ y).toNat = x.toNat * 2 ^ m + y.toNat := by
  rw [BitVec.toNat_append, ← Nat.shiftLeft_add_eq_or_of_lt y.isLt, Nat.shiftLeft_eq]

theorem alphaFlag_toNat (f : Half) : f.toNat = (f.getLsbD 15).toNat * 32768 + (f.extractLsb' 0 15).toNat := by
  have value := congrArg BitVec.toNat (alphaFlag_fields f)
  simp only [toNat_append_eq_add, BitVec.toNat_ofBool] at value
  omega

theorem addWord_toNat (d : Half) :
    d.toNat = (d.getLsbD 15).toNat * 32768 + (d.extractLsb' 10 5).toNat * 1024 + (d.extractLsb' 5 5).toNat * 32 +
      (d.extractLsb' 0 5).toNat := by
  have value := congrArg BitVec.toNat (addWord_fields d)
  simp only [toNat_append_eq_add, BitVec.toNat_ofBool] at value
  omega

theorem smWord_toNat (d : Half) :
    d.toNat = (d.getLsbD 15).toNat * 32768 + (d.getLsbD 14).toNat * 16384 + (d.extractLsb' 10 4).toNat * 1024 +
      (d.getLsbD 9).toNat * 512 + (d.extractLsb' 5 4).toNat * 32 + (d.getLsbD 4).toNat * 16 +
      (d.extractLsb' 0 4).toNat := by
  have value := congrArg BitVec.toNat (smWord_fields d)
  simp only [toNat_append_eq_add, BitVec.toNat_ofBool] at value
  omega

/-- Bit 15 of a 16-bit unit is the top bit of the byte at the higher offset. -/
theorem le16_getLsbD_top (v0 v1 : Byte) : (le16 v0 v1).getLsbD 15 = decide (128 ≤ v1.toNat) := by
  rw [getLsbD_le16]
  exact (BitVec.msb_eq_getLsbD_last v1).symm.trans (BitVec.msb_eq_decide v1)

theorem le16_top_set {v0 v1 : Byte} (h : 128 ≤ v1.toNat) : (le16 v0 v1).getLsbD 15 = true := by
  rw [le16_getLsbD_top, decide_eq_true h]

theorem le16_top_clear {v0 v1 : Byte} (h : v1.toNat < 128) : (le16 v0 v1).getLsbD 15 = false := by
  rw [le16_getLsbD_top, decide_eq_false (Nat.not_le.2 h)]

/-! ### The decoder on 16-bit units -/

theorem decode_aRle (v0 : Byte) {v1 : Byte} (a : Byte) (rest : List Byte) (h : 128 ≤ v1.toNat) :
    decode .sgdA (v0 :: v1 :: a :: rest) = .ok (.aRle ((le16 v0 v1).extractLsb' 0 15) a, rest) :=
  if_pos (le16_top_set h)

theorem decode_aLit (v0 : Byte) {v1 : Byte} (rest : List Byte) (h : v1.toNat < 128) :
    decode .sgdA (v0 :: v1 :: rest) = .ok (.aLit ((le16 v0 v1).extractLsb' 0 15), rest) :=
  if_neg (ne_true_of_eq_false (le16_top_clear h))

theorem decode_dAdd (v0 : Byte) {v1 : Byte} (rest : List Byte) (h : 128 ≤ v1.toNat) :
    decode .sgdD (v0 :: v1 :: rest) = .ok (.dAdd ((le16 v0 v1).extractLsb' 10 5) ((le16 v0 v1).extractLsb' 5 5)
      ((le16 v0 v1).extractLsb' 0 5), rest) :=
  if_pos (le16_top_set h)

theorem decode_dSm (v0 : Byte) {v1 : Byte} (rest : List Byte) (h : v1.toNat < 128) :
    decode .sgdD (v0 :: v1 :: rest) = .ok (.dSm ((le16 v0 v1).getLsbD 14) ((le16 v0 v1).extractLsb' 10 4)
      ((le16 v0 v1).getLsbD 9) ((le16 v0 v1).extractLsb' 5 4) ((le16 v0 v1).getLsbD 4)
      ((le16 v0 v1).extractLsb' 0 4), rest) :=
  if_neg (ne_true_of_eq_false (le16_top_clear h))

end Sys2Proof
end

section
/-! SUPPORT. Byte order (20_memory.md R64). -/

namespace Sys2Proof.Machine

theorem readWord_toNat (m : Memory) (a : Nat) :
    (Memory.readWord m a).toNat = (Memory.read m a).toNat + 256 * (Memory.read m (a + 1)).toNat +
      65536 * (Memory.read m (a + 2)).toNat + 16777216 * (Memory.read m (a + 3)).toNat :=
  le32_toNat ..

/-- Settles O5: each decoded field is a field of the little-endian unit, whose value is the sum of its fields at their
places and the sum of its bytes at theirs. -/
theorem multiByteQuantitiesAreLittleEndian : Obligations.MultiByteQuantitiesAreLittleEndian := by
  refine ⟨fun v0 v1 v2 v3 _ => ⟨le32 v0 v1 v2 v3, rfl, le32_toNat v0 v1 v2 v3⟩,
    fun v0 v1 a rest top => ⟨_, decode_aRle v0 a rest top, ?_⟩, fun v0 v1 rest top => ⟨_, decode_aLit v0 rest top, ?_⟩,
    fun v0 v1 rest top => ⟨_, _, _, decode_dAdd v0 rest top, ?_⟩,
    fun v0 v1 rest top => ⟨_, _, _, _, _, _, decode_dSm v0 rest top, ?_⟩, readWord_toNat⟩
  · have fields := alphaFlag_toNat (le16 v0 v1)
    rw [le16_top_set top, le16_toNat, Bool.toNat_true] at fields
    omega
  · have fields := alphaFlag_toNat (le16 v0 v1)
    rw [le16_top_clear top, le16_toNat, Bool.toNat_false] at fields
    omega
  · have fields := addWord_toNat (le16 v0 v1)
    rw [le16_top_set top, le16_toNat, Bool.toNat_true] at fields
    omega
  · have fields := smWord_toNat (le16 v0 v1)
    rw [le16_top_clear top, le16_toNat, Bool.toNat_false] at fields
    omega

end Sys2Proof.Machine
end

section
/-! SUPPORT. What the decoder answers to a colour flag (30_encoding.md R97, R98), to four bytes of any stream context and
to a `CMD` value. -/

namespace Sys2Proof

/-! ### Colour flags -/

theorem colorFlag_toNat (f : Byte) : f.toNat = (f.extractLsb' 6 2).toNat * 64 + (f.extractLsb' 0 6).toNat := by
  have value := congrArg BitVec.toNat (colorFlag_fields f)
  rw [toNat_append_eq_add] at value
  exact value.symm

theorem colorFlag_top_eq_three_iff (f : Byte) : f.extractLsb' 6 2 = 3#2 ↔ 0xC0 ≤ f.toNat := by
  have value := colorFlag_toNat f
  have lowBound := (f.extractLsb' 0 6).isLt
  have topBound := (f.extractLsb' 6 2).isLt
  rw [← BitVec.toNat_inj, show (3#2).toNat = 3 from rfl]
  omega

theorem decode_cLit {f : Byte} (rest : List Byte) (top : f.extractLsb' 6 2 = 0#2) :
    decode .sgdC (f :: rest) = .ok (.cLit (f.extractLsb' 0 6), rest) :=
  if_pos top

theorem decode_cRep {f : Byte} (b g r : Byte) (rest : List Byte) (top : f.extractLsb' 6 2 = 1#2) :
    decode .sgdC (f :: b :: g :: r :: rest) = .ok (.cRep (f.extractLsb' 0 6) b g r, rest) := by
  simp [decode, decodeSgdC, nextByte, top]

theorem decode_cDelta {f : Byte} (rest : List Byte) (top : f.extractLsb' 6 2 = 2#2) :
    decode .sgdC (f :: rest) = .ok (.cDelta (f.extractLsb' 0 6), rest) := by
  simp [decode, decodeSgdC, nextByte, top]

theorem decode_cIllegal {f : Byte} (rest : List Byte) (h : 0xC0 ≤ f.toNat) :
    decode .sgdC (f :: rest) = .ok (.cIllegal (f.extractLsb' 0 6), rest) := by
  simp [decode, decodeSgdC, nextByte, (colorFlag_top_eq_three_iff f).2 h]

/-! ### Four bytes are enough -/

theorem decode_sgdC_full (f b g r : Byte) (rest : List Byte) :
    ∃ i bs, decode .sgdC (f :: b :: g :: r :: rest) = .ok (i, bs) ∧ ((∃ low, i = .cIllegal low) ↔ 0xC0 ≤ f.toNat) := by
  rw [← colorFlag_top_eq_three_iff]
  rcases colorFlag_top f with top | top | top | top
  · exact ⟨_, _, decode_cLit _ top, by simp [top]⟩
  · exact ⟨_, _, decode_cRep b g r rest top, by simp [top]⟩
  · exact ⟨_, _, decode_cDelta _ top, by simp [top]⟩
  · exact ⟨_, _, decode_cIllegal _ ((colorFlag_top_eq_three_iff f).1 top), by simp [top]⟩

/-- No stream instruction has more than four fixed bytes, and every first byte of a stream is one of an instruction. -/
theorem decode_full {ctx : Context} (v0 v1 v2 v3 : Byte) (rest : List Byte) (hc : ctx ≠ .host) :
    ∃ i bs, decode ctx (v0 :: v1 :: v2 :: v3 :: rest) = .ok (i, bs) := by
  cases ctx with
  | host => exact absurd rfl hc
  | vsp =>
    have ⟨positive, bound⟩ := Machine.vspLength_le v0
    have operands : ([v1, v2, v3].take (Machine.vspLength v0 - 1)).length + 1 = Machine.vspLength v0 := by
      rw [List.length_take, show [v1, v2, v3].length = 3 from rfl]
      unfold maxSize at bound
      omega
    obtain ⟨i, decoded⟩ := Machine.decodeVsp_full v0 _ operands ([v1, v2, v3].drop (Machine.vspLength v0 - 1) ++ rest)
    rw [List.cons_append, ← List.append_assoc, List.take_append_drop] at decoded
    exact ⟨i, _, decoded⟩
  | hdr => exact ⟨_, _, rfl⟩
  | sgdA =>
    rcases Nat.lt_or_ge v1.toNat 128 with top | top
    · exact ⟨_, _, decode_aLit v0 _ top⟩
    · exact ⟨_, _, decode_aRle v0 v2 _ top⟩
  | sgdC =>
    obtain ⟨i, bs, decoded, _⟩ := decode_sgdC_full v0 v1 v2 v3 rest
    exact ⟨i, bs, decoded⟩
  | sgdD =>
    rcases Nat.lt_or_ge v1.toNat 128 with top | top
    · exact ⟨_, _, decode_dSm v0 _ top⟩
    · exact ⟨_, _, decode_dAdd v0 _ top⟩

theorem decode_full_cIllegal_iff {ctx : Context} (v0 v1 v2 v3 : Byte) (rest : List Byte) (hc : ctx ≠ .host) :
    ∃ i bs, decode ctx (v0 :: v1 :: v2 :: v3 :: rest) = .ok (i, bs) ∧
      ((∃ low, i = .cIllegal low) ↔ ctx = .sgdC ∧ 0xC0 ≤ v0.toNat) := by
  by_cases color : ctx = .sgdC
  · subst color
    simpa using decode_sgdC_full v0 v1 v2 v3 rest
  · obtain ⟨i, bs, decoded⟩ := decode_full v0 v1 v2 v3 rest hc
    refine ⟨i, bs, decoded, ?_, fun illegal => absurd illegal.1 color⟩
    rintro ⟨low, rfl⟩
    exact absurd (decode_size decoded).1.symm color

/-! ### `CMD` values -/

theorem decode_command {c : Byte} (h : 1 ≤ c.toNat ∧ c.toNat ≤ 5) : ∃ i, decode .host [c] = .ok (i, []) := by
  rcases Machine.decodeHost_cases c with
    ⟨_, decoded⟩ | ⟨_, decoded⟩ | ⟨_, decoded⟩ | ⟨_, decoded⟩ | ⟨_, decoded⟩ | ⟨outside, _⟩
  iterate 5 exact ⟨_, decoded⟩
  omega

theorem decode_badCommand {c : Byte} (h : ¬(1 ≤ c.toNat ∧ c.toNat ≤ 5)) :
    decode .host [c] = .error (.badCommand c) := by
  rcases Machine.decodeHost_cases c with ⟨rfl, _⟩ | ⟨rfl, _⟩ | ⟨rfl, _⟩ | ⟨rfl, _⟩ | ⟨rfl, _⟩ | ⟨_, rejected⟩
  iterate 5 exact absurd (by decide) h
  exact rejected

end Sys2Proof
end

section
/-! SUPPORT. The two aborts of 30_encoding.md R98: the illegal colour flag and the `CMD` value without a command. -/

namespace Sys2Proof.Machine

theorem exec_cIllegal (low : BitVec 6) (s : State) : exec (.cIllegal low) s = .next (raise .corruptData (s.ip - 1) s) :=
  rfl

/-- The host's write of `CMD` while no job runs is the dispatch of its value (44_host_commands.md R207). -/
theorem step_command {s : State} {c : Byte} {q : List HostAction} (hr : s.resetIn = false) (hc : s.ctx = .host)
    (hq : s.host = .command c :: q) : step s = dispatchCommand c { s with host := q } := by
  rw [step_host hr hc, hostStep, hq]

theorem dispatchCommand_badCommand {c : Byte} (s : State) (h : ¬(1 ≤ c.toNat ∧ c.toNat ≤ 5)) :
    dispatchCommand c s = .next (raise .badCommand 0 (beginCommand c s)) := by
  rw [dispatchCommand, decode_badCommand h]

/-- Settles O3: the four top patterns of a colour flag are all legal but `11`, the other stream contexts decode whatever their
bytes are, and the dispatch finds a command for 1 to 5 only. -/
theorem illegalEncodingsAreExactlyThese : Obligations.IllegalEncodingsAreExactlyThese := by
  refine ⟨fun f rest illegal => ⟨_, decode_cIllegal rest illegal, fun s => ⟨_, exec_cIllegal _ s, rfl, rfl⟩⟩,
    fun ctx v0 v1 v2 v3 rest hc => decode_full_cIllegal_iff v0 v1 v2 v3 rest hc, fun c hc => decode_command hc,
    fun c s q bad hr hc hq => ⟨raise .badCommand 0 (beginCommand c { s with host := q }), ?_, rfl, rfl, rfl⟩⟩
  rw [step_command hr hc hq, dispatchCommand_badCommand _ bad]

end Sys2Proof.Machine
end

section
/-! SUPPORT. The tempering and the mix of `U-MT` (40_prng.md R125, R126). -/

namespace Sys2Proof.Machine

theorem temper_eq_of_lines {y y1 y2 y3 : Word} (line1 : y1 = y ^^^ (y >>> 11))
    (line2 : y2 = y1 ^^^ ((y1 <<< 7) &&& 0x9C4F88E3)) (line3 : y3 = y2 ^^^ ((y2 <<< 15) &&& 0xE7F70000)) :
    temper y = y3 ^^^ (y3 >>> 18) := by
  subst line1 line2 line3
  rfl

/-- Settles O48: the four lines are the definition's own, and the five examples are closed evaluations. -/
theorem temperAppliesFourLines : Obligations.TemperAppliesFourLines := by
  refine ⟨fun _ _ _ _ => temper_eq_of_lines, ?_, ?_, ?_, ?_, ?_⟩ <;> decide

theorem exec_prngMix (s : State) :
    exec .prngMix s = .next { s with mt := mixWords s.mixMem (mixCount s) s.mt, status := .done, ctx := .host } := rfl

theorem mixCount_eq (s : State) : mixCount s = min (s.mixLen / 4) 64 := rfl

/-- A word of a memory is its four bytes, the one at the highest address on top (20_memory.md R64). -/
theorem readWord_eq_append (m : Memory) (a : Nat) : Memory.readWord m a =
    Memory.read m (a + 3) ++ Memory.read m (a + 2) ++ Memory.read m (a + 1) ++ Memory.read m a := rfl

/-- Settles O49: the mix changes each of its first `mixCount` words once, by the word of `MIX` at four times its index. -/
theorem mixXorsWholeWords : Obligations.MixXorsWholeWords := by
  intro s
  refine ⟨_, exec_prngMix s, rfl, fun i hi => ?_⟩
  rw [mixWords_spec s.mixMem s.mt (mixCount s) (Nat.min_le_right _ _) i hi, mixCount_eq, readWord_eq_append]

end Sys2Proof.Machine
end

section
/-! SUPPORT. The bytes of a VSP instruction (41_vsp.md R141): what the decoder reads in the VSP context is the encoding
of its answer, and a window that ends inside the instruction is truncated at its end. -/

namespace Sys2Proof.Machine

/-- An instruction read in the VSP context is well formed, and the bytes read are its encoding: a raw byte is itself, and
each of the eight opcodes takes its operands in the order in which they are encoded. -/
theorem encode_of_decode_vsp {bs : List Byte} {i : Instr} {rest : List Byte} (h : decode .vsp bs = .ok (i, rest)) :
    i.wellFormed = true ∧ bs = encode i ++ rest := by
  cases bs with
  | nil => cases h
  | cons c t =>
    rcases vspOpcode_cases c with raw | rfl | rfl | rfl | rfl | rfl | rfl | rfl | rfl
    · rw [show decode .vsp (c :: t) = .ok (.raw c, t) from if_pos raw] at h
      cases h
      exact ⟨decide_eq_true raw, rfl⟩
    all_goals
      rcases t with _ | ⟨v0, _ | ⟨v1, _ | ⟨v2, t⟩⟩⟩ <;> cases h <;> exact ⟨rfl, rfl⟩

/-! ### The window -/

/-- The bytes that the first byte asks for are there: the window starts with a well-formed instruction made of them. -/
theorem decode_fetchWindow_vsp_full {s : State} (h : s.ip + vspLength (Memory.read s.inMem s.ip) ≤ s.lim) :
    ∃ i rest, decode .vsp (fetchWindow s) = .ok (i, rest) ∧ i.wellFormed = true ∧
      encode i = Memory.slice s.inMem s.ip (vspLength (Memory.read s.inMem s.ip)) := by
  have ⟨positive, bound⟩ := vspLength_le (Memory.read s.inMem s.ip)
  obtain ⟨rest, window⟩ := fetchWindow_full bound h
  obtain ⟨k, length⟩ := Nat.exists_eq_add_of_le' positive
  obtain ⟨i, decoded⟩ :=
    decodeVsp_full (Memory.read s.inMem s.ip) (Memory.slice s.inMem (s.ip + 1) k) (by simp [length]) rest
  rw [← slice_succ, ← length] at decoded
  obtain ⟨wellFormed, bytes⟩ := encode_of_decode_vsp decoded
  exact ⟨i, rest, window ▸ decoded, wellFormed, (List.append_cancel_right bytes).symm⟩

/-- They are not all there: the window ends at `lim`, inside the instruction. -/
theorem decode_fetchWindow_vsp_short {s : State} (h : s.lim < s.ip + vspLength (Memory.read s.inMem s.ip)) :
    decode .vsp (fetchWindow s) = .error (.truncated (s.lim - s.ip)) := by
  have ⟨_, bound⟩ := vspLength_le (Memory.read s.inMem s.ip)
  rw [fetchWindow_short (by omega) rfl]
  cases there : s.lim - s.ip with
  | zero => rfl
  | succ k =>
    rw [slice_succ, decodeVsp_short _ _ (by rw [Memory.length_slice]; omega), Memory.length_slice]

/-! ### The step -/

theorem step_vsp_full {s : State} (hr : s.resetIn = false) (hc : s.ctx = .vsp)
    (h : s.ip + vspLength (Memory.read s.inMem s.ip) ≤ s.lim) :
    ∃ i : Instr, i.wellFormed = true ∧ i.context = .vsp ∧
      encode i = Memory.slice s.inMem s.ip (vspLength (Memory.read s.inMem s.ip)) ∧
      step s = settleAnswer (exec i (advance (vspLength (Memory.read s.inMem s.ip)) s)) := by
  obtain ⟨i, rest, decoded, wellFormed, bytes⟩ := decode_fetchWindow_vsp_full h
  have size : i.size = vspLength (Memory.read s.inMem s.ip) := by rw [Instr.size, bytes, Memory.length_slice]
  refine ⟨i, wellFormed, (decode_size decoded).1, bytes, ?_⟩
  rw [step_stream hr (by simp [hc]), streamStep, hc, decoded, ← size]

/-- A short VSP instruction raises `StreamUnderrun` at the first missing byte, and at most the operand registers of the
bytes that were there have changed. -/
theorem step_vsp_short {s : State} (hr : s.resetIn = false) (hc : s.ctx = .vsp)
    (h : s.lim < s.ip + vspLength (Memory.read s.inMem s.ip)) :
    step s = .next (underrunAt (max s.ip s.lim) (latchOperands .vsp (fetchWindow s) s)) := by
  have place : s.ip + (s.lim - s.ip) = max s.ip s.lim := by omega
  have window : (fetchWindow s).length ≤ s.lim - s.ip := by
    rw [fetchWindow, Memory.length_slice]
    exact Nat.min_le_right ..
  rw [step_underrun hr (by simp [hc]) (hc ▸ decode_fetchWindow_vsp_short h), place, List.take_of_length_le window, hc]

/-- Settles O7: when the bytes are there, what the decoder reads from the window is the instruction they encode; when
they are not, the window is cut at `lim`, and an underrun only latches operand registers. -/
theorem vspInstructionsFetchBeforeTheyWrite : Obligations.VspInstructionsFetchBeforeTheyWrite := by
  refine fun s hr hc => ⟨step_vsp_full hr hc, fun short => ?_⟩
  have underrun := step_vsp_short hr hc short
  rw [latchOperands_frame] at underrun
  exact ⟨_, underrun, rfl, rfl, rfl, rfl, rfl, rfl, rfl, rfl, rfl⟩

end Sys2Proof.Machine
end

section
/-! SUPPORT. The width check of `VSP_DECODE` (41_vsp.md R162), the first thing the command does. -/

namespace Sys2Proof.Machine

theorem execVspDecode_badWidth {s : State} (h : s.width.toNat % 8 ≠ 0) :
    execVspDecode s = .next (raise .invalidDimensions 0 (openJob s)) :=
  if_pos h

theorem dispatchCommand_vspDecode (s : State) :
    dispatchCommand 0x04 s = settleAnswer (execVspDecode (beginCommand 0x04 s)) := rfl

theorem dispatchCommand_vspDecode_badWidth {s : State} (h : s.width.toNat % 8 ≠ 0) :
    dispatchCommand 0x04 s = .next (raise .invalidDimensions 0 (openJob (beginCommand 0x04 s))) := by
  have width : (beginCommand 0x04 s).width.toNat % 8 ≠ 0 := h
  rw [dispatchCommand_vspDecode, execVspDecode_badWidth width, settleAnswer, settle_raise]

/-- Settles O19: the width check comes before the job-start state, the one part of the command that clears `OUT` and the
history buffers; `ip` is 0 because the command has opened a job. -/
theorem badWidthFailsBeforeAnyFetch : Obligations.BadWidthFailsBeforeAnyFetch := by
  intro s q hr hc hq badWidth
  have failed := step_command hr hc hq
  rw [dispatchCommand_vspDecode_badWidth (s := { s with host := q }) badWidth] at failed
  exact ⟨_, failed, rfl, rfl, rfl, rfl, rfl, rfl, rfl⟩

end Sys2Proof.Machine
end

section
/-! SUPPORT. The step at an illegal colour flag (43_sgd_color.md R192): the flag is fetched whole, and its meaning is a raise
behind which nothing is left to sequence. -/

namespace Sys2Proof.Machine

/-- Below `lim` the decoder sees at least the byte at `ip`. -/
theorem fetchWindow_eq_cons {s : State} (h : s.ip < s.lim) :
    ∃ rest, fetchWindow s = Memory.read s.inMem s.ip :: rest :=
  fetchWindow_full (k := 1) (by decide) h

theorem step_of_decode {s : State} {i : Instr} {rest : List Byte} (hr : s.resetIn = false) (hc : s.ctx ≠ .host)
    (decoded : decode s.ctx (fetchWindow s) = .ok (i, rest)) : step s = settleAnswer (exec i (advance i.size s)) := by
  rw [step_stream hr hc, streamStep, decoded]

/-- The flag is behind `ip` when the fault is raised, and `FAULT_IP` is where it stood. -/
theorem step_illegalFlag {s : State} (hr : s.resetIn = false) (hc : s.ctx = .sgdC) (hl : s.ip < s.lim)
    (illegal : 0xC0 ≤ (Memory.read s.inMem s.ip).toNat) :
    step s = .next (raise .corruptData s.ip (advance 1 s)) := by
  obtain ⟨rest, window⟩ := fetchWindow_eq_cons hl
  have decoded := decode_cIllegal rest illegal
  rw [← window, ← hc] at decoded
  rw [step_of_decode hr (by simp [hc]) decoded, exec_cIllegal, settleAnswer, settle_raise]
  rfl

/-- Settles O42: the step at the flag and the meaning behind it are the same raise, at the flag's offset. -/
theorem illegalFlagAbortsWithNothingWritten : Obligations.IllegalFlagAbortsWithNothingWritten :=
  ⟨fun _ => step_illegalFlag, exec_cIllegal⟩

end Sys2Proof.Machine
end

section
/-! SUPPORT. What a step can leave in `FAULT_CODE` (60_exceptions.md R226 to R229), said once: the code it found, 0, or
the code of a fault that the block raises; `CorruptData` only with one of its two causes. -/

namespace Sys2Proof.Machine

/-! ### The codes -/

theorem FaultName.code_injective : Function.Injective FaultName.code := by
  intro f g same
  cases f <;> cases g <;> simp_all [FaultName.code]

theorem FaultName.code_ne_zero (f : FaultName) : f.code ≠ 0x00 := by
  cases f <;> decide

/-- The faults the block raises: all but the two reserved ones (R229), and `CorruptData` for a cause (R228). -/
def FaultName.Raisable (corrupt : Prop) : FaultName → Prop
  | .corruptData => corrupt
  | .unsupportedConfiguration => False
  | .unsupportedBitDepth => False
  | .invalidDimensions => True
  | .streamUnderrun => True
  | .outputOverrun => True
  | .deltaNoBase => True
  | .badCommand => True

theorem FaultName.Raisable.mono {corrupt corrupt' : Prop} (imp : corrupt → corrupt') {f : FaultName}
    (h : f.Raisable corrupt) : f.Raisable corrupt' := by
  cases f with
  | corruptData => exact imp h
  | _ => exact h

/-- What `FAULT_CODE` can hold after a part of a step that found `old` in it. -/
inductive CodeAfter (corrupt : Prop) (old : Byte) : Byte → Prop where
  | kept : CodeAfter corrupt old old
  | cleared : CodeAfter corrupt old 0x00
  | raised (f : FaultName) : f.Raisable corrupt → CodeAfter corrupt old f.code

theorem CodeAfter.mono {corrupt corrupt' : Prop} {old new : Byte} (imp : corrupt → corrupt')
    (h : CodeAfter corrupt old new) : CodeAfter corrupt' old new := by
  cases h with
  | kept => exact .kept
  | cleared => exact .cleared
  | raised f hf => exact .raised f (hf.mono imp)

/-- What was found does not matter behind the start of a command, which clears the register (R239). -/
theorem CodeAfter.of_cleared {corrupt : Prop} {new : Byte} (h : CodeAfter corrupt 0x00 new) (old : Byte) :
    CodeAfter corrupt old new := by
  cases h with
  | kept => exact .cleared
  | cleared => exact .cleared
  | raised f hf => exact .raised f hf

theorem CodeAfter.of_eq {corrupt : Prop} {old new : Byte} (h : new = old) : CodeAfter corrupt old new :=
  h ▸ .kept

/-- A fault's code was there before, or its fault was raised. -/
theorem CodeAfter.found_or_raisable {corrupt : Prop} {old new : Byte} (h : CodeAfter corrupt old new) {f : FaultName}
    (code : new = f.code) : old = new ∨ f.Raisable corrupt := by
  cases h with
  | kept => exact .inl rfl
  | cleared => exact absurd code.symm f.code_ne_zero
  | raised g hg => exact .inr (FaultName.code_injective code ▸ hg)

/-! ### The meanings -/

/-- The frame check of `SGD_DECODE` fails (44_host_commands.md R211). -/
def BadFrame (s : State) : Prop := s.csize.toNat ≠ s.innerLen.toNat + 4

theorem frameOk_eq_false_iff (s : State) : frameOk s = false ↔ BadFrame s :=
  beq_eq_false_iff_ne

theorem SlotsMoved.faultCode {lanes : Nat} {s u : State} (h : SlotsMoved lanes s u) : u.faultCode = s.faultCode := by
  rw [h.frame]

/-- A run of slots keeps the code or raises one of its two faults. -/
theorem codeAfter_of_slots {corrupt : Prop} {lanes : Nat} {s u : State}
    (h : SlotsMoved lanes s u ∨ SlotsRaised lanes s u) : CodeAfter corrupt s.faultCode u.faultCode := by
  rcases h with moved | ⟨v, f, _, rfl, rfl | rfl⟩
  · exact .of_eq moved.faultCode
  · exact .raised .streamUnderrun trivial
  · exact .raised .outputOverrun trivial

theorem execVspDecode_codeAfter {corrupt : Prop} {s u : State} (h : execVspDecode s = .next u) :
    CodeAfter corrupt s.faultCode u.faultCode := by
  unfold execVspDecode at h
  split_ifs at h <;> cases h
  · exact .raised .invalidDimensions trivial
  · exact .raised .invalidDimensions trivial
  · exact .kept

theorem execSgdDecode_badFrame {s : State} (h : BadFrame s) :
    execSgdDecode s = .next (raise .corruptData 0 (openJob s)) :=
  if_pos ((frameOk_eq_false_iff s).2 h)

theorem execSgdDecode_codeAfter {s u : State} (h : execSgdDecode s = .next u) :
    CodeAfter (BadFrame s) s.faultCode u.faultCode := by
  unfold execSgdDecode at h
  split_ifs at h with frame big <;> cases h
  · exact .raised .corruptData ((frameOk_eq_false_iff s).1 frame)
  · exact .raised .invalidDimensions trivial
  · exact .kept

/-- A command's meaning, behind the write of `CMD`. -/
theorem exec_host_codeAfter {i : Instr} (hi : i.context = .host) {s u : State} (h : exec i s = .next u) :
    CodeAfter (i = .sgdDecode ∧ BadFrame s) s.faultCode u.faultCode := by
  have prng (hp : i = .prngSeed ∨ i = .prngMix ∨ i = .prngNext) :
      CodeAfter (i = .sgdDecode ∧ BadFrame s) s.faultCode u.faultCode := by
    obtain ⟨mt, mti, result, next⟩ := execPrng_next hp s
    rw [next] at h
    cases h
    exact .kept
  cases i with
  | prngSeed => exact prng (.inl rfl)
  | prngMix => exact prng (.inr (.inl rfl))
  | prngNext => exact prng (.inr (.inr rfl))
  | vspDecode => exact execVspDecode_codeAfter h
  | sgdDecode => exact (execSgdDecode_codeAfter h).mono fun bad => ⟨rfl, bad⟩
  | _ => cases hi

/-- A stream instruction's meaning: of all of them only the illegal flag raises `CorruptData`. -/
theorem exec_stream_codeAfter {i : Instr} (hi : i.context ≠ .host) {s u : State} (h : exec i s = .next u) :
    CodeAfter (∃ low, i = .cIllegal low) s.faultCode u.faultCode := by
  cases ctx : i.context with
  | host => exact absurd ctx hi
  | vsp =>
    refine .of_eq ?_
    rw [(exec_vsp_next ctx h).frame]
  | hdr =>
    rcases exec_hdr ctx s with next | ⟨lim, _, _, ⟨_, next⟩ | ⟨_, next⟩⟩ <;> rw [next] at h <;> cases h
    · exact .raised .streamUnderrun trivial
    · exact .kept
    · exact .kept
  | sgdA =>
    obtain ⟨w, next, moved⟩ := exec_sgdA ctx s
    rw [next] at h
    cases h
    exact codeAfter_of_slots moved
  | sgdC =>
    rcases exec_sgdC ctx s with
      ⟨w, next, moved⟩ | ⟨len, _, ⟨_, next⟩ | ⟨_, _, next⟩ | ⟨_, _, next⟩⟩ | ⟨low, illegal, next⟩ <;>
      rw [next] at h <;> cases h
    · exact codeAfter_of_slots moved
    · exact .raised .deltaNoBase trivial
    · exact .kept
    · exact .raised .corruptData ⟨low, illegal⟩
  | sgdD =>
    obtain ⟨vb, vg, vr, next⟩ := exec_sgdD ctx s
    rw [next] at h
    split_ifs at h <;> cases h
    · exact .raised .outputOverrun trivial
    · exact .kept

/-! ### The step -/

@[simp] theorem settle_faultCode (s : State) : (settle s).faultCode = s.faultCode := by rw [settle_frame]

theorem colorFlag_of_decode_cIllegal {f : Byte} {t rest : List Byte} {low : BitVec 6}
    (h : decode .sgdC (f :: t) = .ok (.cIllegal low, rest)) : 0xC0 ≤ f.toNat := by
  rcases colorFlag_top f with top | top | top | top
  · rw [decode_cLit t top] at h
    cases h
  · rcases t with _ | ⟨b, _ | ⟨g, _ | ⟨r, t⟩⟩⟩ <;> simp [decode, decodeSgdC, nextByte, top] at h
  · rw [decode_cDelta t top] at h
    cases h
  · exact (colorFlag_top_eq_three_iff f).1 top

/-- The next unit of the stream is a colour flag with top bits `11b` (43_sgd_color.md R192). -/
def AtIllegalFlag (s : State) : Prop :=
  s.ctx = .sgdC ∧ s.ip < s.lim ∧ 0xC0 ≤ (Memory.read s.inMem s.ip).toNat

theorem atIllegalFlag_of_decode {s : State} {low : BitVec 6} {rest : List Byte}
    (h : decode s.ctx (fetchWindow s) = .ok (.cIllegal low, rest)) (hl : s.ip < s.lim) : AtIllegalFlag s := by
  have ctx : s.ctx = .sgdC := (decode_size h).1.symm
  obtain ⟨t, window⟩ := fetchWindow_eq_cons hl
  rw [ctx, window] at h
  exact ⟨ctx, hl, colorFlag_of_decode_cIllegal h⟩

theorem streamStep_codeAfter {s t : State} (hc : s.ctx ≠ .host) (h : streamStep s = .next t) :
    CodeAfter (AtIllegalFlag s) s.faultCode t.faultCode := by
  rcases streamStep_cases hc with ⟨i, rest, decoded, context, size, inside, next⟩ | ⟨n, _, _, _, next⟩
  · rw [next] at h
    obtain ⟨u, meaning, rfl⟩ := settleAnswer_next h
    rw [settle_faultCode]
    refine (exec_stream_codeAfter (context ▸ hc) meaning).mono ?_
    rintro ⟨low, rfl⟩
    exact atIllegalFlag_of_decode decoded (by omega)
  · rw [next] at h
    cases h
    exact .raised .streamUnderrun trivial

theorem command_of_decode_sgdDecode {c : Byte} {rest : List Byte}
    (h : decode .host [c] = .ok (.sgdDecode, rest)) : c = 0x05 := by
  rcases decodeHost_cases c with ⟨_, other⟩ | ⟨_, other⟩ | ⟨_, other⟩ | ⟨_, other⟩ | ⟨five, _⟩ | ⟨_, other⟩
  case inr.inr.inr.inr.inl => exact five
  all_goals
    rw [other] at h
    cases h

/-- A command starts from a cleared code. -/
theorem dispatchCommand_codeAfter {c : Byte} {s t : State} (h : dispatchCommand c s = .next t) :
    CodeAfter (c = 0x05 ∧ BadFrame s) 0x00 t.faultCode := by
  by_cases known : 1 ≤ c.toNat ∧ c.toNat ≤ 5
  · obtain ⟨i, decoded⟩ := decode_command known
    rw [dispatchCommand, decoded] at h
    obtain ⟨u, meaning, rfl⟩ := settleAnswer_next h
    rw [settle_faultCode]
    refine (exec_host_codeAfter (decode_size decoded).1 meaning).mono ?_
    rintro ⟨rfl, bad⟩
    exact ⟨command_of_decode_sgdDecode decoded, bad⟩
  · rw [dispatchCommand_badCommand s known] at h
    cases h
    exact .raised .badCommand trivial

theorem hostWrite_faultCode {act : HostAction} {s t : State} (h : hostWrite act s = .next t) :
    t.faultCode = s.faultCode := by
  cases act <;> cases h <;> rfl

/-- At `CMD` the block has nothing to do, dispatches a command, or takes another host action. -/
theorem hostStep_cases (s : State) :
    (s.host = [] ∧ hostStep s = .next s) ∨
    (∃ c q, s.host = .command c :: q ∧ hostStep s = dispatchCommand c { s with host := q }) ∨
    ∃ act q, s.host = act :: q ∧ (∀ c, act ≠ .command c) ∧ hostStep s = hostWrite act { s with host := q } := by
  cases hq : s.host with
  | nil => exact .inl ⟨rfl, by rw [hostStep, hq]⟩
  | cons act q =>
    cases act with
    | command c => exact .inr (.inl ⟨c, q, rfl, by rw [hostStep, hq]⟩)
    | _ => exact .inr (.inr ⟨_, q, rfl, nofun, by rw [hostStep, hq]⟩)

/-- The host has written `SGD_DECODE`, and its frame check fails. -/
def AtBadFrame (s : State) : Prop :=
  s.ctx = .host ∧ (∃ q, s.host = .command 0x05 :: q) ∧ BadFrame s

theorem hostStep_codeAfter {s t : State} (hc : s.ctx = .host) (h : hostStep s = .next t) :
    CodeAfter (AtBadFrame s) s.faultCode t.faultCode := by
  rcases hostStep_cases s with ⟨_, next⟩ | ⟨c, q, hq, next⟩ | ⟨act, q, _, _, next⟩ <;> rw [next] at h
  · cases h
    exact .kept
  · refine ((dispatchCommand_codeAfter h).mono ?_).of_cleared _
    rintro ⟨rfl, bad⟩
    exact ⟨hc, ⟨q, hq⟩, bad⟩
  · exact .of_eq (hostWrite_faultCode (s := { s with host := q }) h)

/-- Whatever the state: a step raises no reserved fault, and `CorruptData` for one of two causes only. -/
theorem step_codeAfter {s t : State} (h : step s = .next t) :
    CodeAfter (s.resetIn = false ∧ (AtIllegalFlag s ∨ AtBadFrame s)) s.faultCode t.faultCode := by
  cases hr : s.resetIn with
  | true =>
    rw [step_reset hr] at h
    cases h
    exact .cleared
  | false =>
    by_cases hc : s.ctx = .host
    · rw [step_host hr hc] at h
      exact (hostStep_codeAfter hc h).mono fun cause => ⟨rfl, .inr cause⟩
    · rw [step_stream hr hc] at h
      exact (streamStep_codeAfter hc h).mono fun cause => ⟨rfl, .inl cause⟩

/-- Settles O17: the two reserved faults are not among those a step can raise. -/
theorem reservedFaultCodesAreNeverRaised : Obligations.ReservedFaultCodesAreNeverRaised := by
  refine ⟨rfl, rfl, fun s t next reserved => ?_⟩
  rcases reserved with code | code
  · exact ((step_codeAfter next).found_or_raisable (f := .unsupportedConfiguration) code).resolve_right id
  · exact ((step_codeAfter next).found_or_raisable (f := .unsupportedBitDepth) code).resolve_right id

end Sys2Proof.Machine
end

section
/-! SUPPORT. `CorruptData` at the frame check of `SGD_DECODE` (44_host_commands.md R211), and its two causes
(60_exceptions.md R228). -/

namespace Sys2Proof.Machine

theorem dispatchCommand_sgdDecode (s : State) :
    dispatchCommand 0x05 s = settleAnswer (execSgdDecode (beginCommand 0x05 s)) := rfl

theorem dispatchCommand_sgdDecode_badFrame {s : State} (h : BadFrame s) :
    dispatchCommand 0x05 s = .next (raise .corruptData 0 (openJob (beginCommand 0x05 s))) := by
  have bad : BadFrame (beginCommand 0x05 s) := h
  rw [dispatchCommand_sgdDecode, execSgdDecode_badFrame bad, settleAnswer, settle_raise]

/-- Settles O18: the illegal flag and the failed frame check each raise the fault, and they are the only causes a step
has for its code. -/
theorem corruptDataHasTwoCauses : Obligations.CorruptDataHasTwoCauses := by
  refine ⟨fun s hr hc hl illegal => ⟨_, step_illegalFlag hr hc hl illegal, rfl, rfl, rfl⟩,
    fun s q hr hc hq bad => ?_, fun s t next code fresh => ?_⟩
  · have failed := step_command hr hc hq
    rw [dispatchCommand_sgdDecode_badFrame (s := { s with host := q }) bad] at failed
    exact ⟨_, failed, rfl, rfl, rfl⟩
  · exact ((step_codeAfter next).found_or_raisable (f := .corruptData) code).resolve_left fun found =>
      fresh (found.trans code)

end Sys2Proof.Machine
end

section
/-! SUPPORT. Decoding an encoding (30_encoding.md sections 2 to 7): the decoder puts a unit's bytes together again, and
each field it extracts is the one the encoder put there. -/

namespace Sys2Proof

/-! ### The decoder on the bytes of a unit -/

theorem decode_hdr_unit (len : Word) (rest : List Byte) :
    decode .hdr (bytes32 len ++ rest) = .ok (.sLen len, rest) := by
  conv_rhs => rw [← le32_byteAt len]
  rfl

theorem decode_sgdA_unit (f : Half) (rest : List Byte) : decode .sgdA (bytes16 f ++ rest) =
    if f.getLsbD 15 then nextByte 2 rest fun a t => .ok (.aRle (f.extractLsb' 0 15) a, t)
    else .ok (.aLit (f.extractLsb' 0 15), rest) := by
  conv_rhs => rw [← le16_byteAt f]
  rfl

theorem decode_sgdD_unit (d : Half) (rest : List Byte) : decode .sgdD (bytes16 d ++ rest) =
    if d.getLsbD 15 then .ok (.dAdd (d.extractLsb' 10 5) (d.extractLsb' 5 5) (d.extractLsb' 0 5), rest)
    else .ok (.dSm (d.getLsbD 14) (d.extractLsb' 10 4) (d.getLsbD 9) (d.extractLsb' 5 4) (d.getLsbD 4)
      (d.extractLsb' 0 4), rest) := by
  conv_rhs => rw [← le16_byteAt d]
  rfl

/-! ### The alpha context -/

theorem alphaFlag_low_append (top : BitVec 1) (cnt : BitVec 15) : (top ++ cnt).extractLsb' 0 15 = cnt :=
  BitVec.extractLsb'_append_eq_right

theorem decode_aRle_unit (cnt : BitVec 15) (a : Byte) (rest : List Byte) :
    decode .sgdA (bytes16 (1#1 ++ cnt) ++ a :: rest) = .ok (.aRle cnt a, rest) := by
  have top : (1#1 ++ cnt).getLsbD 15 = true := BitVec.getLsbD_append
  rw [decode_sgdA_unit, if_pos top, alphaFlag_low_append, nextByte]

theorem decode_aLit_unit (cnt : BitVec 15) (rest : List Byte) :
    decode .sgdA (bytes16 (0#1 ++ cnt) ++ rest) = .ok (.aLit cnt, rest) := by
  have top : (0#1 ++ cnt).getLsbD 15 = false := BitVec.getLsbD_append
  rw [decode_sgdA_unit, if_neg (ne_true_of_eq_false top), alphaFlag_low_append]

/-! ### The colour context -/

theorem colorFlag_top_append (top : BitVec 2) (low : BitVec 6) : (top ++ low).extractLsb' 6 2 = top :=
  BitVec.extractLsb'_append_eq_left

theorem colorFlag_low_append (top : BitVec 2) (low : BitVec 6) : (top ++ low).extractLsb' 0 6 = low :=
  BitVec.extractLsb'_append_eq_right

/-! ### The delta words -/

theorem decode_dAdd_unit (dR dG dB : BitVec 5) (rest : List Byte) :
    decode .sgdD (bytes16 (1#1 ++ dR ++ dG ++ dB) ++ rest) = .ok (.dAdd dR dG dB, rest) := by
  have top : (1#1 ++ dR ++ dG ++ dB).getLsbD 15 = true := by
    repeat rw [BitVec.getLsbD_append]
    rfl
  have red : (1#1 ++ dR ++ dG ++ dB).extractLsb' 10 5 = dR := by
    rw [BitVec.extractLsb'_append_eq_of_le (by decide), BitVec.extractLsb'_append_eq_of_le (by decide)]
    exact BitVec.extractLsb'_append_eq_right
  have green : (1#1 ++ dR ++ dG ++ dB).extractLsb' 5 5 = dG := by
    rw [BitVec.extractLsb'_append_eq_of_le (by decide)]
    exact BitVec.extractLsb'_append_eq_right
  have blue : (1#1 ++ dR ++ dG ++ dB).extractLsb' 0 5 = dB := BitVec.extractLsb'_append_eq_right
  rw [decode_sgdD_unit, if_pos top, red, green, blue]

/-- The unit of `D_SM` (30_encoding.md R99). -/
def smWord (sR : Bool) (mR : BitVec 4) (sG : Bool) (mG : BitVec 4) (sB : Bool) (mB : BitVec 4) : Half :=
  0#1 ++ bit1 sR ++ mR ++ bit1 sG ++ mG ++ bit1 sB ++ mB

section
variable (sR : Bool) (mR : BitVec 4) (sG : Bool) (mG : BitVec 4) (sB : Bool) (mB : BitVec 4)

theorem smWord_bits : (smWord sR mR sG mG sB mB).getLsbD 15 = false ∧ (smWord sR mR sG mG sB mB).getLsbD 14 = sR ∧
    (smWord sR mR sG mG sB mB).getLsbD 9 = sG ∧ (smWord sR mR sG mG sB mB).getLsbD 4 = sB := by
  unfold smWord bit1
  repeat rw [BitVec.getLsbD_append]
  simp

theorem smWord_red : (smWord sR mR sG mG sB mB).extractLsb' 10 4 = mR := by
  unfold smWord
  iterate 4 rw [BitVec.extractLsb'_append_eq_of_le (by decide)]
  exact BitVec.extractLsb'_append_eq_right

theorem smWord_green : (smWord sR mR sG mG sB mB).extractLsb' 5 4 = mG := by
  unfold smWord
  iterate 2 rw [BitVec.extractLsb'_append_eq_of_le (by decide)]
  exact BitVec.extractLsb'_append_eq_right

theorem smWord_blue : (smWord sR mR sG mG sB mB).extractLsb' 0 4 = mB :=
  BitVec.extractLsb'_append_eq_right

theorem decode_dSm_unit (rest : List Byte) :
    decode .sgdD (bytes16 (smWord sR mR sG mG sB mB) ++ rest) = .ok (.dSm sR mR sG mG sB mB, rest) := by
  obtain ⟨top, signR, signG, signB⟩ := smWord_bits sR mR sG mG sB mB
  rw [decode_sgdD_unit, if_neg (ne_true_of_eq_false top), signR, signG, signB, smWord_red, smWord_green, smWord_blue]

end

/-- Settles O1: in the context of the instruction each branch of its decoder is taken by the bits its encoder has fixed,
and the operands are the bytes and fields that follow. -/
theorem decodeOfEncodeIsTheInstruction : Obligations.DecodeOfEncodeIsTheInstruction := by
  intro i rest wellFormed
  cases i with
  | raw c => exact if_pos (of_decide_eq_true wellFormed)
  | sLen len => exact decode_hdr_unit len rest
  | aRle cnt a => exact decode_aRle_unit cnt a rest
  | aLit cnt => exact decode_aLit_unit cnt rest
  | cLit len => exact (decode_cLit rest (colorFlag_top_append 0#2 len)).trans (by rw [colorFlag_low_append])
  | cRep len b g r =>
    exact (decode_cRep b g r rest (colorFlag_top_append 1#2 len)).trans (by rw [colorFlag_low_append])
  | cDelta len => exact (decode_cDelta rest (colorFlag_top_append 2#2 len)).trans (by rw [colorFlag_low_append])
  | cIllegal low =>
    have illegal := (colorFlag_top_eq_three_iff _).1 (colorFlag_top_append 3#2 low)
    exact (decode_cIllegal rest illegal).trans (by rw [colorFlag_low_append])
  | dAdd dR dG dB => exact decode_dAdd_unit dR dG dB rest
  | dSm sR mR sG mG sB mB => exact decode_dSm_unit sR mR sG mG sB mB rest
  | _ => rfl

end Sys2Proof
end

section
/-! SUPPORT. Encoding what was decoded (30_encoding.md sections 2 to 7): a unit is the concatenation of its fields, so
the bytes that a decoder took are the encoding of its answer. -/

namespace Sys2Proof

theorem bytes_of_decode_hdr {bs rest : List Byte} {i : Instr} (h : decode .hdr bs = .ok (i, rest)) :
    i.wellFormed = true ∧ bs = encode i ++ rest := by
  rcases bs with _ | ⟨v0, _ | ⟨v1, _ | ⟨v2, _ | ⟨v3, t⟩⟩⟩⟩ <;> cases h
  exact ⟨rfl, by rw [encode, bytes32_le32]; rfl⟩

theorem bytes_of_decode_sgdA {bs rest : List Byte} {i : Instr} (h : decode .sgdA bs = .ok (i, rest)) :
    i.wellFormed = true ∧ bs = encode i ++ rest := by
  rcases bs with _ | ⟨v0, _ | ⟨v1, t⟩⟩
  · cases h
  · cases h
  have fields := alphaFlag_fields (le16 v0 v1)
  rcases Nat.lt_or_ge v1.toNat 128 with top | top
  · rw [le16_top_clear top] at fields
    rw [decode_aLit v0 t top] at h
    cases h
    have bytes : encode (.aLit ((le16 v0 v1).extractLsb' 0 15)) = [v0, v1] :=
      (congrArg bytes16 fields).trans (bytes16_le16 v0 v1)
    exact ⟨rfl, by rw [bytes]; rfl⟩
  · rw [le16_top_set top] at fields
    cases t with
    | nil => rw [show decode .sgdA [v0, v1] = .error (.truncated 2) from if_pos (le16_top_set top)] at h; cases h
    | cons a t =>
      rw [decode_aRle v0 a t top] at h
      cases h
      have bytes : encode (.aRle ((le16 v0 v1).extractLsb' 0 15) a) = [v0, v1] ++ [a] :=
        congrArg (· ++ [a]) ((congrArg bytes16 fields).trans (bytes16_le16 v0 v1))
      exact ⟨rfl, by rw [bytes]; rfl⟩

theorem bytes_of_decode_sgdC {bs rest : List Byte} {i : Instr} (h : decode .sgdC bs = .ok (i, rest)) :
    i.wellFormed = true ∧ bs = encode i ++ rest := by
  rcases bs with _ | ⟨f, t⟩
  · cases h
  have fields := colorFlag_fields f
  rcases colorFlag_top f with top | top | top | top
  · rw [decode_cLit t top] at h
    cases h
    exact ⟨rfl, by rw [encode, ← top, fields]; rfl⟩
  · rcases t with _ | ⟨b, _ | ⟨g, _ | ⟨r, t⟩⟩⟩
    iterate 3 simp [decode, decodeSgdC, nextByte, top] at h
    rw [decode_cRep b g r t top] at h
    cases h
    exact ⟨rfl, by rw [encode, ← top, fields]; rfl⟩
  · rw [decode_cDelta t top] at h
    cases h
    exact ⟨rfl, by rw [encode, ← top, fields]; rfl⟩
  · rw [decode_cIllegal t ((colorFlag_top_eq_three_iff f).1 top)] at h
    cases h
    exact ⟨rfl, by rw [encode, ← top, fields]; rfl⟩

theorem bytes_of_decode_sgdD {bs rest : List Byte} {i : Instr} (h : decode .sgdD bs = .ok (i, rest)) :
    i.wellFormed = true ∧ bs = encode i ++ rest := by
  rcases bs with _ | ⟨v0, _ | ⟨v1, t⟩⟩
  · cases h
  · cases h
  rcases Nat.lt_or_ge v1.toNat 128 with top | top
  · have fields := smWord_fields (le16 v0 v1)
    rw [le16_top_clear top] at fields
    rw [decode_dSm v0 t top] at h
    cases h
    have bytes := (congrArg bytes16 fields).trans (bytes16_le16 v0 v1)
    exact ⟨rfl, (congrArg (· ++ rest) bytes).symm⟩
  · have fields := addWord_fields (le16 v0 v1)
    rw [le16_top_set top] at fields
    rw [decode_dAdd v0 t top] at h
    cases h
    have bytes := (congrArg bytes16 fields).trans (bytes16_le16 v0 v1)
    exact ⟨rfl, (congrArg (· ++ rest) bytes).symm⟩

theorem bytes_of_decode_host {bs rest : List Byte} {i : Instr} (h : decode .host bs = .ok (i, rest)) :
    i.wellFormed = true ∧ bs = encode i ++ rest := by
  rcases bs with _ | ⟨c, t⟩
  · cases h
  simp only [decode, decodeHost, nextByte] at h
  split_ifs at h with h1 h2 h3 h4 h5 <;> cases h
  · exact ⟨rfl, by rw [h1]; rfl⟩
  · exact ⟨rfl, by rw [h2]; rfl⟩
  · exact ⟨rfl, by rw [h3]; rfl⟩
  · exact ⟨rfl, by rw [h4]; rfl⟩
  · exact ⟨rfl, by rw [h5]; rfl⟩

/-- Settles O2, context by context. -/
theorem decodedBytesAreTheEncoding : Obligations.DecodedBytesAreTheEncoding := by
  intro ctx bs i rest decoded
  have bytes : i.wellFormed = true ∧ bs = encode i ++ rest := by
    cases ctx with
    | host => exact bytes_of_decode_host decoded
    | vsp => exact Machine.encode_of_decode_vsp decoded
    | hdr => exact bytes_of_decode_hdr decoded
    | sgdA => exact bytes_of_decode_sgdA decoded
    | sgdC => exact bytes_of_decode_sgdC decoded
    | sgdD => exact bytes_of_decode_sgdD decoded
  exact ⟨bytes.1, (decode_size decoded).1, bytes.2⟩

end Sys2Proof
end

section
/-! SUPPORT. What an instruction of a job can do, said once for every decoding context: it raises a fault of the block, or
it makes one of six moves. What a decode job leaves alone (10_state.md R44, 20_memory.md R76) follows for every move. -/

namespace Sys2Proof.Machine

/-! ### Raises -/

/-- A raise inside a job: of a fault the block has a cause for, from a state in which only the cursors, the operand
registers and `OUT` have changed. -/
def JobRaised (s u : State) : Prop :=
  ∃ v f n, u = raise f n v ∧ f.Raisable True ∧ (Memory.wf s.outMem → Memory.wf v.outMem) ∧ v = { s with
    ip := v.ip, outMem := v.outMem, op := v.op, b0 := v.b0, b := v.b, g := v.g, r := v.r, a := v.a, nSgd := v.nSgd }

theorem JobRaised.here (s : State) {f : FaultName} (hf : f.Raisable True) (n : Nat) : JobRaised s (raise f n s) :=
  ⟨s, f, n, rfl, hf, id, rfl⟩

theorem JobRaised.of_slots {lanes : Nat} {s u : State} (h : SlotsRaised lanes s u) : JobRaised s u := by
  obtain ⟨v, f, moved, rfl, cause⟩ := h
  refine ⟨v, f, v.ip, rfl, ?_, moved.mem, by rw [moved.frame]⟩
  rcases cause with rfl | rfl <;> trivial

theorem JobRaised.of_advance {k : Nat} {s u : State} (h : JobRaised (advance k s) u) : JobRaised s u := by
  obtain ⟨v, f, n, raised, hf, mem, frame⟩ := h
  exact ⟨v, f, n, raised, hf, mem, frame⟩

theorem JobRaised.of_latch (ctx : Context) (bs : List Byte) (k n : Nat) (s : State) :
    JobRaised s (raise .streamUnderrun n (latchOperands ctx bs (advance k s))) := by
  rw [latchOperands_frame]
  exact ⟨_, .streamUnderrun, n, rfl, trivial, id, rfl⟩

/-! ### Moves -/

/-- What an instruction that raises nothing does to the state in which its bytes have been fetched. -/
inductive JobMoved (s u : State) : Prop where
  | vsp (ctx : s.ctx = .vsp) (moved : VspMoved s u)
  | entersAlpha (ctx : s.ctx = .hdr) (phase : s.phase = .alpha) (lim : Nat) (low : s.ip ≤ lim) (high : lim ≤ s.inLen)
      (eq : u = { s with lim := lim, op := 3, ctx := .sgdA })
  | entersColor (ctx : s.ctx = .hdr) (phase : s.phase = .color) (lim : Nat) (low : s.ip ≤ lim) (high : lim ≤ s.inLen)
      (eq : u = { s with lim := lim, op := 0, ctx := .sgdC })
  | alpha (ctx : s.ctx = .sgdA) (moved : SlotsMoved 1 s u)
  | color (ctx : s.ctx = .sgdC ∨ s.ctx = .sgdD) (moved : SlotsMoved 3 s u)
  | delta (ctx : s.ctx = .sgdC) (len : BitVec 6) (base : 4 ≤ s.op) (inside : s.op - 2 < s.outSize.toNat)
      (eq : u = { loadBase { s with nSgd := len.toNat } with ctx := .sgdD })

/-- A delta word writes one colour slot. -/
theorem exec_sgdD_moved {i : Instr} (hi : i.context = .sgdD) (s : State) :
    ∃ u, exec i s = .next u ∧ (SlotsMoved 3 s u ∨ SlotsRaised 3 s u) := by
  cases i with
  | dAdd dR dG dB => exact ((colorSlot_moved _).from (SlotsMoved.registers 3 s _ _ _ s.a s.nSgd)).answer
  | dSm sR mR sG mG sB mB => exact ((colorSlot_moved _).from (SlotsMoved.registers 3 s _ _ _ s.a s.nSgd)).answer
  | _ => cases hi

theorem exec_job {i : Instr} {s u : State} (hi : i.context = s.ctx) (hc : s.ctx ≠ .host) (h : exec i s = .next u) :
    JobRaised s u ∨ JobMoved s u := by
  cases ctx : s.ctx with
  | host => exact absurd ctx hc
  | vsp => exact .inr (.vsp ctx (exec_vsp_next (hi.trans ctx) h))
  | hdr =>
    rcases exec_hdr (hi.trans ctx) s with next | ⟨lim, low, high, ⟨phase, next⟩ | ⟨phase, next⟩⟩ <;>
      rw [next] at h <;> cases h
    · exact .inl (.here s (f := .streamUnderrun) trivial s.ip)
    · exact .inr (.entersAlpha ctx phase lim low high rfl)
    · exact .inr (.entersColor ctx phase lim low high rfl)
  | sgdA =>
    obtain ⟨w, next, moved⟩ := exec_sgdA (hi.trans ctx) s
    rw [next] at h
    cases h
    exact moved.symm.imp .of_slots (.alpha ctx)
  | sgdC =>
    rcases exec_sgdC (hi.trans ctx) s with ⟨w, next, moved⟩ |
      ⟨len, -, ⟨-, next⟩ | ⟨-, -, next⟩ | ⟨base, inside, next⟩⟩ | ⟨low, -, next⟩ <;> rw [next] at h <;> cases h
    · exact moved.symm.imp .of_slots (.color (.inl ctx))
    · exact .inl ⟨{ s with nSgd := len.toNat }, .deltaNoBase, s.ip - 1, rfl, trivial, id, rfl⟩
    · exact .inr (.delta ctx len base inside rfl)
    · exact .inl (.here s (f := .corruptData) trivial _)
  | sgdD =>
    obtain ⟨w, next, moved⟩ := exec_sgdD_moved (hi.trans ctx) s
    rw [next] at h
    cases h
    exact moved.symm.imp .of_slots (.color (.inr ctx))

/-- The model's own two stops (log 11) are the only ones. -/
theorem exec_job_answers {i : Instr} {s : State} (hi : i.context = s.ctx) (hc : s.ctx ≠ .host)
    (row : s.ctx = .vsp → s.y < s.height.toNat) (base : s.ctx = .sgdC → 4 ≤ s.op → s.op - 2 < s.outSize.toNat) :
    ∃ u, exec i s = .next u := by
  cases ctx : s.ctx with
  | host => exact absurd ctx hc
  | vsp => exact (exec_vsp (hi.trans ctx) (row ctx)).imp fun _ h => h.1
  | hdr =>
    rcases exec_hdr (hi.trans ctx) s with next | ⟨_, _, _, ⟨_, next⟩ | ⟨_, next⟩⟩
    · exact ⟨_, next⟩
    · exact ⟨_, next⟩
    · exact ⟨_, next⟩
  | sgdA => exact (exec_sgdA (hi.trans ctx) s).imp fun _ h => h.1
  | sgdC =>
    rcases exec_sgdC (hi.trans ctx) s with
      ⟨u, next, _⟩ | ⟨_, _, ⟨_, next⟩ | ⟨op, outside, _⟩ | ⟨_, _, next⟩⟩ | ⟨_, _, next⟩
    · exact ⟨u, next⟩
    · exact ⟨_, next⟩
    · exact absurd (base ctx op) (by omega)
    · exact ⟨_, next⟩
    · exact ⟨_, next⟩
  | sgdD => exact (exec_sgdD_moved (hi.trans ctx) s).imp fun _ h => h.1

/-- A step of a job: an instruction has raised a fault or, its bytes fetched, made a move; the sequencing follows. -/
theorem streamStep_job {s t : State} (hc : s.ctx ≠ .host) (h : streamStep s = .next t) :
    ∃ u, t = settle u ∧ (JobRaised s u ∨ ∃ n, 1 ≤ n ∧ s.ip + n ≤ s.lim ∧ JobMoved (advance n s) u) := by
  rcases streamStep_cases hc with ⟨i, rest, decoded, context, size, inside, next⟩ | ⟨n, _, _, _, next⟩
  · rw [next] at h
    obtain ⟨u, meaning, rfl⟩ := settleAnswer_next h
    exact ⟨u, rfl, (exec_job (s := advance i.size s) context hc meaning).imp .of_advance
      fun moved => ⟨i.size, size, inside, moved⟩⟩
  · rw [next] at h
    cases h
    exact ⟨_, rfl, .inl (.of_latch ..)⟩

/-! ### What a job leaves alone -/

theorem SameOutsideJob.trans {s u t : State} (h : SameOutsideJob s u) (h' : SameOutsideJob u t) :
    SameOutsideJob s t := by
  constructor
  · exact h'.mt.trans h.mt
  · exact h'.mti.trans h.mti
  · exact h'.result.trans h.result
  · exact h'.width.trans h.width
  · exact h'.height.trans h.height
  · exact h'.outSize.trans h.outSize
  · exact h'.csize.trans h.csize
  · exact h'.innerLen.trans h.innerLen
  · exact h'.seed.trans h.seed
  · exact h'.inLen.trans h.inLen
  · exact h'.mixLen.trans h.mixLen
  · exact h'.inMem.trans h.inMem
  · exact h'.mixMem.trans h.mixMem
  · exact h'.cap.trans h.cap
  · exact h'.cmd.trans h.cmd
  · exact h'.host.trans h.host
  · exact h'.resetIn.trans h.resetIn

/-- The registers and buffers that a job may change. -/
theorem SameOutsideJob.of_frame {s u : State} (h : u = { s with
    status := u.status, faultCode := u.faultCode, faultIp := u.faultIp, outLen := u.outLen, outMem := u.outMem,
    hb0 := u.hb0, hb1 := u.hb1, ip := u.ip, lim := u.lim, x := u.x, plane := u.plane, y := u.y, mask := u.mask,
    sel := u.sel, nVsp := u.nVsp, b0 := u.b0, b1 := u.b1, op := u.op, phase := u.phase, b := u.b, g := u.g, r := u.r,
    a := u.a, nSgd := u.nSgd, ctx := u.ctx, outValid := u.outValid }) : SameOutsideJob s u := by
  constructor <;> rw [h]

theorem JobRaised.same {s u : State} (h : JobRaised s u) : SameOutsideJob s u := by
  obtain ⟨v, f, n, rfl, _, _, frame⟩ := h
  refine .of_frame ?_
  rw [frame]
  rfl

theorem JobMoved.same {s u : State} (h : JobMoved s u) : SameOutsideJob s u := by
  cases h with
  | vsp _ moved => exact .of_frame (by rw [moved.frame])
  | entersAlpha _ _ _ _ _ eq => exact .of_frame (by rw [eq])
  | entersColor _ _ _ _ _ eq => exact .of_frame (by rw [eq])
  | alpha _ moved => exact .of_frame (by rw [moved.frame])
  | color _ moved => exact .of_frame (by rw [moved.frame])
  | delta _ _ _ _ eq => exact .of_frame (by rw [eq]; rfl)

theorem SameOutsideJob.advance (n : Nat) (s : State) : SameOutsideJob s (advance n s) := .of_frame rfl

theorem SameOutsideJob.settle (s : State) : SameOutsideJob s (settle s) :=
  .of_frame (by rw [settle_frame])

theorem streamStep_same {s t : State} (hc : s.ctx ≠ .host) (h : streamStep s = .next t) : SameOutsideJob s t := by
  obtain ⟨u, rfl, raised | ⟨n, _, _, moved⟩⟩ := streamStep_job hc h
  · exact raised.same.trans (.settle u)
  · exact ((SameOutsideJob.advance n s).trans moved.same).trans (.settle u)

/-! ### The start of a job -/

/-- `VSP_DECODE` raises `InvalidDimensions`, or starts a job on whole strips. -/
theorem execVspDecode_cases (s : State) :
    execVspDecode s = .next (raise .invalidDimensions 0 (openJob s)) ∨
    s.width.toNat % 8 = 0 ∧ execVspDecode s = .next (vspStart (openJob s)) := by
  unfold execVspDecode
  split_ifs with width big
  · exact .inl rfl
  · exact .inl rfl
  · exact .inr ⟨Classical.not_not.1 width, rfl⟩

/-- `SGD_DECODE` raises one of two faults, or starts a job. -/
theorem execSgdDecode_cases (s : State) :
    (∃ f, (f = .corruptData ∨ f = .invalidDimensions) ∧ execSgdDecode s = .next (raise f 0 (openJob s))) ∨
    execSgdDecode s = .next (sgdStart (openJob s)) := by
  unfold execSgdDecode
  split_ifs with frame big
  · exact .inl ⟨_, .inl rfl, rfl⟩
  · exact .inl ⟨_, .inr rfl, rfl⟩
  · exact .inr rfl

theorem execVspDecode_same {s t : State} (h : execVspDecode s = .next t) : SameOutsideJob s t := by
  rcases execVspDecode_cases s with next | ⟨_, next⟩ <;> rw [next] at h <;> cases h
  · exact .of_frame rfl
  · exact .of_frame rfl

theorem execSgdDecode_same {s t : State} (h : execSgdDecode s = .next t) : SameOutsideJob s t := by
  rcases execSgdDecode_cases s with ⟨f, _, next⟩ | next <;> rw [next] at h <;> cases h
  · exact .of_frame rfl
  · exact .of_frame rfl

theorem step_same {s t : State} (hr : s.resetIn = false) (hc : s.ctx ≠ .host) (h : step s = .next t) :
    SameOutsideJob s t := by
  rw [step_stream hr hc] at h
  exact streamStep_same hc h

/-- Settles O16: no raise, no move, no sequencing and no job start touches what lies outside the job. -/
theorem decodeJobsLeaveTheRestAlone : Obligations.DecodeJobsLeaveTheRestAlone :=
  ⟨fun _ _ hr hc next => step_same hr hc next, fun _ _ next => execVspDecode_same next,
    fun _ _ next => execSgdDecode_same next⟩

end Sys2Proof.Machine
end

section
/-! SUPPORT. The invariant of the block (`State.Inv`): how a raise, the end of a job and each move of a job keep it. From
it every step answers a next state. -/

namespace Sys2Proof.Machine

/-! ### The parts of the invariant -/

theorem State.MemOk.of_eq {s u : State} (h : s.MemOk) (out : Memory.wf u.outMem)
    (inMem : u.inMem = s.inMem := by rfl) (mixMem : u.mixMem = s.mixMem := by rfl) (hb0 : u.hb0 = s.hb0 := by rfl)
    (hb1 : u.hb1 = s.hb1 := by rfl) : u.MemOk :=
  ⟨inMem ▸ h.inOk, mixMem ▸ h.mixOk, out, hb0 ▸ h.hb0Ok, hb1 ▸ h.hb1Ok⟩

/-- The part of the invariant that does not depend on the position. -/
structure State.CoreOk (s : State) : Prop where
  mem : s.MemOk
  cursor : s.CursorOk
  maskOk : s.MaskOk

/-- It speaks of the byte spaces, `mti` and `mask` only. -/
theorem State.CoreOk.of_eq {s u : State} (h : s.CoreOk) (out : Memory.wf u.outMem) (inMem : u.inMem = s.inMem := by rfl)
    (mixMem : u.mixMem = s.mixMem := by rfl) (hb0 : u.hb0 = s.hb0 := by rfl) (hb1 : u.hb1 = s.hb1 := by rfl)
    (mti : u.mti = s.mti := by rfl) (mask : u.mask = s.mask := by rfl) : u.CoreOk where
  mem := h.mem.of_eq out inMem mixMem hb0 hb1
  cursor := by
    unfold State.CursorOk
    rw [mti]
    exact h.cursor
  maskOk := by
    unfold State.MaskOk
    rw [mask]
    exact h.maskOk

/-- What the status registers hold inside a job. -/
structure State.Running (s : State) : Prop where
  status : s.status = .busy
  faultCode : s.faultCode = 0x00
  outValid : s.outValid = false

theorem State.Inv.core {s : State} (h : s.Inv) : s.CoreOk := ⟨h.mem, h.cursor, h.maskOk⟩

theorem State.Inv.running {s : State} (h : s.Inv) (hc : s.ctx ≠ .host) : s.Running where
  status := h.statusOk.busy.2 hc
  faultCode := h.statusOk.noCode (by rw [h.statusOk.busy.2 hc]; decide)
  outValid := h.statusOk.hidden hc

theorem inv_of_job {s : State} (core : s.CoreOk) (run : s.Running) (hc : s.ctx ≠ .host) (job : s.JobOk) : s.Inv where
  mem := core.mem
  cursor := core.cursor
  maskOk := core.maskOk
  statusOk :=
    { busy := ⟨fun _ => hc, fun _ => run.status⟩
      noCode := fun _ => run.faultCode
      code := fun fault => absurd (run.status.symm.trans fault) (by decide)
      hidden := fun _ => run.outValid }
  job := job

theorem jobOk_host {s : State} (hc : s.ctx = .host) : s.JobOk := by
  unfold State.JobOk
  rw [hc]
  trivial

/-- Outside a job only the status and the fault code are left to check. -/
theorem inv_of_host {s : State} (core : s.CoreOk) (hc : s.ctx = .host) (busy : s.status ≠ .busy)
    (noCode : s.status ≠ .fault → s.faultCode = 0x00)
    (code : s.status = .fault → ∃ f : FaultName, s.faultCode = f.code ∧ f.Raisable True) : s.Inv where
  mem := core.mem
  cursor := core.cursor
  maskOk := core.maskOk
  statusOk :=
    { busy := ⟨fun h => absurd h busy, fun h => absurd hc h⟩
      noCode := noCode
      code := fun fault => by
        obtain ⟨f, code, raisable⟩ := code fault
        rw [code]
        cases f <;> simp [FaultName.code] <;> exact raisable
      hidden := fun h => absurd hc h }
  job := jobOk_host hc

theorem inv_raise {s : State} (core : s.CoreOk) {f : FaultName} (hf : f.Raisable True) (n : Nat) :
    (raise f n s).Inv :=
  inv_of_host (core.of_eq core.mem.outOk)
    rfl nofun (fun h => absurd rfl h) fun _ => ⟨f, rfl, hf⟩

theorem inv_finish {s : State} (core : s.CoreOk) (code : s.faultCode = 0x00) : (finish s).Inv :=
  inv_of_host (core.of_eq core.mem.outOk)
    rfl nofun (fun _ => code) nofun

theorem inv_finishDecode {s : State} (core : s.CoreOk) (code : s.faultCode = 0x00) (n : Nat) :
    (finishDecode n s).Inv :=
  inv_finish (s := { s with outLen := n, outValid := true })
    (core.of_eq core.mem.outOk) code

/-! ### The sequencing -/

/-- What the sequencing of a VSP job does: stay inside the plane, end it, or end the job. -/
theorem vspSequence_cases (s : State) :
    (s.x < strips s ∧ s.y < s.height.toNat ∧ vspSequence s = s) ∨
    (s.x < strips s ∧ s.y ≥ s.height.toNat ∧ 0 < s.height.toNat ∧ (endPlane s).x < strips s ∧
      vspSequence s = endPlane s) ∨
    ∃ v, (v = s ∨ v = emptyStrips s ∨ s.x < strips s ∧ v = endPlane s) ∧ vspSequence s = endVsp v := by
  unfold vspSequence
  split_ifs with strip empty row next
  · exact .inr (.inr ⟨_, .inr (.inl rfl), rfl⟩)
  · exact .inl ⟨strip, row, rfl⟩
  · exact .inr (.inl ⟨strip, by omega, by omega, next, rfl⟩)
  · exact .inr (.inr ⟨_, .inr (.inr ⟨strip, rfl⟩), rfl⟩)
  · exact .inr (.inr ⟨_, .inl rfl, rfl⟩)

theorem endPlane_frame (s : State) : endPlane s = { s with
    outMem := (endPlane s).outMem, x := (endPlane s).x, plane := (endPlane s).plane, y := 0, sel := (endPlane s).sel } := by
  rw [endPlane_eq]
  split
  · unfold endStrip
    rw [vspPack_frame]
  · rfl

/-- The pack step is the one part of the sequencing that writes a byte space. -/
theorem wf_endPlane_outMem {s : State} (wf : Memory.wf s.outMem) (strip : s.x < strips s) :
    Memory.wf (endPlane s).outMem := by
  rw [endPlane_eq]
  split
  · exact (vspPack_read wf strip).1
  · exact wf

theorem State.CoreOk.endPlane {s : State} (h : s.CoreOk) (strip : s.x < strips s) : (endPlane s).CoreOk := by
  have out := wf_endPlane_outMem h.mem.outOk strip
  rw [endPlane_frame]
  exact h.of_eq out

theorem inv_vspSequence {s : State} (core : s.CoreOk) (run : s.Running) (hc : s.ctx = .vsp)
    (width : s.width.toNat % 8 = 0) (ip : s.ip ≤ s.lim) (lim : s.lim = s.inLen) : (vspSequence s).Inv := by
  rcases vspSequence_cases s with ⟨strip, row, eq⟩ | ⟨strip, _, rows, next, eq⟩ | ⟨v, hv, eq⟩ <;> rw [eq]
  · refine inv_of_job core run (by simp [hc]) ?_
    unfold State.JobOk
    rw [hc]
    exact ⟨width, strip, row, ip, lim⟩
  · have core' := core.endPlane strip
    rw [endPlane_frame] at core' ⊢
    refine inv_of_job core' ⟨run.status, run.faultCode, run.outValid⟩ (by simp [hc]) ?_
    simp only [State.JobOk, hc]
    exact ⟨width, next, rows, ip, lim⟩
  · have ends : v.CoreOk ∧ v.faultCode = 0x00 := by
      rcases hv with rfl | rfl | ⟨strip, rfl⟩
      · exact ⟨core, run.faultCode⟩
      · exact ⟨core.of_eq core.mem.outOk, run.faultCode⟩
      · exact ⟨core.endPlane strip, by rw [endPlane_frame]; exact run.faultCode⟩
    exact inv_finishDecode ends.1 ends.2 _

/-- The cursors of a section between two instructions, its end included. -/
structure SectionCursors (s : State) : Prop where
  ip : s.ip ≤ s.lim
  lim : s.lim ≤ s.inLen
  lane : s.op % 4 = if s.phase = .alpha then 3 else 0
  inside : s.phase = .color → s.op ≠ 0 → s.op - 2 < s.outSize.toNat

theorem inv_sectionSequence {s : State} (core : s.CoreOk) (run : s.Running) (cursors : SectionCursors s)
    (hc : s.phase = .alpha ∧ s.ctx = .sgdA ∨ s.phase = .color ∧ s.ctx = .sgdC) : (sectionSequence s).Inv := by
  obtain ⟨ip, lim, lane, inside⟩ := cursors
  by_cases more : s.ip < s.lim
  · rw [show sectionSequence s = s from if_pos more]
    rcases hc with ⟨phase, ctx⟩ | ⟨phase, ctx⟩
    · refine inv_of_job core run (by simp [ctx]) ?_
      simp only [State.JobOk, ctx]
      exact ⟨phase, more, lim, by simpa [phase] using lane⟩
    · refine inv_of_job core run (by simp [ctx]) ?_
      simp only [State.JobOk, ctx]
      exact ⟨phase, more, lim, by simpa [phase] using lane, inside phase⟩
  · have core' : ∀ l p c, State.CoreOk { s with lim := l, phase := p, ctx := c } := fun _ _ _ =>
      (core.of_eq core.mem.outOk)
    rcases hc with ⟨phase, ctx⟩ | ⟨phase, ctx⟩
    · rw [sectionSequence_alpha more phase]
      exact inv_of_job (core' _ _ _) ⟨run.status, run.faultCode, run.outValid⟩ nofun ⟨Nat.le_trans ip lim, rfl⟩
    · rw [sectionSequence_color more phase]
      exact inv_finishDecode (core' s.inLen s.phase s.ctx) run.faultCode _

/-- Inside a delta run, or at its end, where the section goes on. -/
theorem inv_settle_delta {s : State} (core : s.CoreOk) (run : s.Running) (cursors : SectionCursors s)
    (hc : s.ctx = .sgdD) (phase : s.phase = .color) (base : 4 ≤ s.op) : (settle s).Inv := by
  rw [settle_delta hc]
  split
  · exact inv_sectionSequence (s := { s with ctx := .sgdC })
      (core.of_eq core.mem.outOk)
      ⟨run.status, run.faultCode, run.outValid⟩ ⟨cursors.ip, cursors.lim, cursors.lane, cursors.inside⟩
      (.inr ⟨phase, rfl⟩)
  · have lane := cursors.lane
    have inside := cursors.inside phase (by omega)
    rw [phase, if_neg (by decide)] at lane
    refine inv_of_job core run (by simp [hc]) ?_
    simp only [State.JobOk, hc]
    exact ⟨phase, cursors.ip, cursors.lim, lane, base, inside, by omega⟩

/-! ### The invariant by position -/

theorem State.Inv.vsp {s : State} (h : s.Inv) (hc : s.ctx = .vsp) : s.width.toNat % 8 = 0 ∧ s.x < strips s ∧
    s.y < s.height.toNat ∧ s.ip ≤ s.lim ∧ s.lim = s.inLen := by
  simpa only [State.JobOk, hc] using h.job

theorem State.Inv.hdr {s : State} (h : s.Inv) (hc : s.ctx = .hdr) : s.ip ≤ s.lim ∧ s.lim = s.inLen := by
  simpa only [State.JobOk, hc] using h.job

theorem State.Inv.alpha {s : State} (h : s.Inv) (hc : s.ctx = .sgdA) :
    s.phase = .alpha ∧ s.ip < s.lim ∧ s.lim ≤ s.inLen ∧ s.op % 4 = 3 := by
  simpa only [State.JobOk, hc] using h.job

theorem State.Inv.color {s : State} (h : s.Inv) (hc : s.ctx = .sgdC) : s.phase = .color ∧ s.ip < s.lim ∧
    s.lim ≤ s.inLen ∧ s.op % 4 = 0 ∧ (s.op ≠ 0 → s.op - 2 < s.outSize.toNat) := by
  simpa only [State.JobOk, hc] using h.job

theorem State.Inv.delta {s : State} (h : s.Inv) (hc : s.ctx = .sgdD) : s.phase = .color ∧ s.ip ≤ s.lim ∧
    s.lim ≤ s.inLen ∧ s.op % 4 = 0 ∧ 4 ≤ s.op ∧ s.op - 2 < s.outSize.toNat ∧ 0 < s.nSgd := by
  simpa only [State.JobOk, hc] using h.job

/-! ### Raises and moves -/

theorem JobRaised.inv {s u : State} (h : JobRaised s u) (core : s.CoreOk) : u.Inv := by
  obtain ⟨v, f, n, rfl, hf, mem, frame⟩ := h
  refine inv_raise ?_ hf n
  have out := mem core.mem.outOk
  rw [frame]
  exact core.of_eq out

theorem SlotsMoved.core {lanes : Nat} {s u : State} (h : SlotsMoved lanes s u) (core : s.CoreOk) : u.CoreOk := by
  have out := h.mem core.mem.outOk
  rw [h.frame]
  exact core.of_eq out

theorem VspMoved.core {s u : State} (h : VspMoved s u) (core : s.CoreOk) : u.CoreOk where
  mem := h.mem core.mem
  cursor := by
    rw [h.frame]
    exact core.cursor
  maskOk := by
    rcases h.maskOk with kept | set
    · unfold State.MaskOk
      rw [kept]
      exact core.maskOk
    · exact set

theorem JobMoved.core {s u : State} (h : JobMoved s u) (core : s.CoreOk) : u.CoreOk := by
  cases h with
  | vsp _ moved => exact moved.core core
  | alpha _ moved => exact moved.core core
  | color _ moved => exact moved.core core
  | entersAlpha _ _ _ _ _ eq => subst eq; exact core.of_eq core.mem.outOk
  | entersColor _ _ _ _ _ eq => subst eq; exact core.of_eq core.mem.outOk
  | delta _ _ _ _ eq => subst eq; exact core.of_eq core.mem.outOk

theorem JobMoved.running {s u : State} (h : JobMoved s u) (run : s.Running) : u.Running := by
  cases h with
  | vsp _ moved => rw [moved.frame]; exact ⟨run.status, run.faultCode, run.outValid⟩
  | alpha _ moved => rw [moved.frame]; exact ⟨run.status, run.faultCode, run.outValid⟩
  | color _ moved => rw [moved.frame]; exact ⟨run.status, run.faultCode, run.outValid⟩
  | entersAlpha _ _ _ _ _ eq => exact eq ▸ ⟨run.status, run.faultCode, run.outValid⟩
  | entersColor _ _ _ _ _ eq => exact eq ▸ ⟨run.status, run.faultCode, run.outValid⟩
  | delta _ _ _ _ eq => exact eq ▸ ⟨run.status, run.faultCode, run.outValid⟩

theorem settle_vsp {s : State} (hc : s.ctx = .vsp) : settle s = vspSequence s := by
  unfold settle
  rw [hc]

theorem VspMoved.ctx {s u : State} (h : VspMoved s u) : u.ctx = s.ctx := by rw [h.frame]

theorem VspMoved.ip {s u : State} (h : VspMoved s u) : u.ip = s.ip := by rw [h.frame]

theorem VspMoved.lim {s u : State} (h : VspMoved s u) : u.lim = s.lim := by rw [h.frame]

theorem SlotsMoved.ctx {lanes : Nat} {s u : State} (h : SlotsMoved lanes s u) : u.ctx = s.ctx := by rw [h.frame]

theorem SlotsMoved.lim {lanes : Nat} {s u : State} (h : SlotsMoved lanes s u) : u.lim = s.lim := by rw [h.frame]

theorem SlotsMoved.phase {lanes : Nat} {s u : State} (h : SlotsMoved lanes s u) : u.phase = s.phase := by rw [h.frame]

/-- A run of slots leaves the cursors inside the section. -/
theorem SlotsMoved.cursors {lanes : Nat} {s u : State} (h : SlotsMoved lanes s u) (cursors : SectionCursors s)
    (three : s.phase = .color → lanes = 3) : SectionCursors u := by
  have phase := h.phase
  have lim := h.lim
  have outSize : u.outSize = s.outSize := by rw [h.frame]
  have inLen : u.inLen = s.inLen := by rw [h.frame]
  have high := h.ipHigh
  have ip := cursors.ip
  refine ⟨by omega, by rw [lim, inLen]; exact cursors.lim, by rw [h.opLane, phase]; exact cursors.lane,
    fun color started => ?_⟩
  rw [phase] at color
  have written := h.opInside
  have inside := cursors.inside color
  rw [outSize]
  have := three color
  omega

/-- Each move of a job, followed by the sequencing, keeps the invariant. -/
theorem JobMoved.inv {n : Nat} {s u : State} (h : JobMoved (advance n s) u) (inv : s.Inv) (hc : s.ctx ≠ .host)
    (fetched : s.ip + n ≤ s.lim) : (settle u).Inv := by
  have core := h.core (inv.core.of_eq inv.mem.outOk)
  have run := h.running ⟨(inv.running hc).status, (inv.running hc).faultCode, (inv.running hc).outValid⟩
  have same := (SameOutsideJob.advance n s).trans h.same
  cases h with
  | vsp ctx moved =>
    obtain ⟨width, _, _, _, lim⟩ := inv.vsp ctx
    have ctx' : u.ctx = .vsp := moved.ctx.trans ctx
    have ip' : u.ip = s.ip + n := moved.ip
    have lim' : u.lim = s.lim := moved.lim
    rw [settle_vsp ctx']
    exact inv_vspSequence core run ctx' (by rw [same.width]; exact width) (by omega) (by rw [lim', lim, same.inLen])
  | entersAlpha ctx phase lim low high eq =>
    subst eq
    rw [settle_section (.inl rfl)]
    have start : 3 % 4 = if s.phase = .alpha then 3 else 0 := (if_pos phase).symm
    exact inv_sectionSequence core run ⟨low, high, start, fun color => absurd (phase.symm.trans color) nofun⟩
      (.inl ⟨phase, rfl⟩)
  | entersColor ctx phase lim low high eq =>
    subst eq
    have color : s.phase = .color := phase
    rw [settle_section (.inr rfl)]
    have start : 0 % 4 = if s.phase = .alpha then 3 else 0 := by rw [color, if_neg (by decide)]
    exact inv_sectionSequence core run ⟨low, high, start, fun _ started => absurd rfl started⟩ (.inr ⟨phase, rfl⟩)
  | alpha ctx moved =>
    obtain ⟨phase, _, lim, lane⟩ := inv.alpha ctx
    have ctx' : u.ctx = .sgdA := moved.ctx.trans ctx
    have phase' : u.phase = .alpha := moved.phase.trans phase
    rw [settle_section (.inl ctx')]
    refine inv_sectionSequence core run (moved.cursors ⟨fetched, lim, ?_, ?_⟩ ?_) (.inl ⟨phase', ctx'⟩)
    · exact lane.trans (if_pos phase).symm
    · exact fun color => absurd (phase.symm.trans color) nofun
    · exact fun color => absurd (phase.symm.trans color) nofun
  | color ctx moved =>
    rcases ctx with ctx | ctx
    · obtain ⟨phase, _, lim, lane, inside⟩ := inv.color ctx
      have ctx' : u.ctx = .sgdC := moved.ctx.trans ctx
      have phase' : u.phase = .color := moved.phase.trans phase
      rw [settle_section (.inr ctx')]
      refine inv_sectionSequence core run (moved.cursors ⟨fetched, lim, ?_, fun _ => inside⟩ fun _ => rfl)
        (.inr ⟨phase', ctx'⟩)
      exact lane.trans (if_neg (by simp [advance, phase])).symm
    · obtain ⟨phase, _, lim, lane, base, inside, _⟩ := inv.delta ctx
      have ctx' : u.ctx = .sgdD := moved.ctx.trans ctx
      have phase' : u.phase = .color := moved.phase.trans phase
      refine inv_settle_delta core run (moved.cursors ⟨fetched, lim, ?_, fun _ _ => inside⟩ fun _ => rfl) ctx' phase'
        (Nat.le_trans base moved.opLow)
      exact lane.trans (if_neg (by simp [advance, phase])).symm
  | delta ctx len base inside eq =>
    obtain ⟨phase, _, lim, lane, _⟩ := inv.color ctx
    subst eq
    refine inv_settle_delta core run ⟨fetched, lim, ?_, fun _ _ => inside⟩ rfl phase base
    exact lane.trans (if_neg (by simp [loadBase, advance, phase])).symm

end Sys2Proof.Machine
end

section
/-! SUPPORT. The invariant at `CMD`: the reset event, the commands and the other host actions keep it (10_state.md
sections 3 to 8). -/

namespace Sys2Proof.Machine

/-! ### Reset -/

theorem coreOk_reset : State.reset.CoreOk :=
  ⟨⟨Memory.wf_nil, Memory.wf_nil, Memory.wf_nil, Memory.wf_nil, Memory.wf_nil⟩, ⟨by decide, by decide⟩, .inl rfl⟩

theorem inv_resetEvent (s : State) : (resetEvent s).Inv :=
  inv_of_host (coreOk_reset.of_eq Memory.wf_nil) rfl nofun (fun _ => rfl) nofun

/-- Settles O10: `State.reset` is what a reset event leaves of itself. -/
theorem resetStateMeetsTheInvariant : Obligations.ResetStateMeetsTheInvariant :=
  ⟨inv_resetEvent State.reset, nofun⟩

/-! ### The cursor of the PRNG -/

theorem refill_mti {s : State} (h : s.mti ≤ 65) : (refill s).mti = if s.mti < 64 then s.mti else 0 := by
  by_cases ready : s.mti < 64
  · rw [refill_ready ready, if_pos ready]
  · rw [if_neg ready]
    rcases (by omega : s.mti = 64 ∨ s.mti = 65) with used | unseeded
    · rw [refill_used used]
    · rw [refill_unseeded unseeded]

theorem exec_prngNext (s : State) : exec .prngNext s = .next (finish (draw (refill s))) := rfl

theorem draw_mti {s : State} (h : s.mti ≤ 65) : (draw (refill s)).mti = if s.mti < 64 then s.mti + 1 else 1 := by
  show (refill s).mti + 1 = _
  rw [refill_mti h]
  split <;> rfl

theorem exec_prngSeed_mti {s t : State} (h : exec .prngSeed s = .next t) : t.mti = 64 := by
  cases h
  rfl

theorem exec_prngMix_mti {s t : State} (h : exec .prngMix s = .next t) : t.mti = s.mti := by
  cases h
  rfl

theorem exec_prngNext_mti {s t : State} (h : exec .prngNext s = .next t) (bound : s.mti ≤ 65) :
    t.mti = if s.mti < 64 then s.mti + 1 else 1 := by
  cases h
  exact draw_mti bound

theorem cursorOk_exec_prng {i : Instr} (hi : i = .prngSeed ∨ i = .prngMix ∨ i = .prngNext) {s t : State}
    (h : exec i s = .next t) (cursor : s.CursorOk) : t.CursorOk := by
  obtain ⟨low, high⟩ := cursor
  unfold State.CursorOk
  rcases hi with rfl | rfl | rfl
  · rw [exec_prngSeed_mti h]
    decide
  · rw [exec_prngMix_mti h]
    exact ⟨low, high⟩
  · rw [exec_prngNext_mti h high]
    split <;> omega

/-! ### The commands -/

theorem coreOk_vspStart {s : State} (core : s.CoreOk) : (vspStart s).CoreOk :=
  ⟨⟨core.mem.inOk, core.mem.mixOk, Memory.wf_nil, Memory.wf_nil, Memory.wf_nil⟩, core.cursor, .inl rfl⟩

theorem settle_hdr {s : State} (hc : s.ctx = .hdr) : settle s = s := by
  unfold settle
  rw [hc]

/-- The meaning of a command, from the state after its dispatch. -/
theorem inv_exec_host {i : Instr} (hi : i.context = .host) {s : State} (core : s.CoreOk) (busy : s.status = .busy)
    (code : s.faultCode = 0x00) : ∃ u, exec i s = .next u ∧ (settle u).Inv := by
  have prng (hp : i = .prngSeed ∨ i = .prngMix ∨ i = .prngNext) : ∃ u, exec i s = .next u ∧ (settle u).Inv := by
    obtain ⟨mt, mti, result, next⟩ := execPrng_next hp s
    have cursor := cursorOk_exec_prng hp next core.cursor
    refine ⟨_, next, ?_⟩
    rw [settle_host rfl]
    exact inv_of_host ⟨core.mem.of_eq core.mem.outOk, cursor, core.maskOk⟩ rfl nofun (fun _ => code) nofun
  have opened : (openJob s).CoreOk := core.of_eq core.mem.outOk
  cases i with
  | prngSeed => exact prng (.inl rfl)
  | prngMix => exact prng (.inr (.inl rfl))
  | prngNext => exact prng (.inr (.inr rfl))
  | vspDecode =>
    rcases execVspDecode_cases s with next | ⟨width, next⟩
    · refine ⟨_, next, ?_⟩
      rw [settle_raise]
      exact inv_raise opened (f := .invalidDimensions) trivial 0
    · refine ⟨_, next, ?_⟩
      rw [settle_vsp rfl]
      exact inv_vspSequence (coreOk_vspStart opened) ⟨busy, code, rfl⟩ rfl width (Nat.zero_le _) rfl
  | sgdDecode =>
    rcases execSgdDecode_cases s with ⟨f, cause, next⟩ | next
    · refine ⟨_, next, ?_⟩
      rw [settle_raise]
      refine inv_raise opened ?_ 0
      rcases cause with rfl | rfl <;> trivial
    · refine ⟨_, next, ?_⟩
      rw [settle_hdr rfl]
      exact inv_of_job (opened.of_eq Memory.wf_nil) ⟨busy, code, rfl⟩ nofun ⟨Nat.zero_le _, rfl⟩
  | _ => cases hi

theorem dispatchCommand_of_decode {c : Byte} {i : Instr} (s : State) (decoded : decode .host [c] = .ok (i, [])) :
    dispatchCommand c s = settleAnswer (exec i (beginCommand c s)) := by
  rw [dispatchCommand, decoded]

theorem inv_dispatchCommand (c : Byte) {s : State} (core : s.CoreOk) :
    ∃ t, dispatchCommand c s = .next t ∧ t.Inv := by
  have begun : (beginCommand c s).CoreOk := core.of_eq core.mem.outOk
  by_cases known : 1 ≤ c.toNat ∧ c.toNat ≤ 5
  · obtain ⟨i, decoded⟩ := decode_command known
    obtain ⟨u, meaning, inv⟩ := inv_exec_host (decode_size decoded).1 begun rfl rfl
    exact ⟨settle u, by rw [dispatchCommand_of_decode s decoded, meaning, settleAnswer], inv⟩
  · exact ⟨_, dispatchCommand_badCommand s known, inv_raise begun (f := .badCommand) trivial 0⟩

/-! ### Other host actions -/

/-- Outside a job the invariant speaks of the status, the fault code, the byte spaces, `mti` and `mask` only. -/
theorem State.Inv.of_core {s u : State} (h : s.Inv) (core : u.CoreOk) (hc : u.ctx = .host) (hs : s.ctx = .host)
    (status : u.status = s.status := by rfl) (code : u.faultCode = s.faultCode := by rfl) : u.Inv where
  mem := core.mem
  cursor := core.cursor
  maskOk := core.maskOk
  statusOk :=
    { busy := by rw [status, h.statusOk.busy, hs, hc]
      noCode := by rw [status, code]; exact h.statusOk.noCode
      code := by rw [status, code]; exact h.statusOk.code
      hidden := fun job => absurd hc job }
  job := jobOk_host hc

theorem inv_hostWrite (act : HostAction) {s : State} (h : s.Inv) (hc : s.ctx = .host) :
    ∃ t, hostWrite act s = .next t ∧ t.Inv := by
  have core := h.core
  have out := core.mem.outOk
  cases act with
  | loadIn a bs =>
    exact ⟨_, rfl, h.of_core ⟨⟨Memory.wf_load core.mem.inOk a _, core.mem.mixOk, out, core.mem.hb0Ok, core.mem.hb1Ok⟩,
      core.cursor, core.maskOk⟩ hc hc⟩
  | loadMix a bs =>
    exact ⟨_, rfl, h.of_core ⟨⟨core.mem.inOk, Memory.wf_load core.mem.mixOk a bs, out, core.mem.hb0Ok, core.mem.hb1Ok⟩,
      core.cursor, core.maskOk⟩ hc hc⟩
  | _ => exact ⟨_, rfl, h.of_core (core.of_eq out) hc hc⟩

theorem inv_hostStep {s : State} (h : s.Inv) (hc : s.ctx = .host) : ∃ t, hostStep s = .next t ∧ t.Inv := by
  rcases hostStep_cases s with ⟨_, next⟩ | ⟨c, q, _, next⟩ | ⟨act, q, _, _, next⟩ <;> rw [next]
  · exact ⟨s, rfl, h⟩
  · exact inv_dispatchCommand c (h.core.of_eq h.mem.outOk)
  · exact inv_hostWrite act (s := { s with host := q }) (h.of_core (h.core.of_eq h.mem.outOk) hc hc) hc

end Sys2Proof.Machine
end

section
/-! SUPPORT. The invariant along a step: from it every step answers, and every step keeps it. -/

namespace Sys2Proof.Machine

theorem JobRaised.settle {s u : State} (h : JobRaised s u) : settle u = u := by
  obtain ⟨v, f, n, rfl, _⟩ := h
  exact settle_raise f n v

/-- Inside a job neither of the model's own stops is in reach: a VSP instruction is fetched only while the plane has a
row to fill, and every slot below a colour `op` lies inside `OUT`. -/
theorem streamStep_answers {s : State} (h : s.Inv) (hc : s.ctx ≠ .host) : ∃ t, streamStep s = .next t := by
  rcases streamStep_cases hc with ⟨i, rest, decoded, context, size, inside, next⟩ | ⟨n, _, _, _, next⟩
  · have row (ctx : s.ctx = .vsp) : s.y < s.height.toNat := by
      obtain ⟨_, _, row, _⟩ := h.vsp ctx
      exact row
    have base (ctx : s.ctx = .sgdC) (op : 4 ≤ s.op) : s.op - 2 < s.outSize.toNat := by
      obtain ⟨_, _, _, _, inside⟩ := h.color ctx
      exact inside (by omega)
    obtain ⟨u, meaning⟩ := exec_job_answers (s := advance i.size s) context hc row base
    exact ⟨settle u, by rw [next, meaning, settleAnswer]⟩
  · exact ⟨_, next⟩

theorem inv_streamStep {s t : State} (h : s.Inv) (hc : s.ctx ≠ .host) (next : streamStep s = .next t) : t.Inv := by
  obtain ⟨u, rfl, raised | ⟨n, _, fetched, moved⟩⟩ := streamStep_job hc next
  · rw [raised.settle]
    exact raised.inv h.core
  · exact moved.inv h hc fetched

theorem step_answers {s : State} (h : s.Inv) : ∃ t, step s = .next t ∧ t.Inv := by
  cases hr : s.resetIn with
  | true => exact ⟨_, step_reset hr, inv_resetEvent s⟩
  | false =>
    by_cases hc : s.ctx = .host
    · rw [step_host hr hc]
      exact inv_hostStep h hc
    · rw [step_stream hr hc]
      obtain ⟨t, next⟩ := streamStep_answers h hc
      exact ⟨t, next, inv_streamStep h hc next⟩

/-- Settles O11: the reset event, each host action, each command, and each raise and move of a job with the sequencing
behind it keep the invariant. -/
theorem stepKeepsTheInvariant : Obligations.StepKeepsTheInvariant := by
  intro s t h next
  obtain ⟨u, next', inv⟩ := step_answers h
  rw [next'] at next
  cases next
  exact inv

/-- Settles O13. -/
theorem noStopFromTheInvariant : Obligations.NoStopFromTheInvariant :=
  fun _ h => (step_answers h).imp fun _ answer => answer.1

end Sys2Proof.Machine
end

section
/-! SUPPORT. The pixels of the pack step (41_vsp.md R154, R155): which bit of which plane byte each bit of a pixel is. -/

namespace Sys2Proof.Machine

theorem getLsbD_nibBit (v : Bool) (i : Nat) {k : Nat} (hk : k < 8) : (nibBit v i).getLsbD k = (v && decide (k = i)) := by
  have one : (1 : Byte).getLsbD (k - i) = decide (k - i = 0) := BitVec.getLsbD_one.trans (by simp)
  unfold nibBit
  rw [BitVec.getLsbD_shiftLeft]
  cases v with
  | false => simp
  | true =>
    rw [if_pos rfl, one, Bool.eq_iff_iff]
    simp only [Bool.and_eq_true, Bool.not_eq_true', decide_eq_true_eq, decide_eq_false_iff_not, Bool.true_and]
    omega

/-- Bit `k` of a pixel comes from plane `k`, and the high nibble is clear. -/
theorem getLsbD_pixel (y j : Nat) (s : State) {k : Nat} (hk : k < 8) :
    (pixel y j s).getLsbD k = (decide (k < 4) && (component y k s).getLsbD (7 - j)) := by
  simp only [pixel_eq, pixelBit, BitVec.getLsbD_or, getLsbD_nibBit _ _ hk]
  rcases (by omega : k = 0 ∨ k = 1 ∨ k = 2 ∨ k = 3 ∨ 4 ≤ k) with rfl | rfl | rfl | rfl | high
  iterate 4 simp
  simp [show k ≠ 0 by omega, show k ≠ 1 by omega, show k ≠ 2 by omega, show k ≠ 3 by omega, show ¬k < 4 by omega]

/-- The plane byte is rotated by its plane's number before its bit `7 - j` is taken. -/
theorem getLsbD_pixel_plane (y : Nat) {j : Nat} (s : State) {i : Nat} (hi : i < 4) :
    (pixel y j s).getLsbD i = (curRead y i s).getLsbD ((7 - j + 8 - i) % 8) := by
  rw [getLsbD_pixel y j s (by omega), component, getLsbD_rotl8 _ (by omega) (by omega), decide_eq_true hi, Bool.true_and]

theorem pixel_lt (y j : Nat) (s : State) : (pixel y j s).toNat < 16 := by
  refine Nat.lt_pow_two_of_testBit (n := 4) _ fun k high => ?_
  by_cases hk : k < 8
  · have bit := getLsbD_pixel y j s hk
    rwa [decide_eq_false (by omega), Bool.false_and] at bit
  · exact BitVec.getLsbD_of_ge _ k (by omega)

/-- Settles O30: a pixel of the strip is read at its address as it was written, and no other byte is written. -/
theorem packTransposesPlanesToPixels : Obligations.PackTransposesPlanesToPixels := by
  intro s mem strip
  obtain ⟨_, written, others⟩ := vspPack_read mem.outOk strip
  refine ⟨vspPack_frame s, fun y j hy hj => ?_, fun a other => others a fun y j hy hj => ?_⟩
  · have address : y * s.width.toNat + 8 * s.x + j = stripAddr s y j := Nat.add_assoc ..
    rw [address, written y j hy hj]
    refine ⟨fun i hi => ?_, pixel_lt y j s⟩
    rw [getLsbD_pixel_plane y s hi, show 7 - j + 8 - i = 15 - j - i by omega]
  · rw [stripAddr, ← Nat.add_assoc]
    exact other y j hy hj

end Sys2Proof.Machine
end

section
/-! SUPPORT. `OUT` inside its bounds (`State.OutOk`): what an instruction of a job writes lies inside the buffer, and a
strip's pixels lie inside the image and are nibbles. -/

namespace Sys2Proof.Machine

/-! ### The invariant by position -/

/-- `OUT` inside a VSP job: nibbles inside the image (41_vsp.md R140, R156). -/
def VspOut (s : State) : Prop := ∀ c ∈ s.outMem, c.1 < imageBytes s ∧ c.2.toNat < 16

/-- `OUT` inside an SGD job (42_sgd_alpha.md R176, 43_sgd_color.md R193). -/
def SgdOut (s : State) : Prop := ∀ c ∈ s.outMem, c.1 < s.outSize.toNat

/-- `OUT` outside a job: the bytes of a result lie below `OUT_LEN`. -/
def ResultOut (s : State) : Prop := s.outValid = true → ∀ c ∈ s.outMem, c.1 < s.outLen

theorem outOk_host {s : State} (hc : s.ctx = .host) : s.OutOk ↔ ResultOut s := by
  unfold State.OutOk
  rw [hc]
  rfl

theorem outOk_vsp {s : State} (hc : s.ctx = .vsp) : s.OutOk ↔ VspOut s := by
  unfold State.OutOk
  rw [hc]
  rfl

theorem outOk_sgd {s : State} (hc : s.ctx = .hdr ∨ s.ctx = .sgdA ∨ s.ctx = .sgdC ∨ s.ctx = .sgdD) :
    s.OutOk ↔ SgdOut s := by
  unfold State.OutOk
  rcases hc with hc | hc | hc | hc <;> rw [hc] <;> rfl

theorem outOk_of_hidden {s : State} (hc : s.ctx = .host) (hidden : s.outValid = false) : s.OutOk :=
  (outOk_host hc).2 fun valid => absurd (hidden.symm.trans valid) nofun

/-! ### The sequencing -/

/-- A pixel of a strip inside the image lies inside `OUT`. -/
theorem stripAddr_lt {s : State} (strip : s.x < strips s) {y j : Nat} (hy : y < s.height.toNat) (hj : j < 8) :
    stripAddr s y j < imageBytes s := by
  have column : 8 * s.x + 8 ≤ s.width.toNat := by
    unfold strips at strip
    rw [vspStripW_eq] at strip
    omega
  calc stripAddr s y j < y * s.width.toNat + s.width.toNat := by unfold stripAddr; omega
    _ = (y + 1) * s.width.toNat := (Nat.succ_mul ..).symm
    _ ≤ s.height.toNat * s.width.toNat := Nat.mul_le_mul_right _ hy
    _ = imageBytes s := Nat.mul_comm ..

theorem VspOut.vspPack {s : State} (out : VspOut s) (strip : s.x < strips s) :
    ∀ c ∈ (vspPack s).outMem, c.1 < imageBytes s ∧ c.2.toNat < 16 := by
  intro c hc
  rcases vspPack_mem c hc with old | ⟨y, j, hy, hj, rfl⟩
  · exact out c old
  · exact ⟨stripAddr_lt strip hy hj, pixel_lt y j s⟩

theorem VspOut.endPlane {s : State} (out : VspOut s) (strip : s.x < strips s) : VspOut (Machine.endPlane s) := by
  have image : imageBytes (Machine.endPlane s) = imageBytes s := by
    rw [endPlane_frame]
    rfl
  unfold VspOut
  rw [image, endPlane_eq]
  split
  · exact out.vspPack strip
  · exact out

/-- The state in which a VSP job ends. -/
theorem VspOut.ended {s v : State} (out : VspOut s)
    (hv : v = s ∨ v = emptyStrips s ∨ s.x < strips s ∧ v = Machine.endPlane s) : VspOut v := by
  rcases hv with rfl | rfl | ⟨strip, rfl⟩
  · exact out
  · exact out
  · exact out.endPlane strip

theorem outOk_endVsp {s : State} (out : VspOut s) : (endVsp s).OutOk :=
  (outOk_host rfl).2 fun _ c hc => (out c hc).1

theorem outOk_vspSequence {s : State} (out : VspOut s) (hc : s.ctx = .vsp) : (vspSequence s).OutOk := by
  rcases vspSequence_cases s with ⟨_, _, eq⟩ | ⟨strip, _, _, _, eq⟩ | ⟨v, hv, eq⟩ <;> rw [eq]
  · exact (outOk_vsp hc).2 out
  · have ctx : (endPlane s).ctx = .vsp := by
      rw [endPlane_frame]
      exact hc
    exact (outOk_vsp ctx).2 (out.endPlane strip)
  · exact outOk_endVsp (out.ended hv)

theorem outOk_sectionSequence {s : State} (out : SgdOut s) (hc : s.ctx = .sgdA ∨ s.ctx = .sgdC) :
    (sectionSequence s).OutOk := by
  by_cases more : s.ip < s.lim
  · rw [show sectionSequence s = s from if_pos more]
    exact (outOk_sgd (by tauto)).2 out
  · cases phase : s.phase with
    | alpha =>
      rw [sectionSequence_alpha more phase]
      exact (outOk_sgd (.inl rfl)).2 out
    | color =>
      rw [sectionSequence_color more phase]
      exact (outOk_host rfl).2 fun _ => out

theorem outOk_settle_delta {s : State} (out : SgdOut s) (hc : s.ctx = .sgdD) : (settle s).OutOk := by
  rw [settle_delta hc]
  split
  · exact outOk_sectionSequence (s := { s with ctx := .sgdC }) out (.inr rfl)
  · exact (outOk_sgd (by tauto)).2 out

/-! ### Raises and moves -/

theorem JobRaised.outOk {s u : State} (h : JobRaised s u) (hidden : s.outValid = false) : u.OutOk := by
  obtain ⟨v, f, n, rfl, _, _, frame⟩ := h
  refine outOk_of_hidden rfl ?_
  rw [raise_outValid, frame]
  exact hidden

theorem SlotsMoved.out {lanes : Nat} {s u : State} (h : SlotsMoved lanes s u) (out : SgdOut s) : SgdOut u := by
  have outSize : u.outSize = s.outSize := by rw [h.frame]
  intro c hc
  rw [outSize]
  exact (h.cells c hc).elim (out c) id

theorem VspMoved.out {s u : State} (h : VspMoved s u) (out : VspOut s) : VspOut u := by
  rw [h.frame]
  exact out

theorem JobMoved.outOk {s u : State} (h : JobMoved s u) (out : s.OutOk) : (settle u).OutOk := by
  cases h with
  | vsp ctx moved =>
    have ctx' := moved.ctx.trans ctx
    rw [settle_vsp ctx']
    exact outOk_vspSequence (moved.out ((outOk_vsp ctx).1 out)) ctx'
  | entersAlpha ctx _ _ _ _ eq =>
    subst eq
    rw [settle_section (.inl rfl)]
    exact outOk_sectionSequence ((outOk_sgd (.inl ctx)).1 out) (.inl rfl)
  | entersColor ctx _ _ _ _ eq =>
    subst eq
    rw [settle_section (.inr rfl)]
    exact outOk_sectionSequence ((outOk_sgd (.inl ctx)).1 out) (.inr rfl)
  | alpha ctx moved =>
    have ctx' := moved.ctx.trans ctx
    rw [settle_section (.inl ctx')]
    exact outOk_sectionSequence (moved.out ((outOk_sgd (by tauto)).1 out)) (.inl ctx')
  | color ctx moved =>
    have out' := moved.out ((outOk_sgd (by tauto)).1 out)
    rcases ctx with ctx | ctx
    · have ctx' := moved.ctx.trans ctx
      rw [settle_section (.inr ctx')]
      exact outOk_sectionSequence out' (.inr ctx')
    · exact outOk_settle_delta out' (moved.ctx.trans ctx)
  | delta ctx _ _ _ eq =>
    have out' : SgdOut s := (outOk_sgd (by tauto)).1 out
    subst eq
    exact outOk_settle_delta out' rfl

theorem outOk_streamStep {s t : State} (h : s.Inv) (out : s.OutOk) (hc : s.ctx ≠ .host)
    (next : streamStep s = .next t) : t.OutOk := by
  obtain ⟨u, rfl, raised | ⟨n, _, _, moved⟩⟩ := streamStep_job hc next
  · rw [raised.settle]
    exact raised.outOk (h.statusOk.hidden hc)
  · exact moved.outOk (s := advance n s) out

/-! ### At `CMD` -/

/-- Outside a job `OUT` is kept in bounds by keeping it and `OUT_LEN`. -/
theorem State.OutOk.of_eq {s u : State} (out : s.OutOk) (hs : s.ctx = .host) (hc : u.ctx = .host)
    (mem : u.outMem = s.outMem := by rfl) (len : u.outLen = s.outLen := by rfl)
    (valid : u.outValid = s.outValid := by rfl) : u.OutOk := by
  rw [outOk_host hs] at out
  rw [outOk_host hc, ResultOut, mem, len, valid]
  exact out

theorem outOk_exec_host {i : Instr} (hi : i.context = .host) {s u : State} (out : s.OutOk) (hc : s.ctx = .host)
    (h : exec i s = .next u) : (settle u).OutOk := by
  have prng (hp : i = .prngSeed ∨ i = .prngMix ∨ i = .prngNext) : (settle u).OutOk := by
    obtain ⟨mt, mti, result, next⟩ := execPrng_next hp s
    rw [next] at h
    cases h
    rw [settle_host rfl]
    exact out.of_eq hc rfl
  cases i with
  | prngSeed => exact prng (.inl rfl)
  | prngMix => exact prng (.inr (.inl rfl))
  | prngNext => exact prng (.inr (.inr rfl))
  | vspDecode =>
    rcases execVspDecode_cases s with next | ⟨_, next⟩ <;> cases next.symm.trans h
    · exact outOk_of_hidden rfl rfl
    · rw [settle_vsp rfl]
      exact outOk_vspSequence nofun rfl
  | sgdDecode =>
    rcases execSgdDecode_cases s with ⟨f, _, next⟩ | next <;> cases next.symm.trans h
    · exact outOk_of_hidden rfl rfl
    · rw [settle_hdr rfl]
      exact (outOk_sgd (.inl rfl)).2 nofun
  | _ => cases hi

theorem outOk_dispatchCommand {c : Byte} {s t : State} (out : s.OutOk) (hc : s.ctx = .host)
    (h : dispatchCommand c s = .next t) : t.OutOk := by
  have begun : (beginCommand c s).OutOk := out.of_eq hc hc
  by_cases known : 1 ≤ c.toNat ∧ c.toNat ≤ 5
  · obtain ⟨i, decoded⟩ := decode_command known
    rw [dispatchCommand_of_decode s decoded] at h
    obtain ⟨u, meaning, rfl⟩ := settleAnswer_next h
    exact outOk_exec_host (decode_size decoded).1 begun hc meaning
  · rw [dispatchCommand_badCommand s known] at h
    cases h
    exact begun.of_eq hc rfl

theorem outOk_hostWrite {act : HostAction} {s t : State} (out : s.OutOk) (hc : s.ctx = .host)
    (h : hostWrite act s = .next t) : t.OutOk := by
  cases act <;> cases h <;> exact out.of_eq hc hc

theorem outOk_hostStep {s t : State} (out : s.OutOk) (hc : s.ctx = .host) (h : hostStep s = .next t) : t.OutOk := by
  rcases hostStep_cases s with ⟨_, next⟩ | ⟨c, q, _, next⟩ | ⟨act, q, _, _, next⟩ <;> rw [next] at h
  · cases h
    exact out
  · exact outOk_dispatchCommand (s := { s with host := q }) (out.of_eq hc hc) hc h
  · exact outOk_hostWrite (s := { s with host := q }) (out.of_eq hc hc) hc h

/-- Settles O12: a job writes inside its buffer, and no other step writes `OUT`, makes a result readable or changes the
length of one. -/
theorem stepKeepsOutInside : Obligations.StepKeepsOutInside := by
  intro s t h out next
  cases hr : s.resetIn with
  | true =>
    rw [step_reset hr] at next
    cases next
    exact outOk_of_hidden rfl rfl
  | false =>
    by_cases hc : s.ctx = .host
    · rw [step_host hr hc] at next
      exact outOk_hostStep out hc next
    · rw [step_stream hr hc] at next
      exact outOk_streamStep h out hc next

end Sys2Proof.Machine
end

section
/-! SUPPORT. The result of a VSP job (41_vsp.md R140, R158). -/

namespace Sys2Proof.Machine

/-- A byte that is read is an entry of the memory, or one that nobody has written. -/
theorem Memory.read_mem (m : Memory) (a : Nat) : Memory.read m a = unlistedByte ∨ (a, Memory.read m a) ∈ m := by
  induction m with
  | nil => exact .inl rfl
  | cons c m ih =>
    rw [Memory.read]
    split_ifs with here
    · exact .inr (List.mem_cons.2 (.inl (Prod.ext here rfl)))
    · exact ih.imp_right (List.mem_cons_of_mem _)

theorem VspOut.nibble {s : State} (out : VspOut s) (a : Nat) : (Memory.read s.outMem a).toNat < 16 := by
  rcases Memory.read_mem s.outMem a with unlisted | listed
  · rw [unlisted]
    decide
  · exact (out _ listed).2

theorem readOut_done {s : State} (done : s.status = .done) (valid : s.outValid = true) :
    readOut s = some (Memory.slice s.outMem 0 s.outLen) := by
  rw [readOut, readOutLen, if_pos ⟨done, valid⟩, Option.map_some]

theorem VspOut.result {s : State} (out : VspOut s) :
    ∃ l, readOut (endVsp s) = some l ∧ l.length = imageBytes s ∧ ∀ v ∈ l, v.toNat < 16 := by
  refine ⟨_, readOut_done rfl rfl, Memory.length_slice .., fun v hv => ?_⟩
  obtain ⟨a, _, rfl⟩ := List.mem_map.1 hv
  exact out.nibble _

theorem JobMoved.of_vsp {s u : State} (h : JobMoved s u) (hc : s.ctx = .vsp) : VspMoved s u := by
  cases h with
  | vsp _ moved => exact moved
  | _ => simp_all

/-- Settles O33: only the end of the job makes `STATUS` DONE, and what it leaves of the image is read as the result. -/
theorem finishedVspJobGivesNibbles : Obligations.FinishedVspJobGivesNibbles := by
  intro s t h out hr hc next done
  have job : s.ctx ≠ .host := by simp [hc]
  have same := step_same hr job next
  rw [step_stream hr job] at next
  have image : imageBytes t = s.width.toNat * s.height.toNat := by rw [imageBytes, same.width, same.height]
  obtain ⟨u, rfl, raised | ⟨n, _, _, moved⟩⟩ := streamStep_job job next
  · obtain ⟨v, f, m, rfl, _⟩ := raised
    exact absurd done nofun
  · have run := moved.running ⟨(h.running job).status, (h.running job).faultCode, (h.running job).outValid⟩
    have busy : u.status ≠ .done := by rw [run.status]; decide
    have vsp := moved.of_vsp hc
    have out' := vsp.out ((outOk_vsp hc).1 out)
    rw [settle_vsp (vsp.ctx.trans hc)] at done image ⊢
    rcases vspSequence_cases u with ⟨_, _, eq⟩ | ⟨_, _, _, _, eq⟩ | ⟨v, hv, eq⟩ <;> rw [eq] at done image ⊢
    · exact absurd done busy
    · rw [endPlane_frame] at done
      exact absurd done busy
    · obtain ⟨l, read, length, nibbles⟩ := (out'.ended hv).result
      exact ⟨l, read, length.trans image, nibbles⟩

end Sys2Proof.Machine
end

section
/-! SUPPORT. How a command ends (70_reset_and_hazards.md section 4): each step of a job that does not end it takes at least
one byte of the stream, and a job has a last byte. -/

namespace Sys2Proof.Machine

/-! ### Progress -/

theorem State.Inv.lim_le {s : State} (h : s.Inv) (hc : s.ctx ≠ .host) : s.lim ≤ s.inLen := by
  cases ctx : s.ctx with
  | host => exact absurd ctx hc
  | vsp =>
    obtain ⟨_, _, _, _, lim⟩ := h.vsp ctx
    exact lim.le
  | hdr =>
    obtain ⟨_, lim⟩ := h.hdr ctx
    exact lim.le
  | sgdA =>
    obtain ⟨_, _, lim, _⟩ := h.alpha ctx
    exact lim
  | sgdC =>
    obtain ⟨_, _, lim, _⟩ := h.color ctx
    exact lim
  | sgdD =>
    obtain ⟨_, _, lim, _⟩ := h.delta ctx
    exact lim

theorem JobMoved.ip_le {s u : State} (h : JobMoved s u) : s.ip ≤ u.ip := by
  cases h with
  | vsp _ moved => exact moved.ip.ge
  | entersAlpha _ _ _ _ _ eq => exact eq ▸ Nat.le_refl _
  | entersColor _ _ _ _ _ eq => exact eq ▸ Nat.le_refl _
  | alpha _ moved => exact moved.ipLow
  | color _ moved => exact moved.ipLow
  | delta _ _ _ _ eq => exact eq ▸ Nat.le_refl _

@[simp] theorem settle_ip (s : State) : (settle s).ip = s.ip := by rw [settle_frame]

/-- A step that leaves the engine inside the job has taken a byte below `IN_LEN`. -/
theorem streamStep_progress {s t : State} (h : s.Inv) (hc : s.ctx ≠ .host) (next : streamStep s = .next t)
    (job : t.ctx ≠ .host) : s.ip < t.ip ∧ s.ip < s.inLen := by
  obtain ⟨u, rfl, raised | ⟨n, positive, fetched, moved⟩⟩ := streamStep_job hc next
  · rw [raised.settle] at job
    obtain ⟨v, f, m, rfl, _⟩ := raised
    exact absurd rfl job
  · have lim := h.lim_le hc
    have low : s.ip + n ≤ u.ip := moved.ip_le
    rw [settle_ip]
    omega

/-! ### The status at the end -/

theorem endVsp_status (s : State) : (endVsp s).status = .done := rfl

theorem sectionSequence_status (s : State) :
    (sectionSequence s).status = s.status ∨ (sectionSequence s).status = .done := by
  unfold sectionSequence
  split_ifs
  · exact .inl rfl
  · split
    · exact .inl rfl
    · exact .inr rfl

/-- The sequencing keeps the status, or ends the job. -/
theorem settle_status (s : State) : (settle s).status = s.status ∨ (settle s).status = .done := by
  cases ctx : s.ctx with
  | host => exact .inl (by rw [settle_host ctx])
  | vsp =>
    rw [settle_vsp ctx]
    rcases vspSequence_cases s with ⟨_, _, eq⟩ | ⟨_, _, _, _, eq⟩ | ⟨v, _, eq⟩ <;> rw [eq]
    · exact .inl rfl
    · exact .inl (by rw [endPlane_frame])
    · exact .inr (endVsp_status v)
  | hdr => exact .inl (by rw [settle_hdr ctx])
  | sgdA =>
    rw [settle_section (.inl ctx)]
    exact sectionSequence_status s
  | sgdC =>
    rw [settle_section (.inr ctx)]
    exact sectionSequence_status s
  | sgdD =>
    rw [settle_delta ctx]
    split
    · exact sectionSequence_status { s with ctx := .sgdC }
    · exact .inl rfl

theorem settle_not_idle {s : State} (h : s.status ≠ .idle) : (settle s).status ≠ .idle := by
  rcases settle_status s with kept | done
  · rwa [kept]
  · rw [done]
    decide

theorem streamStep_not_idle {s t : State} (h : s.Inv) (hc : s.ctx ≠ .host) (next : streamStep s = .next t) :
    t.status ≠ .idle := by
  have run := h.running hc
  obtain ⟨u, rfl, raised | ⟨n, _, _, moved⟩⟩ := streamStep_job hc next
  · refine settle_not_idle ?_
    obtain ⟨v, f, m, rfl, _⟩ := raised
    exact nofun
  · refine settle_not_idle ?_
    rw [(moved.running ⟨run.status, run.faultCode, run.outValid⟩).status]
    decide

/-- Outside a job the invariant leaves one more status to exclude. -/
theorem State.Inv.ended {s : State} (h : s.Inv) (hc : s.ctx = .host) (idle : s.status ≠ .idle) :
    s.status = .done ∨ s.status = .fault := by
  have busy : s.status ≠ .busy := fun busy => h.statusOk.busy.1 busy hc
  cases status : s.status with
  | idle => exact absurd status idle
  | busy => exact absurd status busy
  | done => exact .inl rfl
  | fault => exact .inr rfl

/-! ### Runs -/

/-- `runJob` has found the end of the command. -/
def Ends (k : Nat) (s : State) : Prop :=
  ∃ t, runJob k s = .next t ∧ t.ctx = .host ∧ (t.status = .done ∨ t.status = .fault)

theorem runJob_succ {k : Nat} {s t : State} (next : step s = .next t) :
    runJob (k + 1) s = if t.ctx = .host then .next t else runJob k t := by
  rw [runJob, next]

/-- One step, then the rest of the run. -/
theorem ends_succ {k : Nat} {s t : State} (next : step s = .next t) (inv : t.Inv) (idle : t.status ≠ .idle)
    (rest : t.ctx ≠ .host → Ends k t) : Ends (k + 1) s := by
  unfold Ends
  rw [runJob_succ next]
  by_cases ends : t.ctx = .host
  · rw [if_pos ends]
    exact ⟨t, rfl, ends, inv.ended ends idle⟩
  · rw [if_neg ends]
    exact rest ends

theorem job_ends : ∀ (k : Nat) {s : State}, s.Inv → s.resetIn = false → s.ctx ≠ .host → s.inLen - s.ip < k →
    Ends k s := by
  intro k
  induction k with
  | zero => exact fun _ _ _ left => absurd left (Nat.not_lt_zero _)
  | succ k ih =>
    intro s h hr hc left
    obtain ⟨t, next, inv⟩ := step_answers h
    have same := step_same hr hc next
    have stream := next
    rw [step_stream hr hc] at stream
    refine ends_succ next inv (streamStep_not_idle h hc stream) fun job => ?_
    have ⟨taken, inside⟩ := streamStep_progress h hc stream job
    exact ih inv (same.resetIn.trans hr) job (by rw [same.inLen]; omega)

/-! ### The start of a command -/

theorem exec_host_keeps {i : Instr} (hi : i.context = .host) {s u : State} (idle : s.status ≠ .idle)
    (h : exec i s = .next u) : u.status ≠ .idle ∧ u.inLen = s.inLen ∧ u.resetIn = s.resetIn := by
  have prng (hp : i = .prngSeed ∨ i = .prngMix ∨ i = .prngNext) :
      u.status ≠ .idle ∧ u.inLen = s.inLen ∧ u.resetIn = s.resetIn := by
    obtain ⟨mt, mti, result, next⟩ := execPrng_next hp s
    cases next.symm.trans h
    exact ⟨nofun, rfl, rfl⟩
  cases i with
  | prngSeed => exact prng (.inl rfl)
  | prngMix => exact prng (.inr (.inl rfl))
  | prngNext => exact prng (.inr (.inr rfl))
  | vspDecode =>
    have same := execVspDecode_same h
    refine ⟨?_, same.inLen, same.resetIn⟩
    rcases execVspDecode_cases s with next | ⟨_, next⟩ <;> cases next.symm.trans h
    · exact nofun
    · exact idle
  | sgdDecode =>
    have same := execSgdDecode_same h
    refine ⟨?_, same.inLen, same.resetIn⟩
    rcases execSgdDecode_cases s with ⟨f, _, next⟩ | next <;> cases next.symm.trans h
    · exact nofun
    · exact idle
  | _ => cases hi

theorem dispatchCommand_keeps {c : Byte} {s t : State} (h : dispatchCommand c s = .next t) :
    t.status ≠ .idle ∧ t.inLen = s.inLen ∧ t.resetIn = s.resetIn := by
  by_cases known : 1 ≤ c.toNat ∧ c.toNat ≤ 5
  · obtain ⟨i, decoded⟩ := decode_command known
    rw [dispatchCommand_of_decode s decoded] at h
    obtain ⟨u, meaning, rfl⟩ := settleAnswer_next h
    have ⟨idle, inLen, resetIn⟩ := exec_host_keeps (decode_size decoded).1 (s := beginCommand c s) nofun meaning
    have same := SameOutsideJob.settle u
    exact ⟨settle_not_idle idle, same.inLen.trans inLen, same.resetIn.trans resetIn⟩
  · rw [dispatchCommand_badCommand s known] at h
    cases h
    exact ⟨nofun, rfl, rfl⟩

/-- Settles O14: a job's end is at most one step for each byte left and one more away, and a command's job is one step
away from its dispatch. -/
theorem everyCommandTerminates : Obligations.EveryCommandTerminates := by
  refine ⟨fun s h hr hc => job_ends _ h hr hc (Nat.lt_succ_self _), fun s c q h hr hc hq => ?_⟩
  obtain ⟨t, next, inv⟩ := step_answers h
  have dispatched := next
  rw [step_command hr hc hq] at dispatched
  have ⟨idle, inLen, resetIn⟩ := dispatchCommand_keeps dispatched
  exact ends_succ next inv idle fun job => job_ends _ inv (resetIn.trans hr) job (by rw [inLen]; dsimp only; omega)

end Sys2Proof.Machine
end

section
/-! SUPPORT. Two runs of one decode command (70_reset_and_hazards.md R257): equal inputs pass the same checks, the
job-start states agree, and every step of the two jobs keeps the agreement. -/

namespace Sys2Proof.Machine

/-! ### The checks -/

theorem SameJobInput.vspTooBig {s t : State} (h : SameJobInput s t) : vspTooBig t = vspTooBig s := by
  simp only [Machine.vspTooBig, imageBytes, h.cap, h.height, h.width, h.inLen]

theorem SameJobInput.sgdTooBig {s t : State} (h : SameJobInput s t) : sgdTooBig t = sgdTooBig s := by
  simp only [Machine.sgdTooBig, h.cap, h.outSize, h.inLen]

theorem SameJobInput.frameOk {s t : State} (h : SameJobInput s t) : frameOk t = frameOk s := by
  simp only [Machine.frameOk, h.csize, h.innerLen]

/-- Two answers of a decode command: the same raise of its checks, or two job-start states. -/
def SameStart (start : State → State) (s t : State) (p q : Answer) : Prop :=
  (∃ f, p = .next (raise f 0 (openJob s)) ∧ q = .next (raise f 0 (openJob t))) ∨
  p = .next (start (openJob s)) ∧ q = .next (start (openJob t))

theorem SameJobInput.execVspDecode {s t : State} (h : SameJobInput s t) :
    SameStart vspStart s t (execVspDecode s) (execVspDecode t) := by
  unfold Machine.execVspDecode
  rw [h.width, h.vspTooBig]
  split_ifs
  · exact .inl ⟨_, rfl, rfl⟩
  · exact .inl ⟨_, rfl, rfl⟩
  · exact .inr ⟨rfl, rfl⟩

theorem SameJobInput.execSgdDecode {s t : State} (h : SameJobInput s t) :
    SameStart sgdStart s t (execSgdDecode s) (execSgdDecode t) := by
  unfold Machine.execSgdDecode
  rw [h.frameOk, h.sgdTooBig]
  split_ifs
  · exact .inl ⟨_, rfl, rfl⟩
  · exact .inl ⟨_, rfl, rfl⟩
  · exact .inr ⟨rfl, rfl⟩

/-! ### The job-start states -/

theorem SameJobInput.begin {s t : State} (h : SameJobInput s t) (c : Byte) (q q' : List HostAction) :
    SameJobInput (beginCommand c { s with host := q }) (beginCommand c { t with host := q' }) :=
  ⟨h.width, h.height, h.outSize, h.csize, h.innerLen, h.inLen, h.inMem, h.cap⟩

section
variable {s t : State} (h : SameJobInput s t) (busy : s.status = .busy) (status : t.status = s.status)
  (code : t.faultCode = s.faultCode)
include h busy status code

theorem agree_settle_vspStart : Agree (settle (vspStart (openJob s))) (settle (vspStart (openJob t))) := by
  have start : AgreeVsp (vspStart (openJob s)) (vspStart (openJob t)) :=
    { width := h.width, height := h.height, outSize := h.outSize, inLen := h.inLen, inMem := h.inMem, ip := rfl
      lim := h.inLen, outMem := rfl, status := status, faultCode := code, ctx := rfl, outValid := rfl
      faultIp := fun fault => absurd (busy.symm.trans fault) nofun
      outLen := fun done => absurd (busy.symm.trans done) nofun
      x := rfl, plane := rfl, y := rfl, mask := rfl, sel := rfl, hb0 := rfl, hb1 := rfl }
  rw [settle_vsp rfl, settle_vsp rfl]
  exact agree_vspSequence start rfl

theorem agree_settle_sgdStart : Agree (settle (sgdStart (openJob s))) (settle (sgdStart (openJob t))) := by
  have start : AgreeSgd (sgdStart (openJob s)) (sgdStart (openJob t)) :=
    { width := h.width, height := h.height, outSize := h.outSize, inLen := h.inLen, inMem := h.inMem, ip := rfl
      lim := h.inLen, outMem := rfl, status := status, faultCode := code, ctx := rfl, outValid := rfl
      faultIp := fun fault => absurd (busy.symm.trans fault) nofun
      outLen := fun done => absurd (busy.symm.trans done) nofun
      op := rfl, phase := rfl }
  rw [settle_hdr rfl, settle_hdr rfl]
  exact start

end

/-! ### What the host learns -/

theorem AgreeBase.result {s t : State} (h : AgreeBase s t) : SameJobResult s t where
  status := h.status
  faultCode := h.faultCode
  faultIp := by
    unfold readFaultIp
    rw [h.status]
    split
    · rw [h.faultIp ‹_›]
    · rfl
  outLen := h.outLen
  out := by
    unfold readOut readOutLen
    rw [h.status, h.outValid, h.outMem]
    split
    · rw [h.outLen (And.left ‹_›)]
    · rfl

/-- A raise of the checks shows the host the same of any two states. -/
theorem sameJobResult_raise (f : FaultName) (n : Nat) (s t : State) : SameJobResult (raise f n s) (raise f n t) :=
  ⟨rfl, rfl, rfl, nofun, rfl⟩

/-! ### The runs -/

/-- Steps of two jobs that agree answer next states that agree. -/
theorem agree_step {s t u v : State} (h : Agree s t) (hc : s.ctx ≠ .host) (hr : s.resetIn = false)
    (hr' : t.resetIn = false) (next : step s = .next u) (next' : step t = .next v) : Agree u v := by
  rw [step_stream hr hc] at next
  rw [step_stream hr' (h.base.ctx ▸ hc)] at next'
  have answers := agree_streamStep h hc
  rw [next, next'] at answers
  rcases answers with ⟨_, _, e, e', agree⟩ | ⟨_, stop, _⟩
  · cases e
    cases e'
    exact agree
  · cases stop

/-- Two runs from states inside one job. -/
theorem sameResult_job : ∀ (k : Nat) {s t : State}, s.Inv → t.Inv → s.resetIn = false → t.resetIn = false →
    s.ctx ≠ .host → Agree s t → ∃ u v, runJob k s = .next u ∧ runJob k t = .next v ∧ SameJobResult u v := by
  intro k
  induction k with
  | zero => exact fun _ _ _ _ _ agree => ⟨_, _, rfl, rfl, agree.base.result⟩
  | succ k ih =>
    intro s t hs ht hr hr' hc agree
    obtain ⟨u, next, hu⟩ := step_answers hs
    obtain ⟨v, next', hv⟩ := step_answers ht
    have hc' : t.ctx ≠ .host := agree.base.ctx ▸ hc
    have after := agree_step agree hc hr hr' next next'
    rw [runJob_succ next, runJob_succ next', after.base.ctx]
    by_cases ends : u.ctx = .host
    · rw [if_pos ends, if_pos ends]
      exact ⟨u, v, rfl, rfl, after.base.result⟩
    · rw [if_neg ends, if_neg ends]
      exact ih hu hv ((step_same hr hc next).resetIn.trans hr)
        ((step_same hr' hc' next').resetIn.trans hr') ends after

/-- Two runs from the dispatch on. -/
theorem sameResult_command {k : Nat} {s t u v : State} (hu : u.Inv) (hv : v.Inv) (hr : u.resetIn = false)
    (hr' : v.resetIn = false) (next : step s = .next u) (next' : step t = .next v)
    (h : Agree u v ∨ u.ctx = .host ∧ v.ctx = .host ∧ SameJobResult u v) :
    ∃ w w', runJob (k + 1) s = .next w ∧ runJob (k + 1) t = .next w' ∧ SameJobResult w w' := by
  rw [runJob_succ next, runJob_succ next']
  rcases h with agree | ⟨ends, ends', same⟩
  · rw [agree.base.ctx]
    by_cases ends : u.ctx = .host
    · rw [if_pos ends, if_pos ends]
      exact ⟨u, v, rfl, rfl, agree.base.result⟩
    · rw [if_neg ends, if_neg ends]
      exact sameResult_job k hu hv hr hr' ends agree
  · rw [if_pos ends, if_pos ends']
    exact ⟨u, v, rfl, rfl, same⟩

theorem SameStart.agree {start : State → State} {s t u v : State} {p q : Answer} (h : SameStart start s t p q)
    (agree : Agree (settle (start (openJob s))) (settle (start (openJob t)))) (next : settleAnswer p = .next u)
    (next' : settleAnswer q = .next v) : Agree u v ∨ u.ctx = .host ∧ v.ctx = .host ∧ SameJobResult u v := by
  rcases h with ⟨f, rfl, rfl⟩ | ⟨rfl, rfl⟩ <;> cases next <;> cases next'
  · exact .inr ⟨rfl, rfl, sameJobResult_raise ..⟩
  · exact .inl agree

/-- What the two dispatches leave agrees, or is the same raise. -/
theorem agree_dispatch {c : Byte} {s t u v : State} (h : SameJobInput s t) (q q' : List HostAction)
    (hc : c = 0x04 ∨ c = 0x05) (next : dispatchCommand c { s with host := q } = .next u)
    (next' : dispatchCommand c { t with host := q' } = .next v) :
    Agree u v ∨ u.ctx = .host ∧ v.ctx = .host ∧ SameJobResult u v := by
  have begun := h.begin c q q'
  rcases hc with rfl | rfl
  · rw [dispatchCommand_vspDecode] at next next'
    exact begun.execVspDecode.agree (agree_settle_vspStart begun rfl rfl rfl) next next'
  · rw [dispatchCommand_sgdDecode] at next next'
    exact begun.execSgdDecode.agree (agree_settle_sgdStart begun rfl rfl rfl) next next'

/-- Settles O15, by induction over the steps of the two runs behind their dispatches. -/
theorem decodeResultDependsOnlyOnItsInput : Obligations.DecodeResultDependsOnlyOnItsInput := by
  intro s t c q q' hs ht hr hr' hc hc' hq hq' command same k positive
  obtain ⟨k, rfl⟩ := Nat.exists_eq_add_of_le' positive
  obtain ⟨u, next, hu⟩ := step_answers hs
  obtain ⟨v, next', hv⟩ := step_answers ht
  have dispatched := next
  have dispatched' := next'
  rw [step_command hr hc hq] at dispatched
  rw [step_command hr' hc' hq'] at dispatched'
  obtain ⟨_, _, resetIn⟩ := dispatchCommand_keeps dispatched
  obtain ⟨_, _, resetIn'⟩ := dispatchCommand_keeps dispatched'
  exact sameResult_command hu hv (resetIn.trans hr) (resetIn'.trans hr') next next'
    (agree_dispatch same q q' command dispatched dispatched')

end Sys2Proof.Machine
end

section
/-! SUPPORT. Streams that end inside an instruction (00_scope.md R13, decision D9): where each decoder stops, and what the
bytes that were there have put in the operand registers. -/

namespace Sys2Proof

/-! ### The decoders on bytes that end too early -/

theorem decode_hdr_short {bs : List Byte} (h : bs.length < 4) : decode .hdr bs = .error (.truncated 0) := by
  rcases bs with _ | ⟨v0, _ | ⟨v1, _ | ⟨v2, _ | ⟨v3, t⟩⟩⟩⟩
  iterate 4 rfl
  simp only [List.length_cons] at h
  omega

theorem decode_sgdA_short {bs : List Byte} (h : bs.length < 2) : decode .sgdA bs = .error (.truncated 0) := by
  rcases bs with _ | ⟨v0, _ | ⟨v1, t⟩⟩
  iterate 2 rfl
  simp only [List.length_cons] at h
  omega

theorem decode_sgdD_short {bs : List Byte} (h : bs.length < 2) : decode .sgdD bs = .error (.truncated 0) := by
  rcases bs with _ | ⟨v0, _ | ⟨v1, t⟩⟩
  iterate 2 rfl
  simp only [List.length_cons] at h
  omega

theorem decode_aRle_short (v0 : Byte) {v1 : Byte} (top : 128 ≤ v1.toNat) :
    decode .sgdA [v0, v1] = .error (.truncated 2) :=
  if_pos (le16_top_set top)

theorem decode_cRep_short {f : Byte} {t : List Byte} (top : f.extractLsb' 6 2 = 1#2) (h : t.length < 3) :
    decode .sgdC (f :: t) = .error (.truncated (t.length + 1)) := by
  rcases t with _ | ⟨b, _ | ⟨g, _ | ⟨r, t⟩⟩⟩
  iterate 3 simp [decode, decodeSgdC, nextByte, top]
  simp only [List.length_cons] at h
  omega

theorem colorFlag_top_eq_one_iff (f : Byte) : f.extractLsb' 6 2 = 1#2 ↔ 0x40 ≤ f.toNat ∧ f.toNat < 0x80 := by
  have value := colorFlag_toNat f
  have lowBound := (f.extractLsb' 0 6).isLt
  have topBound := (f.extractLsb' 6 2).isLt
  rw [← BitVec.toNat_inj, show (1#2).toNat = 1 from rfl]
  omega

end Sys2Proof

namespace Sys2Proof.Machine

/-! ### The operand registers -/

theorem latchOperands_nil (ctx : Context) (s : State) : latchOperands ctx [] s = s := by
  cases ctx <;> rfl

/-- `FILL2` without its last byte has set `b0`; no other VSP instruction sets a register before it runs. -/
theorem latchOperands_vsp {s : State} (short : s.lim < s.ip + 4) : latchOperands .vsp (fetchWindow s) s = { s with
    b0 := if Memory.read s.inMem s.ip = 0x02 ∧ s.lim = s.ip + 3 then Memory.read s.inMem (s.ip + 2) else s.b0 } := by
  obtain ⟨k, left⟩ : ∃ k, s.lim - s.ip = k := ⟨_, rfl⟩
  have few : k < 4 := by omega
  rw [fetchWindow_short few left]
  by_cases three : k = 3
  · subst three
    show (if Memory.read s.inMem s.ip = 0x02 then { s with b0 := Memory.read s.inMem (s.ip + 2) } else s) = _
    have lim : s.lim = s.ip + 3 := by omega
    by_cases fill2 : Memory.read s.inMem s.ip = 0x02
    · rw [if_pos fill2, if_pos ⟨fill2, lim⟩]
    · rw [if_neg fill2, if_neg fun h => fill2 h.1]
  · rw [if_neg (by omega)]
    rcases (by omega : k = 0 ∨ k = 1 ∨ k = 2) with rfl | rfl | rfl <;> rfl

theorem alphaRunCount_le16 (v0 : Byte) {v1 : Byte} (top : 128 ≤ v1.toNat) :
    alphaRunCount ((le16 v0 v1).extractLsb' 0 15) = v0.toNat + 256 * (v1.toNat - 128) + 1 := by
  have fields := alphaFlag_toNat (le16 v0 v1)
  rw [le16_top_set top, le16_toNat, Bool.toNat_true] at fields
  unfold alphaRunCount
  omega

theorem repCount_flag {f : Byte} (top : f.extractLsb' 6 2 = 1#2) :
    repCount (f.extractLsb' 0 6) = f.toNat - 0x40 + 1 := by
  have value := colorFlag_toNat f
  rw [top, show (1#2).toNat = 1 from rfl] at value
  unfold repCount
  omega

/-- `C_REP` without its whole triple has set `n` and the channels that were there. -/
theorem latchOperands_sgdC {s : State} (there : s.ip < s.lim) (short : s.lim < s.ip + 4)
    (top : (Memory.read s.inMem s.ip).extractLsb' 6 2 = 1#2) : latchOperands .sgdC (fetchWindow s) s = { s with
      nSgd := (Memory.read s.inMem s.ip).toNat - 0x40 + 1
      b := if s.ip + 2 ≤ s.lim then Memory.read s.inMem (s.ip + 1) else s.b
      g := if s.ip + 3 ≤ s.lim then Memory.read s.inMem (s.ip + 2) else s.g } := by
  rw [← repCount_flag top]
  rcases (by omega : s.lim - s.ip = 1 ∨ s.lim - s.ip = 2 ∨ s.lim - s.ip = 3) with left | left | left
  · rw [fetchWindow_short (by decide) left, slice_succ, if_neg (by omega), if_neg (by omega)]
    rfl
  · rw [fetchWindow_short (by decide) left, slice_succ, slice_succ, if_pos (by omega), if_neg (by omega)]
    rfl
  · rw [fetchWindow_short (by decide) left, slice_succ, slice_succ, slice_succ, if_pos (by omega), if_pos (by omega)]
    rfl

/-! ### The step -/

/-- The first fetch of the instruction fails: nothing at all has been fetched. -/
theorem step_underrun_first {s : State} (hr : s.resetIn = false) (hc : s.ctx ≠ .host)
    (hd : decode s.ctx (fetchWindow s) = .error (.truncated 0)) : step s = .next (underrunAt s.ip s) := by
  rw [step_underrun hr hc hd, List.take_zero, latchOperands_nil]
  rfl

theorem length_fetchWindow (s : State) : (fetchWindow s).length = min 4 (s.lim - s.ip) :=
  Memory.length_slice ..

theorem step_aRle_short {s : State} (hr : s.resetIn = false) (hc : s.ctx = .sgdA) (lim : s.lim = s.ip + 2)
    (top : 128 ≤ (Memory.read s.inMem (s.ip + 1)).toNat) : step s = .next (underrunAt (s.ip + 2) { s with
      nSgd := (Memory.read s.inMem s.ip).toNat + 256 * ((Memory.read s.inMem (s.ip + 1)).toNat - 128) + 1 }) := by
  have window : fetchWindow s = [Memory.read s.inMem s.ip, Memory.read s.inMem (s.ip + 1)] :=
    fetchWindow_short (k := 2) (by decide) (by omega)
  have cut := decode_aRle_short (Memory.read s.inMem s.ip) top
  rw [← window, ← hc] at cut
  rw [step_underrun hr (by simp [hc]) cut, window, hc, ← alphaRunCount_le16 _ top]
  rfl

theorem step_cRep_short {s : State} (hr : s.resetIn = false) (hc : s.ctx = .sgdC) (there : s.ip < s.lim)
    (short : s.lim < s.ip + 4) (top : (Memory.read s.inMem s.ip).extractLsb' 6 2 = 1#2) :
    step s = .next (underrunAt s.lim (latchOperands .sgdC (fetchWindow s) s)) := by
  obtain ⟨t, window⟩ := fetchWindow_eq_cons there
  have length := length_fetchWindow s
  have cut := decode_cRep_short (t := t) top (by rw [window, List.length_cons] at length; omega)
  rw [← List.length_cons (a := Memory.read s.inMem s.ip), ← window, ← hc] at cut
  rw [step_underrun hr (by simp [hc]) cut, List.take_length, hc, length, show s.ip + min 4 (s.lim - s.ip) = s.lim by omega]

/-- Settles O8: in each context the bytes left decide which fetch fails, and with it what has been latched. -/
theorem shortStreamsRaiseUnderrun : Obligations.ShortStreamsRaiseUnderrun := by
  intro s hr
  have length := length_fetchWindow s
  refine ⟨fun hc short => ?_, fun hc short => ?_, fun hc short => ?_, fun hc lim top => step_aRle_short hr hc lim top,
    fun hc short => ?_, fun hc there short low high => ?_, fun hc short => ?_⟩
  · have ⟨_, bound⟩ := vspLength_le (Memory.read s.inMem s.ip)
    rw [step_vsp_short hr hc short, latchOperands_vsp (by unfold maxSize at bound; omega)]
  · exact step_underrun_first hr (by simp [hc]) (hc ▸ decode_hdr_short (by omega))
  · exact step_underrun_first hr (by simp [hc]) (hc ▸ decode_sgdA_short (by omega))
  · have empty : fetchWindow s = [] := List.length_eq_zero_iff.1 (by omega)
    exact step_underrun_first hr (by simp [hc]) (by rw [hc, empty]; rfl)
  · have top := (colorFlag_top_eq_one_iff _).2 ⟨low, high⟩
    rw [step_cRep_short hr hc there short top, latchOperands_sgdC there short top]
  · exact step_underrun_first hr (by simp [hc]) (hc ▸ decode_sgdD_short (by omega))

end Sys2Proof.Machine
end

section
/-! SUPPORT. The lanes of `OUT` that the two sub-decoders write (42_sgd_alpha.md section 3, 43_sgd_color.md section 4). -/

namespace Sys2Proof.Machine

/-- Of the sequencing only the end of a VSP plane writes `OUT`. -/
theorem settle_outMem {s : State} (hc : s.ctx ≠ .vsp) : (settle s).outMem = s.outMem := by
  have section_outMem (u : State) : (sectionSequence u).outMem = u.outMem := by
    unfold sectionSequence
    split_ifs
    · rfl
    · split <;> rfl
  cases ctx : s.ctx with
  | host => rw [settle_host ctx]
  | vsp => exact absurd ctx hc
  | hdr => rw [settle_hdr ctx]
  | sgdA => rw [settle_section (.inl ctx), section_outMem]
  | sgdC => rw [settle_section (.inr ctx), section_outMem]
  | sgdD =>
    rw [settle_delta ctx]
    split
    · rw [section_outMem]
    · rfl

/-- From `s` to `u` no byte of `OUT` outside the lanes of a run that starts at `op` has changed. -/
def LanesOnly (lanes : Nat) (s u : State) : Prop :=
  ∀ a, ¬(s.op ≤ a ∧ (a - s.op) % 4 < lanes) → Memory.read u.outMem a = Memory.read s.outMem a

/-- A run of slots writes its own lanes, to its end or to its raise, and stays outside any VSP job. -/
theorem lanesOnly_of_slots {lanes : Nat} {s u : State} (h : SlotsMoved lanes s u ∨ SlotsRaised lanes s u)
    (wf : Memory.wf s.outMem) (hc : s.ctx ≠ .vsp) : LanesOnly lanes s u ∧ u.ctx ≠ .vsp := by
  rcases h with moved | ⟨v, f, moved, rfl, _⟩
  · exact ⟨moved.others wf, by rwa [moved.ctx]⟩
  · exact ⟨moved.others wf, nofun⟩

theorem exec_color_lanes {i : Instr} (hi : i.context = .sgdC ∨ i.context = .sgdD) {s u : State}
    (wf : Memory.wf s.outMem) (hc : s.ctx ≠ .vsp) (h : exec i s = .next u) : LanesOnly 3 s u ∧ u.ctx ≠ .vsp := by
  rcases hi with hi | hi
  · rcases exec_sgdC hi s with ⟨w, next, slots⟩ |
      ⟨len, _, ⟨_, next⟩ | ⟨_, _, next⟩ | ⟨_, _, next⟩⟩ | ⟨low, _, next⟩ <;> cases next.symm.trans h
    · exact lanesOnly_of_slots slots wf hc
    · exact ⟨fun _ _ => rfl, nofun⟩
    · exact ⟨fun _ _ => rfl, nofun⟩
    · exact ⟨fun _ _ => rfl, nofun⟩
  · obtain ⟨w, next, slots⟩ := exec_sgdD_moved hi s
    cases next.symm.trans h
    exact lanesOnly_of_slots slots wf hc

theorem streamStep_outMem_of_lanes {lanes : Nat} {s t : State} (hc : s.ctx ≠ .host)
    (lane : ∀ i u n, i.context = s.ctx → exec i (advance n s) = .next u → LanesOnly lanes s u ∧ u.ctx ≠ .vsp)
    (next : streamStep s = .next t) : LanesOnly lanes s t := by
  rcases streamStep_cases hc with ⟨i, rest, _, context, _, _, answer⟩ | ⟨n, _, _, _, answer⟩
  · rw [answer] at next
    obtain ⟨u, meaning, rfl⟩ := settleAnswer_next next
    obtain ⟨kept, ctx⟩ := lane i u i.size context meaning
    intro a ha
    rw [settle_outMem ctx, kept a ha]
  · cases answer.symm.trans next
    intro a _
    rw [raise_outMem, latchOperands_frame]
    rfl

/-- Settles O43: a run starts on the lane of its section and steps over whole slots. -/
theorem subDecodersWriteDisjointLanes : Obligations.SubDecodersWriteDisjointLanes := by
  intro s t h hr next
  have wf := h.mem.outOk
  refine ⟨fun ctx a ha => ?_, fun ctx a ha => ?_⟩
  · rw [step_stream hr (by simp [ctx])] at next
    obtain ⟨_, _, _, lane⟩ := h.alpha ctx
    refine streamStep_outMem_of_lanes (lanes := 1) (by simp [ctx]) (fun i u n context meaning => ?_) next a (by omega)
    obtain ⟨w, answer, slots⟩ := exec_sgdA (context.trans ctx) (advance n s)
    cases answer.symm.trans meaning
    exact lanesOnly_of_slots (s := advance n s) slots wf (by simp [advance, ctx])
  · have job : s.ctx ≠ .host := by rcases ctx with ctx | ctx <;> simp [ctx]
    have lane : s.op % 4 = 0 := by
      rcases ctx with ctx | ctx
      · obtain ⟨_, _, _, lane, _⟩ := h.color ctx
        exact lane
      · obtain ⟨_, _, _, lane, _⟩ := h.delta ctx
        exact lane
    rw [step_stream hr job] at next
    refine streamStep_outMem_of_lanes (lanes := 3) job (fun i u n context meaning => ?_) next a (by omega)
    exact exec_color_lanes (s := advance n s) (by rwa [context]) wf (by rcases ctx with ctx | ctx <;> simp [advance, ctx])
      meaning

end Sys2Proof.Machine
end

section
/-! SUPPORT. The order of sections, planes and strips (41_vsp.md section 4, 42_sgd_alpha.md section 2, 43_sgd_color.md
section 2). -/

namespace Sys2Proof.Machine

/-- Settles O44: the section loop stays, enters the colour header or ends the job, by `ip` and the phase. -/
theorem sectionsFollowInOrder : Obligations.SectionsFollowInOrder := by
  refine ⟨fun s hc more => ?_, fun s hc phase ended => ?_, fun s hc phase ended => ?_, fun s hc words => ?_,
    fun s hc words => ?_⟩
  · rw [settle_section hc]
    exact if_pos more
  · rw [settle_section (.inl hc), sectionSequence_alpha (by omega) phase]
  · rw [settle_section (.inr hc), sectionSequence_color (by omega) phase]
    rfl
  · rw [settle_delta hc, if_neg (by omega)]
  · rw [settle_delta hc, if_pos words, settle_section (.inr rfl)]

theorem endStrip_eq (s : State) : endStrip s = { vspPack s with sel := !s.sel, x := s.x + 1, plane := 0, y := 0 } := by
  have sel : (vspPack s).sel = s.sel := by rw [vspPack_frame]
  have x : (vspPack s).x = s.x := by rw [vspPack_frame]
  rw [endStrip, sel, x]

/-- Settles O31: the end of a strip changes `OUT` and the cursors only, and with `sel` flipped the same two buffers have
changed their roles. -/
theorem swapRelabelsTheBuffers : Obligations.SwapRelabelsTheBuffers := by
  intro s last
  have strip : endPlane s = endStrip s := by rw [endPlane_eq, if_pos last]
  rw [strip, endStrip_eq, vspPack_frame]
  refine ⟨_, rfl, rfl, rfl, rfl, rfl, fun row p => ⟨?_, rfl⟩⟩
  show histRead (!!s.sel) row p s = _
  rw [Bool.not_not]
  rfl

/-- With a row left the plane goes on. -/
theorem vspSequence_row {s : State} (strip : s.x < strips s) (row : s.y < s.height.toNat) : vspSequence s = s := by
  rw [vspSequence, if_pos strip, if_neg (by omega), if_pos row]

/-- A full plane ends; with the last strip the job ends. -/
theorem vspSequence_full {s : State} (strip : s.x < strips s) (rows : 0 < s.height.toNat)
    (full : s.height.toNat ≤ s.y) :
    vspSequence s = if (endPlane s).x < strips s then endPlane s else endVsp (endPlane s) := by
  rw [vspSequence, if_pos strip, if_neg (by omega), if_neg (by omega)]

/-- Settles O32: by the rows left in the plane, the plane, and the strips left. -/
theorem planesAndStripsFollowInOrder : Obligations.PlanesAndStripsFollowInOrder := by
  intro s hc strip rows
  rw [settle_vsp hc]
  refine ⟨fun row => vspSequence_row strip row, fun full other => ?_, fun full last more => ?_, fun full last ended => ?_⟩
  · rw [vspSequence_full strip rows full, endPlane_eq, if_neg other, if_pos strip]
  · rw [vspSequence_full strip rows full, endPlane_eq, if_pos last, endStrip_eq, if_pos more]
  · rw [vspSequence_full strip rows full, endPlane_eq, if_pos last, endStrip_eq, if_neg (by dsimp only; omega),
      vspPack_frame]
    rfl

end Sys2Proof.Machine
end

section
/-! SUPPORT. Who writes `mask` and the PRNG's cursor (10_state.md section 4, 40_prng.md section 5). -/

namespace Sys2Proof.Machine

/-- The SGD instructions leave the VSP unit and everything outside the job alone. -/
theorem exec_sgd_frame {i : Instr} (hh : i.context ≠ .host) (hv : i.context ≠ .vsp) {s u : State}
    (h : exec i s = .next u) : u = { s with
      status := u.status, faultCode := u.faultCode, faultIp := u.faultIp, outMem := u.outMem, ip := u.ip, lim := u.lim,
      op := u.op, b := u.b, g := u.g, r := u.r, a := u.a, nSgd := u.nSgd, ctx := u.ctx } := by
  have slots {lanes : Nat} {w : State} (moved : SlotsMoved lanes s w ∨ SlotsRaised lanes s w) : w = { s with
      status := w.status, faultCode := w.faultCode, faultIp := w.faultIp, outMem := w.outMem, ip := w.ip, lim := w.lim,
      op := w.op, b := w.b, g := w.g, r := w.r, a := w.a, nSgd := w.nSgd, ctx := w.ctx } := by
    rcases moved with moved | ⟨v, f, moved, rfl, _⟩
    · rw [moved.frame]
    · rw [moved.frame]
      rfl
  cases context : i.context with
  | host => exact absurd context hh
  | vsp => exact absurd context hv
  | hdr =>
    rcases exec_hdr context s with next | ⟨lim, _, _, ⟨_, next⟩ | ⟨_, next⟩⟩ <;> cases next.symm.trans h <;> rfl
  | sgdA =>
    obtain ⟨w, next, moved⟩ := exec_sgdA context s
    cases next.symm.trans h
    exact slots moved
  | sgdC =>
    rcases exec_sgdC context s with ⟨w, next, moved⟩ |
      ⟨len, _, ⟨_, next⟩ | ⟨_, _, next⟩ | ⟨_, _, next⟩⟩ | ⟨low, _, next⟩ <;> cases next.symm.trans h
    · exact slots moved
    iterate 3 rfl
  | sgdD =>
    obtain ⟨w, next, moved⟩ := exec_sgdD_moved context s
    cases next.symm.trans h
    exact slots moved

theorem singleRow_next {v : Byte} {s t : State} (h : singleRow v s = .next t) : t = putRow v s := by
  unfold singleRow at h
  split at h
  · cases h
    rfl
  · cases h

/-- Of the VSP instructions only `INV` and the three `XORk` write `mask`. -/
theorem exec_vsp_mask {i : Instr} (hi : i.context = .vsp) (inv : i ≠ .inv)
    (xor : ∀ cnt, i ≠ .xor0 cnt ∧ i ≠ .xor1 cnt ∧ i ≠ .xor2 cnt) {s t : State} (h : exec i s = .next t) :
    t.mask = s.mask := by
  cases i with
  | copy cnt =>
    cases h
    rw [runRows_frame]
  | fill cnt v0 =>
    cases h
    rw [runRows_frame]
  | fill2 cnt v0 v1 =>
    cases h
    rw [runPairs_frame]
  | xor0 cnt => exact absurd rfl (xor cnt).1
  | xor1 cnt => exact absurd rfl (xor cnt).2.1
  | xor2 cnt => exact absurd rfl (xor cnt).2.2
  | inv => exact absurd rfl inv
  | lit v0 => rw [singleRow_next h, putRow_mask]
  | raw c => rw [singleRow_next h, putRow_mask]
  | _ => cases hi

/-- Of the commands only `VSP_DECODE` writes `mask`. -/
theorem exec_host_mask {i : Instr} (hi : i.context = .host) (start : i ≠ .vspDecode) {s t : State}
    (h : exec i s = .next t) : t.mask = s.mask := by
  have prng (hp : i = .prngSeed ∨ i = .prngMix ∨ i = .prngNext) : t.mask = s.mask := by
    obtain ⟨mt, mti, result, next⟩ := execPrng_next hp s
    cases next.symm.trans h
    rfl
  cases i with
  | prngSeed => exact prng (.inl rfl)
  | prngMix => exact prng (.inr (.inl rfl))
  | prngNext => exact prng (.inr (.inr rfl))
  | vspDecode => exact absurd rfl start
  | sgdDecode => rcases execSgdDecode_cases s with ⟨f, _, next⟩ | next <;> cases next.symm.trans h <;> rfl
  | _ => cases hi

theorem execVspDecode_mask {s t : State} (h : execVspDecode s = .next t) (accepted : t.status ≠ .fault) :
    t.mask = 0x00 := by
  rcases execVspDecode_cases s with next | ⟨_, next⟩ <;> cases next.symm.trans h
  · exact absurd rfl accepted
  · rfl

/-- Settles O28, by the context of the instruction. -/
theorem maskChangesOnlyByInvAndXor : Obligations.MaskChangesOnlyByInvAndXor := by
  refine ⟨fun s t h => ?_, fun cnt s t h => ?_, fun i s t inv xor start h => ?_, fun s => ?_, rfl,
    fun s t h => execVspDecode_mask h⟩
  · cases h
    rfl
  · rcases h with h | h | h <;> cases h <;> rfl
  · by_cases host : i.context = .host
    · exact exec_host_mask host start h
    · by_cases vsp : i.context = .vsp
      · exact exec_vsp_mask vsp inv xor h
      · rw [exec_sgd_frame host vsp h]
  · rw [settle_frame]

/-- Of the commands only `PRNG_SEED` and `PRNG_NEXT` write the cursor. -/
theorem exec_host_mti {i : Instr} (hi : i.context = .host) (seed : i ≠ .prngSeed) (draw : i ≠ .prngNext) {s t : State}
    (h : exec i s = .next t) : t.mti = s.mti := by
  cases i with
  | prngSeed => exact absurd rfl seed
  | prngMix => exact exec_prngMix_mti h
  | prngNext => exact absurd rfl draw
  | vspDecode => exact (execVspDecode_same h).mti
  | sgdDecode => exact (execSgdDecode_same h).mti
  | _ => cases hi

/-- Settles O52, by the context of the instruction. -/
theorem cursorTransitionsAreComplete : Obligations.CursorTransitionsAreComplete := by
  refine ⟨rfl, fun s t h => exec_prngSeed_mti h, fun s t h bound => exec_prngNext_mti h bound,
    fun i s t seed draw h => ?_, fun s => (SameOutsideJob.settle s).mti⟩
  by_cases host : i.context = .host
  · exact exec_host_mti host seed draw h
  · by_cases vsp : i.context = .vsp
    · rw [(exec_vsp_next vsp h).frame]
    · rw [exec_sgd_frame host vsp h]

end Sys2Proof.Machine
end

section
/-! SUPPORT. The instructions of `U-VSP` that write rows (41_vsp.md section 3): each is one of the run loops, or one row. -/

namespace Sys2Proof.Machine

/-- Settles O21. -/
theorem copyRepeatsThePreviousStrip : Obligations.CopyRepeatsThePreviousStrip :=
  fun cnt s mem => ⟨_, rfl, copyRun_written (runCount cnt) (s := { s with nVsp := runCount cnt }) (mem.of_eq mem.outOk)⟩

/-- Settles O22. -/
theorem fillRepeatsItsLiteral : Obligations.FillRepeatsItsLiteral :=
  fun cnt v s mem =>
    ⟨_, rfl, fillRun_written v (runCount cnt) (s := { s with nVsp := runCount cnt, b0 := v }) (mem.of_eq mem.outOk)⟩

/-- Settles O23: the parity is counted from the row at which the run starts. -/
theorem fill2AlternatesFromItsFirstLiteral : Obligations.Fill2AlternatesFromItsFirstLiteral :=
  fun cnt v0 v1 s mem => ⟨_, rfl, runPairs_written v0 v1 s.y (runCount cnt)
    { s with nVsp := runCount cnt, b0 := v0, b1 := v1 } (mem.of_eq mem.outOk) (by simp) (Nat.le_refl _)⟩

/-- The run of `XORk`, before it clears `mask`. -/
theorem xorRun_eq {k : Nat} (hk : k < 4) (cnt : Byte) {s : State} (mem : s.MemOk) :
    ∃ t, xorRun k cnt s = { t with mask := 0x00 } ∧
      RowsWritten { s with nVsp := cnt.toNat + 1 } t (cnt.toNat + 1) fun row => curRead row k s ^^^ s.mask :=
  ⟨_, rfl, xorRun_written hk (runCount cnt) (s := { s with nVsp := runCount cnt }) (mem.of_eq mem.outOk)⟩

/-- Settles O24: the three instructions are the same run with another reference plane. -/
theorem xorCopiesTheReferencePlaneAndClearsMask : Obligations.XorCopiesTheReferencePlaneAndClearsMask := by
  intro cnt s mem p hp
  simp only [List.mem_cons, List.not_mem_nil, or_false] at hp
  rcases hp with rfl | rfl | rfl
  · obtain ⟨t, run, rows⟩ := xorRun_eq (k := 0) (by decide) cnt mem
    exact ⟨t, congrArg _ run, rows⟩
  · obtain ⟨t, run, rows⟩ := xorRun_eq (k := 1) (by decide) cnt mem
    exact ⟨t, congrArg _ run, rows⟩
  · obtain ⟨t, run, rows⟩ := xorRun_eq (k := 2) (by decide) cnt mem
    exact ⟨t, congrArg _ run, rows⟩

/-! ### One row -/

theorem putRow_written {s : State} (mem : s.MemOk) (row : s.y < s.height.toNat) (v : Byte) :
    RowsWritten s (putRow v s) 1 fun _ => v :=
  RowsWritten.cons (f := fun _ => v) mem row (RowsWritten.none (.inl rfl))

theorem singleRow_row {s : State} (row : s.y < s.height.toNat) (v : Byte) : singleRow v s = .next (putRow v s) :=
  if_pos row

theorem singleRow_stops {s : State} (full : s.height.toNat ≤ s.y) (v : Byte) : singleRow v s = .fault .noHistoryRow :=
  if_neg (Nat.not_lt.2 full)

theorem step_lit {s : State} (hr : s.resetIn = false) (hc : s.ctx = .vsp) (code : Memory.read s.inMem s.ip = 0x07)
    (inside : s.ip + 2 ≤ s.lim) :
    step s = settleAnswer (exec (.lit (Memory.read s.inMem (s.ip + 1))) (advance 2 s)) := by
  obtain ⟨rest, window⟩ := fetchWindow_full (k := 2) (by decide) inside
  have decoded : decode s.ctx (fetchWindow s) = .ok (.lit (Memory.read s.inMem (s.ip + 1)), rest) := by
    rw [hc, window, slice_succ, code]
    rfl
  exact step_of_decode hr (by simp [hc]) decoded

theorem step_raw {s : State} (hr : s.resetIn = false) (hc : s.ctx = .vsp)
    (raw : 0x08 ≤ (Memory.read s.inMem s.ip).toNat) (inside : s.ip < s.lim) :
    step s = settleAnswer (exec (.raw (Memory.read s.inMem s.ip)) (advance 1 s)) := by
  obtain ⟨rest, window⟩ := fetchWindow_eq_cons inside
  have decoded : decode s.ctx (fetchWindow s) = .ok (.raw (Memory.read s.inMem s.ip), rest) := by
    rw [hc, window]
    exact if_pos raw
  exact step_of_decode hr (by simp [hc]) decoded

/-- Settles O26: below `HEIGHT` one row is written; the step decodes the byte behind 0x07, or misses it. -/
theorem litWritesOneRow : Obligations.LitWritesOneRow := by
  refine ⟨fun v s mem row => ⟨_, singleRow_row (s := { s with b0 := v }) row v, rfl, putRow_mask v _,
      putRow_written (s := { s with b0 := v }) (mem.of_eq mem.outOk) row v⟩,
    fun s hr hc code _ => ⟨fun inside => step_lit hr hc code inside, fun short => ?_⟩,
    fun v s full => singleRow_stops (s := { s with b0 := v }) full v⟩
  have length : vspLength (Memory.read s.inMem s.ip) = 2 := by
    rw [code]
    rfl
  exact ⟨_, step_vsp_short hr hc (by rwa [length]), rfl, rfl⟩

/-- Settles O27: the byte itself is the row; without it no first byte is there either. -/
theorem rawWritesItselfAsOneRow : Obligations.RawWritesItselfAsOneRow := by
  refine ⟨fun c s mem row => ⟨_, singleRow_row row c, rfl, putRow_mask c s, putRow_written mem row c⟩,
    fun s hr hc raw => ⟨fun inside => step_raw hr hc raw inside, fun missing => ?_⟩,
    fun c s full => singleRow_stops full c⟩
  have length := vspLength_raw raw
  exact ⟨_, step_vsp_short hr hc (by omega), rfl, rfl⟩

/-- Settles O25. -/
theorem invSetsMask : Obligations.InvSetsMask := fun _ => rfl

end Sys2Proof.Machine
end

section
/-! SUPPORT. The commands of `U-MT` (40_prng.md): what each leaves in the words, the cursor and `RESULT`. -/

namespace Sys2Proof.Machine

theorem exec_prngSeed (s : State) : exec .prngSeed s =
    .next { s with mt := seedWords s.seed s.mt, mti := 64, status := .done, ctx := .host } := by
  dsimp only [exec, execPrngSeed, finish, seedState, mtSeedCursor]

/-- The seeding recurrence as a sum modulo 2^32 (40_prng.md R121). -/
theorem seedNext_toNat (mt : Vector Word 64) (i : Nat) : (seedNext mt i).toNat =
    (1712438297 * (mtAt mt (i - 1) ^^^ (mtAt mt (i - 1) >>> 30)).toNat + i) % 2 ^ 32 := by
  rw [seedNext, BitVec.toNat_add, BitVec.toNat_mul, BitVec.toNat_ofNat, ← Nat.add_mod]
  rfl

/-- Settles O45. -/
theorem seedFollowsItsRecurrence : Obligations.SeedFollowsItsRecurrence := by
  intro s
  obtain ⟨first, next⟩ := seedWords_spec s.seed s.mt
  refine ⟨_, exec_prngSeed s, rfl, first, fun i low high => ?_⟩
  have word := congrArg BitVec.toNat (next i low high)
  rwa [seedNext_toNat] at word

/-- Settles O46: by the cursor the draw finds its words ready, used or unseeded. -/
theorem nextTempersTheWordAtTheCursor : Obligations.NextTempersTheWordAtTheCursor := by
  intro s
  refine ⟨fun ready => ?_, fun used => ?_, fun unseeded => ?_⟩
  · rw [exec_prngNext, refill_ready ready]
    rfl
  · rw [exec_prngNext, refill_used used]
    rfl
  · rw [exec_prngNext, refill_unseeded unseeded]
    rfl

/-- Settles O47. -/
theorem twistFollowsItsRecurrence : Obligations.TwistFollowsItsRecurrence := by
  intro mt k hk yy hyy
  subst hyy
  exact twistWords_spec mt k hk

/-- Mixing the same words in twice cancels. -/
theorem mixWords_twice (mix : Memory) (mt : Vector Word 64) {n : Nat} (hn : n ≤ 64) :
    mixWords mix n (mixWords mix n mt) = mt := by
  refine mt_ext fun i hi => ?_
  rw [mixWords_spec mix _ n hn i hi, mixWords_spec mix mt n hn i hi]
  split
  · rw [BitVec.xor_assoc, BitVec.xor_self, BitVec.xor_zero]
  · rfl

/-- Settles O50: a mix changes neither the buffer nor its length. -/
theorem mixingTwiceRestores : Obligations.MixingTwiceRestores := by
  intro s t mixed
  rw [exec_prngMix] at mixed
  cases mixed
  exact ⟨_, exec_prngMix _, mixWords_twice s.mixMem s.mt (Nat.min_le_right _ _), rfl⟩

/-- Settles O51: an unseeded draw seeds first, which discards the words it finds. -/
theorem unseededWordsAreInvisible : Obligations.UnseededWordsAreInvisible := by
  intro s s' v unseeded unseeded' seeded
  rw [exec_prngSeed] at seeded
  cases seeded
  obtain ⟨_, _, draw⟩ := nextTempersTheWordAtTheCursor s
  obtain ⟨_, _, draw'⟩ := nextTempersTheWordAtTheCursor s'
  obtain ⟨_, used, _⟩ := nextTempersTheWordAtTheCursor
    { s with seed := 5489, mt := seedWords 5489 s.mt, mti := 64, status := .done, ctx := .host }
  refine ⟨_, _, _, draw unseeded, draw' unseeded', used rfl, ?_⟩
  rw [seedWords_eq 5489 s'.mt s.mt]
  exact ⟨rfl, rfl, rfl, rfl, rfl, rfl⟩

end Sys2Proof.Machine
end

section
/-! SUPPORT. The instructions of the alpha section (42_sgd_alpha.md section 3): its header and the two runs. -/

namespace Sys2Proof.Machine

/-- Settles O34. -/
theorem sectionMustEndInsideTheStream : Obligations.SectionMustEndInsideTheStream := by
  refine fun len s => ⟨fun past => if_pos past, fun inside phase => ?_, fun inside phase => ?_⟩
  · exact (if_neg (Nat.not_lt.2 inside)).trans (congrArg _ (enterSection_alpha len phase))
  · exact (if_neg (Nat.not_lt.2 inside)).trans (congrArg _ (enterSection_color len phase))

theorem alphaByte_eq_not (a : Byte) : alphaByte a = ~~~a := BitVec.xor_allOnes

/-- What a run of slots has written does not depend on the operand registers it starts with. -/
theorem SlotsWritten.of_eq {lanes k : Nat} {s s' t : State} {f : Nat → Nat → Byte} (h : SlotsWritten lanes s' t k f)
    (op : s'.op = s.op := by rfl) (mem : s'.outMem = s.outMem := by rfl) : SlotsWritten lanes s t k f where
  cursor := op ▸ h.cursor
  bytes := by
    rw [← op, ← mem]
    exact h.bytes

/-- Settles O35. -/
theorem aRleWritesComplementedRun : Obligations.ARleWritesComplementedRun := by
  intro cnt v s mem
  obtain ⟨t, written, frame, _, run⟩ := alphaRun_spec (alphaByte v) (cnt.toNat + 1)
    { s with nSgd := cnt.toNat + 1, a := v } (mem.of_eq mem.outOk)
  have ip : t.ip = s.ip := by rw [frame]
  rw [ip] at run
  exact ⟨t, alphaByte_eq_not v ▸ written.of_eq, frame, fun fits => congrArg Flow.answer (run.trans (if_pos fits)),
    fun past => congrArg Flow.answer (run.trans (if_neg (Nat.not_le.2 past)))⟩

/-- Settles O36. -/
theorem aLitWritesComplementedLiterals : Obligations.ALitWritesComplementedLiterals := by
  rintro cnt s m mem rfl
  obtain ⟨t, written, frame, literal, noLiteral, _, run⟩ :=
    alphaLits_spec cnt.toNat { s with nSgd := cnt.toNat } (mem.of_eq mem.outOk)
  have count : alphaLitCount cnt.toNat { s with nSgd := cnt.toNat } = min cnt.toNat (min (bytesLeft s) (alphaFit s)) := rfl
  rw [count] at written frame literal noLiteral run
  generalize min cnt.toNat (min (bytesLeft s) (alphaFit s)) = m at *
  have ip : t.ip = s.ip + m := by rw [frame]
  have byte : Memory.read t.inMem (s.ip + m) = Memory.read s.inMem (s.ip + m) := by rw [frame]
  rw [ip, byte] at run
  refine ⟨t, written.of_eq.congr fun i c _ _ => alphaByte_eq_not _, frame, ?_,
    fun all => congrArg Flow.answer (run.trans (if_pos all)), fun cut bytes => ?_, fun cut slots => ?_⟩
  · split_ifs with zero
    · exact noLiteral zero
    · exact literal (Nat.pos_of_ne_zero zero)
  · exact congrArg Flow.answer (run.trans ((if_neg cut.ne).trans (if_pos bytes)))
  · exact congrArg Flow.answer (run.trans ((if_neg cut.ne).trans (if_neg (Nat.not_le.2 slots))))

end Sys2Proof.Machine
end

section
/-! SUPPORT. The instructions of the colour section (43_sgd_color.md section 3): the two runs, the start of a delta run and
its words. -/

namespace Sys2Proof.Machine

/-- Settles O38. -/
theorem cRepRepeatsItsTriple : Obligations.CRepRepeatsItsTriple := by
  intro len vb vg vr s mem
  obtain ⟨t, written, frame, _, run⟩ := colorRun_spec (len.toNat + 1)
    { s with nSgd := len.toNat + 1, b := vb, g := vg, r := vr } (mem.of_eq mem.outOk)
  have ip : t.ip = s.ip := by rw [frame]
  rw [ip] at run
  exact ⟨t, written.of_eq, frame, fun fits => congrArg Flow.answer (run.trans (if_pos fits)),
    fun past => congrArg Flow.answer (run.trans (if_neg (Nat.not_le.2 past)))⟩

/-- Settles O37. -/
theorem cLitCopiesTriples : Obligations.CLitCopiesTriples := by
  rintro len s m mem rfl
  obtain ⟨t, written, frame, _, all, underrun, overrun⟩ :=
    colorLits_spec len.toNat { s with nSgd := len.toNat } (mem.of_eq mem.outOk)
  have count : colorLitCount len.toNat { s with nSgd := len.toNat } =
    min len.toNat (min (bytesLeft s / 3) (colorFit s)) := rfl
  rw [count] at written frame all underrun overrun
  generalize min len.toNat (min (bytesLeft s / 3) (colorFit s)) = m at *
  have ip : t.ip = s.ip + 3 * m := by rw [frame]
  have byte (k : Nat) : Memory.read t.inMem k = Memory.read s.inMem k := by rw [frame]
  rw [ip, byte, byte, byte] at overrun
  exact ⟨t, written.of_eq, frame, fun done => congrArg Flow.answer (all done),
    fun cut bytes => congrArg Flow.answer (underrun cut bytes),
    fun cut slots => congrArg Flow.answer (overrun cut slots)⟩

/-- Settles O39. -/
theorem cDeltaStartsFromThePreviousSlot : Obligations.CDeltaStartsFromThePreviousSlot := by
  intro len s
  have base : s.op - sgdSlot + 2 = s.op - 2 ∨ s.op < 4 := by unfold sgdSlot; omega
  refine ⟨fun noBase => if_pos noBase, fun slot inside => ?_, fun slot outside => ?_⟩
  · have inside' : ¬s.outSize.toNat ≤ s.op - sgdSlot + 2 := by omega
    refine (if_neg (Nat.not_lt.2 slot)).trans ((if_neg inside').trans ?_)
    rw [loadBase_eq (s := { s with nSgd := len.toNat }) slot]
  · have outside' : s.outSize.toNat ≤ s.op - sgdSlot + 2 := by omega
    exact (if_neg (Nat.not_lt.2 slot)).trans (if_pos outside')

/-! ### Delta words -/

/-- A colour slot of a delta word's triple: written whole, or `OutputOverrun` with nothing written. -/
theorem deltaSlot_spec {s : State} (mem : s.MemOk) (vb vg vr : Byte) :
    (s.op + 2 < s.outSize.toNat → ∃ t, (colorSlot { s with b := vb, g := vg, r := vr }).answer = .next t ∧
      t = { s with b := vb, g := vg, r := vr, op := s.op + 4, nSgd := s.nSgd - 1, outMem := t.outMem } ∧
      SlotsWritten 3 s t 1 fun _ lane => laneOf vb vg vr lane) ∧
    (s.outSize.toNat ≤ s.op + 2 → (colorSlot { s with b := vb, g := vg, r := vr }).answer = .next { s with
      b := vb, g := vg, r := vr, faultCode := 0x11, faultIp := s.ip, status := .fault, ctx := .host }) := by
  have slot : SlotsWritten 3 s { s with
      b := vb, g := vg, r := vr, outMem := storeTriple s.outMem s.op vb vg vr, op := s.op + 4, nSgd := s.nSgd - 1 } 1
      fun _ lane => laneOf vb vg vr lane :=
    (SlotsWritten.colorOne (s := { s with b := vb, g := vg, r := vr }) (mem.of_eq mem.outOk) (s.nSgd - 1)).of_eq
  rw [colorSlot_eq]
  refine ⟨fun fits => ?_, fun past => ?_⟩
  · rw [if_neg (Nat.not_le.2 fits)]
    exact ⟨_, rfl, rfl, slot⟩
  · rw [if_pos past]
    rfl

theorem addField_toNat (v : Byte) (d : BitVec 5) : (addField v d).toNat = (v.toNat + d.toNat) % 256 := by
  have field := d.isLt
  rw [addField, BitVec.toNat_add, BitVec.toNat_setWidth]
  omega

theorem smField_toNat (v : Byte) (sign : Bool) (mag : BitVec 4) : (smField v sign mag).toNat =
    (if sign then v.toNat + 256 - mag.toNat else v.toNat + mag.toNat) % 256 := by
  have magnitude := mag.isLt
  unfold smField
  cases sign
  · rw [if_neg (by decide), if_neg (by decide), BitVec.toNat_add, BitVec.toNat_setWidth]
    omega
  · rw [if_pos rfl, if_pos rfl, BitVec.toNat_sub, BitVec.toNat_setWidth]
    omega

/-- Settles O40. -/
theorem dAddAddsModulo256 : Obligations.DAddAddsModulo256 := fun dR dG dB s mem =>
  ⟨addField s.b dB, addField s.g dG, addField s.r dR, addField_toNat s.b dB, addField_toNat s.g dG,
    addField_toNat s.r dR, deltaSlot_spec mem _ _ _⟩

/-- Settles O41. -/
theorem dSmMovesBySignAndMagnitude : Obligations.DSmMovesBySignAndMagnitude := fun sR mR sG mG sB mB s mem =>
  ⟨smField s.b sB mB, smField s.g sG mG, smField s.r sR mR, smField_toNat s.b sB mB, smField_toNat s.g sG mG,
    smField_toNat s.r sR mR, deltaSlot_spec mem _ _ _⟩

end Sys2Proof.Machine
end

section
/-! SUPPORT. The checks of the two decode commands (44_host_commands.md sections 2 and 3), in their order. -/

namespace Sys2Proof.Machine

theorem vspTooBig_iff (s : State) : vspTooBig s = true ↔ (∃ m, s.cap.maxRows = some m ∧ m < s.height.toNat) ∨
    (∃ m, s.cap.maxOutBytes = some m ∧ m < s.width.toNat * s.height.toNat) ∨
    ∃ m, s.cap.maxInBytes = some m ∧ m < s.inLen := by
  rw [vspTooBig, Bool.or_eq_true, Bool.or_eq_true, exceeds_iff, exceeds_iff, exceeds_iff, or_assoc, imageBytes]

theorem vspTooBig_false {s : State} (rows : ∀ m, s.cap.maxRows = some m → s.height.toNat ≤ m)
    (out : ∀ m, s.cap.maxOutBytes = some m → s.width.toNat * s.height.toNat ≤ m)
    (inLen : ∀ m, s.cap.maxInBytes = some m → s.inLen ≤ m) : ¬vspTooBig s = true := by
  rw [vspTooBig_iff]
  rintro (⟨m, bound, past⟩ | ⟨m, bound, past⟩ | ⟨m, bound, past⟩)
  · exact Nat.not_lt.2 (rows m bound) past
  · exact Nat.not_lt.2 (out m bound) past
  · exact Nat.not_lt.2 (inLen m bound) past

theorem sgdTooBig_iff (s : State) : sgdTooBig s = true ↔ (∃ m, s.cap.maxOutBytes = some m ∧ m < s.outSize.toNat) ∨
    ∃ m, s.cap.maxInBytes = some m ∧ m < s.inLen := by
  rw [sgdTooBig, Bool.or_eq_true, exceeds_iff, exceeds_iff]

theorem sgdTooBig_false {s : State} (out : ∀ m, s.cap.maxOutBytes = some m → s.outSize.toNat ≤ m)
    (inLen : ∀ m, s.cap.maxInBytes = some m → s.inLen ≤ m) : ¬sgdTooBig s = true := by
  rw [sgdTooBig_iff]
  rintro (⟨m, bound, past⟩ | ⟨m, bound, past⟩)
  · exact Nat.not_lt.2 (out m bound) past
  · exact Nat.not_lt.2 (inLen m bound) past

theorem execVspDecode_tooBig {s : State} (width : s.width.toNat % 8 = 0) (big : vspTooBig s = true) :
    execVspDecode s = .next (raise .invalidDimensions 0 (openJob s)) :=
  (if_neg (Classical.not_not.2 width)).trans (if_pos big)

theorem execVspDecode_starts {s : State} (width : s.width.toNat % 8 = 0) (fits : ¬vspTooBig s = true) :
    execVspDecode s = .next (vspStart (openJob s)) :=
  (if_neg (Classical.not_not.2 width)).trans (if_neg fits)

/-- Without a pixel the sequencing ends a VSP job at once: no strip is left, or the strips have no rows. -/
theorem vspSequence_empty {s : State} (empty : s.width = 0 ∨ s.height = 0) :
    ∃ v, vspSequence s = endVsp v ∧ (v = s ∨ v = emptyStrips s) := by
  unfold vspSequence
  split_ifs with strip rows
  · exact ⟨_, rfl, .inr rfl⟩
  all_goals
    have noPixel : ¬(s.x < strips s ∧ s.height.toNat ≠ 0) := by
      rintro ⟨strip, rows⟩
      rcases empty with width | height
      · rw [strips, width] at strip
        exact absurd strip (by simp)
      · exact rows (by rw [height]; rfl)
  · exact absurd ⟨strip, rows⟩ noPixel
  · exact absurd ⟨strip, rows⟩ noPixel
  · exact absurd ⟨strip, rows⟩ noPixel
  · exact ⟨s, rfl, .inl rfl⟩

theorem imageBytes_empty {s : State} (empty : s.width = 0 ∨ s.height = 0) : imageBytes s = 0 := by
  rcases empty with width | height
  · rw [imageBytes, width]
    exact Nat.zero_mul _
  · rw [imageBytes, height]
    exact Nat.mul_zero _

/-- The end of a VSP job without a pixel: an empty result. -/
theorem settle_emptyImage {s : State} (hc : s.ctx = .vsp) (empty : s.width = 0 ∨ s.height = 0) :
    (settle s).status = .done ∧ (settle s).outLen = 0 ∧ readOut (settle s) = some [] := by
  have image := imageBytes_empty empty
  obtain ⟨v, sequence, hv⟩ := vspSequence_empty empty
  have image' : imageBytes v = 0 := by rcases hv with rfl | rfl <;> exact image
  rw [settle_vsp hc, sequence]
  refine ⟨rfl, image', ?_⟩
  rw [readOut_done rfl rfl, endVsp, finishDecode_outLen, image']
  rfl

/-- Settles O53. -/
theorem vspDecodeStartsAFreshJob : Obligations.VspDecodeStartsAFreshJob := by
  intro s width
  refine ⟨fun big => execVspDecode_tooBig width ((vspTooBig_iff s).2 big), fun rows out inLen =>
    ⟨_, execVspDecode_starts width (vspTooBig_false rows out inLen), rfl, fun empty => ?_⟩⟩
  have ⟨done, length, result⟩ := settle_emptyImage (s := vspStart (openJob s)) rfl empty
  exact ⟨_, rfl, done, settle_ip _, length, result⟩

/-- Settles O54. -/
theorem sgdDecodeChecksItsFrame : Obligations.SgdDecodeChecksItsFrame := by
  intro s
  have frame (ok : s.csize.toNat = s.innerLen.toNat + 4) : ¬frameOk s = false :=
    fun bad => (frameOk_eq_false_iff s).1 bad ok
  refine ⟨fun bad => execSgdDecode_badFrame bad, fun ok big => ?_, fun ok out inLen => ?_⟩
  · exact (if_neg (frame ok)).trans (if_pos ((sgdTooBig_iff s).2 big))
  · exact (if_neg (frame ok)).trans (if_neg (sgdTooBig_false out inLen))

end Sys2Proof.Machine
end

section
/-! SUPPORT. The step and the host's side of it (44_host_commands.md sections 1 and 4, 70_reset_and_hazards.md section 1). -/

namespace Sys2Proof.Machine

/-- Settles O4, by evaluating the decoder on each of the eleven samples. -/
theorem sampleWordsDecode : Obligations.SampleWordsDecode :=
  ⟨rfl, rfl, rfl, rfl, rfl, rfl, rfl, rfl, rfl, rfl, rfl⟩

/-- Settles O6. -/
theorem stepRunsTheDecodedInstruction : Obligations.StepRunsTheDecodedInstruction := by
  refine ⟨fun s i rest hr hc decoded => step_of_decode hr hc decoded, fun s c q i hr hc hq decoded => ?_⟩
  rw [step_command hr hc hq, dispatchCommand_of_decode _ decoded]
  rfl

/-- Settles O9. -/
theorem resetAbandonsEverything : Obligations.ResetAbandonsEverything := by
  intro s hr
  refine ⟨_, step_reset hr, rfl, fun i _ => ?_, rfl, rfl, rfl, rfl, rfl, rfl, rfl, rfl, rfl, rfl, rfl, rfl, rfl, rfl,
    rfl, rfl, rfl, rfl⟩
  simp [resetEvent, State.reset, mtAt]

/-- Settles O20. -/
theorem badCommandChangesOnlyTheStatus : Obligations.BadCommandChangesOnlyTheStatus := by
  intro s c q hr hc hq bad
  rw [step_command hr hc hq, dispatchCommand_badCommand _ (by omega), raise, beginCommand, ← hc]
  rfl

/-! ### What the host reads -/

theorem readOutLen_hidden {s : State} (h : s.status ≠ .done ∨ s.outValid = false) : readOutLen s = none := by
  refine if_neg ?_
  rintro ⟨done, valid⟩
  rcases h with h | h
  · exact h done
  · exact absurd (h.symm.trans valid) nofun

theorem readOut_hidden {s : State} (h : s.status ≠ .done ∨ s.outValid = false) : readOut s = none := by
  rw [readOut, readOutLen_hidden h, Option.map_none]

theorem readFaultIp_hidden {s : State} (h : s.status ≠ .fault) : readFaultIp s = none := if_neg h

/-- Settles O55: the two conditions of a read, with the status that the invariant gives a job. -/
theorem outIsHiddenUntilDone : Obligations.OutIsHiddenUntilDone := by
  refine ⟨fun s h => ⟨readOut_hidden h, readOutLen_hidden h⟩,
    fun s done valid => ⟨readOut_done done valid, if_pos ⟨done, valid⟩⟩, fun s h => readFaultIp_hidden h,
    fun s h hc => ?_, fun s t _ fault => ?_⟩
  · have busy := (h.running hc).status
    have notDone : s.status ≠ .done := by simp [busy]
    refine ⟨?_, readOut_hidden (.inl notDone), readOutLen_hidden (.inl notDone), readFaultIp_hidden (by simp [busy])⟩
    rw [hostView, busy]
    rfl
  · have notDone : t.status ≠ .done := by simp [fault]
    exact ⟨readOut_hidden (.inl notDone), readOutLen_hidden (.inl notDone), if_pos fault⟩

/-! ### What the host writes -/

theorem step_hostWrite {s : State} {act : HostAction} {q : List HostAction} (hr : s.resetIn = false)
    (hc : s.ctx = .host) (hq : s.host = act :: q) (other : ∀ c, act ≠ .command c) :
    step s = hostWrite act { s with host := q } := by
  rw [step_host hr hc]
  rcases hostStep_cases s with ⟨idle, _⟩ | ⟨c, q', command, _⟩ | ⟨act', q', first, _, next⟩
  · rw [idle] at hq
    cases hq
  · rw [command] at hq
    cases hq
    exact absurd rfl (other c)
  · rw [first] at hq
    cases hq
    exact next

theorem step_idle {s : State} (hr : s.resetIn = false) (hc : s.ctx = .host) (idle : s.host = []) :
    step s = .next s := by
  rw [step_host hr hc, hostStep, idle]

/-- A load without a bound. -/
theorem read_load_all {m : Memory} (wf : Memory.wf m) (a : Nat) (bs : List Byte) (k : Nat) :
    Memory.read (Memory.load m a bs) k = if a ≤ k ∧ k < a + bs.length then bs.getD (k - a) 0 else Memory.read m k := by
  have read := read_loadable wf none a bs k
  simpa [loadable] using read

/-- Settles O56: each action is the one update that `hostWrite` gives it. -/
theorem hostWritesOneRegister : Obligations.HostWritesOneRegister := by
  intro s q hr hc
  have write {act : HostAction} (hq : s.host = act :: q) (other : ∀ c, act ≠ .command c) :
      step s = hostWrite act { s with host := q } := step_hostWrite hr hc hq other
  refine ⟨fun idle => step_idle hr hc idle, fun v hq => write hq nofun, fun v hq => write hq nofun,
    fun v hq => write hq nofun, fun v hq => write hq nofun, fun v hq => write hq nofun, fun v hq => write hq nofun,
    fun n hq => write hq nofun, fun n hq => write hq nofun,
    fun a bs hq mem => ⟨_, write hq nofun, rfl, fun k => ⟨fun low high bound => ?_, fun outside => ?_⟩⟩,
    fun a bs hq mem => ⟨_, write hq nofun, rfl, read_load_all mem.mixOk a bs⟩⟩
  · exact (read_loadable mem.inOk _ a bs k).trans (if_pos ⟨low, high, bound⟩)
  · refine (read_loadable mem.inOk _ a bs k).trans (if_neg ?_)
    rintro ⟨low, high, bound⟩
    rcases outside with below | behind | ⟨m, cap, past⟩
    · omega
    · omega
    · exact Nat.not_lt.2 past (bound m cap)

end Sys2Proof.Machine
end
